-- ==== Sys2Proof/Word.lean ====
section
/-! DEFINITION. The word types of the Intel 64 and IA-32 MOVD/MOVQ model: bytes, 32- and 64-bit words, and the two
operand widths of the group. -/

namespace Sys2Proof

/-- A byte of memory or of an instruction (10_state.md R38). -/
abbrev Byte := BitVec 8

/-- A doubleword (00_scope.md section 7). -/
abbrev Word32 := BitVec 32

/-- A quadword (00_scope.md section 7). -/
abbrev Word64 := BitVec 64

/-- The widest vector register, 512 bits; a narrower MAXVL leaves the high bits zero (10_state.md R26). -/
abbrev VecWord := BitVec 512

/-- The two data widths of the group: 32 bits for MOVD and VMOVD, 64 for MOVQ and VMOVQ (30_encoding.md R89). -/
inductive Width where
  | dword
  | qword
deriving DecidableEq, Repr

/-- Bytes moved: 4 or 8 (20_memory.md R57). -/
def Width.bytes : Width → Nat
  | .dword => 4
  | .qword => 8

/-- Bits moved: 32 or 64. -/
abbrev Width.bits : Width → Nat
  | .dword => 32
  | .qword => 64

end Sys2Proof
end

