-- ==== Sys2Proof/Config.lean ====
section
/-! DEFINITION. The implementation parameters of 00_scope.md R5, as plain data. They are constant over a run: the State
holds them and no instruction writes them, so a statement about every state is a statement about every parameter value. -/

namespace Sys2Proof

/-- Processor mode: 64-bit mode, or every other mode taken together (00_scope.md R3, R5). -/
inductive Mode where
  | m64
  | m32
deriving DecidableEq, Repr

/-- What the decoder must know of the code segment: the mode, and whether its default address size is 16 bits
(read only in M32; 00_scope.md R5, 30_encoding.md R88). -/
structure CodeMode where
  mode : Mode
  codeDefault16 : Bool
deriving DecidableEq, Repr

/-- MAXVL, the width of a vector register: 128, 256 or 512 bits (00_scope.md R5, D2). -/
inductive VecLen where
  | v128
  | v256
  | v512
deriving DecidableEq, Repr

abbrev VecLen.bits : VecLen → Nat
  | .v128 => 128
  | .v256 => 256
  | .v512 => 512

/-- VA_BITS, the width of a canonical linear address in M64: 48 or 57 (00_scope.md R5). -/
inductive VaBits where
  | va48
  | va57
deriving DecidableEq, Repr

abbrev VaBits.bits : VaBits → Nat
  | .va48 => 48
  | .va57 => 57

/-- The six segment registers (10_state.md R37). -/
inductive Seg where
  | es
  | cs
  | ss
  | ds
  | fs
  | gs
deriving DecidableEq, Repr

/-- The segment register's number (10_state.md R37). -/
def Seg.num : Seg → Nat
  | .es => 0
  | .cs => 1
  | .ss => 2
  | .ds => 3
  | .fs => 4
  | .gs => 5

/-- A data access reads or writes (20_memory.md R58). -/
inductive Access where
  | read
  | write
deriving DecidableEq, Repr

/-- What a region of linear addresses does to a data access that the segment level has let through
(20_memory.md R58, R59, R63). -/
inductive RegionKind where
  /-- A page-level fault: the #PF error code a read, or a write, of a byte here gets; `none` lets it through. -/
  | faulting (onRead onWrite : Option Word32)
  /-- Present memory that is not ordinary write-back memory (a device, or another cache type): R63. -/
  | notWriteBack
deriving DecidableEq, Repr

/-- A region of the platform's memory map: the linear addresses `base` to `base + size - 1`. -/
structure MemRegion where
  base : Nat
  size : Nat
  kind : RegionKind
deriving DecidableEq, Repr

/-- An exception the platform answers for an access (20_memory.md R58): #GP(0), #SS(0), or #PF with its error code and
faulting address. #AC is not among them: when it is raised is R56's matter alone. -/
inductive AccessException where
  | gp
  | ss
  | pf (code : Word32) (cr2 : Word64)
deriving DecidableEq, Repr

/-- A row of `Translate` as data: the accesses through `seg` of `bytes` bytes, in direction `kind`, at the offsets
`first` to `last`, and the exception they get. The rows can say this of every single access, so a list of rows is every
decision the platform can take (R58, D7; log 10). -/
structure AccessRule where
  seg : Seg
  kind : Access
  bytes : Nat
  first : Word64
  last : Word64
  refuses : AccessException
deriving DecidableEq, Repr

/-- The processor and platform parameters of 00_scope.md R5. `accessRules` and `memMap` are the open part of `Translate`
as data (DESIGN CHOICE, log 10): an access that no row of `accessRules` and no region of `memMap` refuses is to present
write-back memory. -/
structure Platform where
  hasMMX : Bool
  hasSSE2 : Bool
  hasAVX : Bool
  hasAVX512F : Bool
  maxvl : VecLen
  vaBits : VaBits
  accessRules : List AccessRule
  memMap : List MemRegion
deriving DecidableEq, Repr

/-- NVEC: how many vector registers an encoding can name; `evex` says the encoding is EVEX
(00_scope.md R5, 10_state.md R28). -/
def nvec : Mode → (evex : Bool) → Nat
  | .m32, _ => 8
  | .m64, false => 16
  | .m64, true => 32

end Sys2Proof
end

