-- ==== Sys2Proof/Syntax.lean ====
section
/-! DEFINITION. The instructions as syntax: one constructor for each of the eighteen rows of spec/opcode_table.json
(rows 9 and 11 of 30_encoding.md R80 have two table rows each, one per VEX prefix form).

A constructor holds the instruction's prefix bytes, the fields of its VEX or EVEX prefix that the row leaves free, and
its ModRM, SIB and displacement. What selects the row (the mandatory prefix, the opcode byte, map and pp) is in no field.
Extension bits are kept as their logical values, the complement of the stored bit (R94, R95, R97). -/

namespace Sys2Proof

/-- The four low bits of a REX byte (30_encoding.md R91). -/
structure Rex where
  w : Bool
  r : Bool
  x : Bool
  b : Bool
deriving DecidableEq, Repr

/-- One byte before the first opcode, VEX or EVEX byte: a legacy prefix (30_encoding.md R85) or, in M64, a REX byte. -/
inductive PrefixItem where
  /-- F0 -/
  | lock
  /-- F2 -/
  | repne
  /-- F3 -/
  | rep
  /-- 2E, 36, 3E, 26, 64, 65 -/
  | seg (s : Seg)
  /-- 66 -/
  | opSize
  /-- 67 -/
  | addrSize
  /-- 40 to 4F -/
  | rex (r : Rex)
deriving DecidableEq, Repr

/-- Displacement of a 32- or 64-bit address: mod = 00b, 01b, 10b (30_encoding.md R100, R101). -/
inductive Disp where
  | none
  | d8 (d : BitVec 8)
  | d32 (d : BitVec 32)
deriving DecidableEq, Repr

/-- Displacement of a 16-bit address: mod = 00b, 01b, 10b (30_encoding.md R102). -/
inductive Disp16 where
  | none
  | d8 (d : BitVec 8)
  | d16 (d : BitVec 16)
deriving DecidableEq, Repr

/-- The ModRM:r/m operand, with its SIB byte and displacement (30_encoding.md R99 to R102). -/
inductive RmForm where
  /-- mod = 11b: the general-purpose register `rm` -/
  | direct (rm : BitVec 3)
  /-- a base register and a displacement, no SIB byte (rm is not 100b; with no displacement, not 101b) -/
  | plain (rm : BitVec 3) (disp : Disp)
  /-- mod = 00b, rm = 101b: disp32 alone in M32, RIP-relative in M64 -/
  | disp32 (d : BitVec 32)
  /-- a SIB byte with a base register (with no displacement, base is not 101b) -/
  | sib (ss : BitVec 2) (index base : BitVec 3) (disp : Disp)
  /-- mod = 00b and SIB base = 101b: no base register, a 4-byte displacement -/
  | sibNoBase (ss : BitVec 2) (index : BitVec 3) (d : BitVec 32)
  /-- 16-bit addressing (with no displacement, rm is not 110b) -/
  | mem16 (rm : BitVec 3) (disp : Disp16)
  /-- 16-bit addressing, mod = 00b and rm = 110b: disp16 alone -/
  | abs16 (d : BitVec 16)
deriving DecidableEq, Repr

/-- ModRM and what follows it: the reg field and the r/m operand (30_encoding.md R99). -/
structure ModRM where
  reg : BitVec 3
  rm : RmForm
deriving DecidableEq, Repr

/-- The free fields of a two-byte VEX prefix; `vvvv` as stored (30_encoding.md R94). -/
structure Vex2 where
  r : Bool
  vvvv : BitVec 4
  l : Bool
deriving DecidableEq, Repr

/-- The free fields of a three-byte VEX prefix; `vvvv` as stored, `w` the raw W bit (30_encoding.md R95). -/
structure Vex3 where
  r : Bool
  x : Bool
  b : Bool
  w : Bool
  vvvv : BitVec 4
  l : Bool
deriving DecidableEq, Repr

/-- The free fields of an EVEX prefix; `r'` is the logical R', `vvvv` and `vBar'` are as stored, `w` is the raw W bit,
`ll` is L'L, `bc` the bit the spec calls b of P2 (30_encoding.md R97). -/
structure Evex where
  r : Bool
  x : Bool
  b : Bool
  r' : Bool
  w : Bool
  vvvv : BitVec 4
  z : Bool
  ll : BitVec 2
  bc : Bool
  vBar' : Bool
  aaa : BitVec 3
deriving DecidableEq, Repr

/-- The instructions of the group (30_encoding.md R80). -/
inductive Instr where
  /-- row 1, MOVD mm, r/m32 -/
  | movdMmRm32 (pre : List PrefixItem) (m : ModRM)
  /-- row 2, MOVQ mm, r/m64 -/
  | movqMmRm64 (pre : List PrefixItem) (m : ModRM)
  /-- row 3, MOVD r/m32, mm -/
  | movdRm32Mm (pre : List PrefixItem) (m : ModRM)
  /-- row 4, MOVQ r/m64, mm -/
  | movqRm64Mm (pre : List PrefixItem) (m : ModRM)
  /-- row 5, MOVD xmm, r/m32 -/
  | movdXmmRm32 (pre : List PrefixItem) (m : ModRM)
  /-- row 6, MOVQ xmm, r/m64 -/
  | movqXmmRm64 (pre : List PrefixItem) (m : ModRM)
  /-- row 7, MOVD r/m32, xmm -/
  | movdRm32Xmm (pre : List PrefixItem) (m : ModRM)
  /-- row 8, MOVQ r/m64, xmm -/
  | movqRm64Xmm (pre : List PrefixItem) (m : ModRM)
  /-- row 9, VMOVD xmm1, r32/m32, three-byte VEX -/
  | vmovdXmmRm32C4 (pre : List PrefixItem) (v : Vex3) (m : ModRM)
  /-- row 9, VMOVD xmm1, r32/m32, two-byte VEX -/
  | vmovdXmmRm32C5 (pre : List PrefixItem) (v : Vex2) (m : ModRM)
  /-- row 10, VMOVQ xmm1, r64/m64, VEX -/
  | vmovqXmmRm64Vex (pre : List PrefixItem) (v : Vex3) (m : ModRM)
  /-- row 11, VMOVD r32/m32, xmm1, three-byte VEX -/
  | vmovdRm32XmmC4 (pre : List PrefixItem) (v : Vex3) (m : ModRM)
  /-- row 11, VMOVD r32/m32, xmm1, two-byte VEX -/
  | vmovdRm32XmmC5 (pre : List PrefixItem) (v : Vex2) (m : ModRM)
  /-- row 12, VMOVQ r64/m64, xmm1, VEX -/
  | vmovqRm64XmmVex (pre : List PrefixItem) (v : Vex3) (m : ModRM)
  /-- row 13, VMOVD xmm1, r32/m32, EVEX -/
  | vmovdXmmRm32Evex (pre : List PrefixItem) (e : Evex) (m : ModRM)
  /-- row 14, VMOVQ xmm1, r64/m64, EVEX -/
  | vmovqXmmRm64Evex (pre : List PrefixItem) (e : Evex) (m : ModRM)
  /-- row 15, VMOVD r32/m32, xmm1, EVEX -/
  | vmovdRm32XmmEvex (pre : List PrefixItem) (e : Evex) (m : ModRM)
  /-- row 16, VMOVQ r64/m64, xmm1, EVEX -/
  | vmovqRm64XmmEvex (pre : List PrefixItem) (e : Evex) (m : ModRM)
deriving DecidableEq, Repr

end Sys2Proof
end

