-- ==== Sys2Proof/Decode.lean ====
section
/-! DEFINITION. The decoder, total on any list of bytes, and after it the encoder, both from 30_encoding.md; with what
they and the machine read off the prefix bytes. -/

namespace Sys2Proof

/-! ## Prefix bytes (R85 to R91) -/

/-- The prefix byte (R85, R91). -/
def PrefixItem.byte : PrefixItem → Byte
  | .lock => 0xF0
  | .repne => 0xF2
  | .rep => 0xF3
  | .seg .cs => 0x2E
  | .seg .ss => 0x36
  | .seg .ds => 0x3E
  | .seg .es => 0x26
  | .seg .fs => 0x64
  | .seg .gs => 0x65
  | .opSize => 0x66
  | .addrSize => 0x67
  | .rex r => 4#4 ++ BitVec.ofBool r.w ++ BitVec.ofBool r.r ++ BitVec.ofBool r.x ++ BitVec.ofBool r.b

/-- What a byte is as a prefix: 40 to 4F are REX bytes in M64 and no prefix in M32 (R85). -/
def prefixOf (mode : Mode) (b : Byte) : Option PrefixItem :=
  if b = 0xF0 then some .lock
  else if b = 0xF2 then some .repne
  else if b = 0xF3 then some .rep
  else if b = 0x2E then some (.seg .cs)
  else if b = 0x36 then some (.seg .ss)
  else if b = 0x3E then some (.seg .ds)
  else if b = 0x26 then some (.seg .es)
  else if b = 0x64 then some (.seg .fs)
  else if b = 0x65 then some (.seg .gs)
  else if b = 0x66 then some .opSize
  else if b = 0x67 then some .addrSize
  else if mode = .m64 ∧ b.extractLsb' 4 4 = 4#4 then
    some (.rex ⟨b.getLsbD 3, b.getLsbD 2, b.getLsbD 1, b.getLsbD 0⟩)
  else none

/-- The prefix bytes an instruction starts with, in any order and number (R85), and the bytes after them. -/
def splitPrefixes (mode : Mode) : List Byte → List PrefixItem × List Byte
  | [] => ([], [])
  | b :: bs =>
    match prefixOf mode b with
    | some p => (p :: (splitPrefixes mode bs).1, (splitPrefixes mode bs).2)
    | none => ([], b :: bs)

/-- The REX byte in effect: the one directly before the first opcode byte; any other counts as absent (R91). -/
def effectiveRex (pre : List PrefixItem) : Rex :=
  match pre.getLast? with
  | some (.rex r) => r
  | _ => ⟨false, false, false, false⟩

/-- An F0 byte is among the prefixes (R90). -/
def hasLock (pre : List PrefixItem) : Bool := pre.contains .lock

/-- A 66 byte is among the prefixes; a repeated one counts once (R86). -/
def hasOpSize (pre : List PrefixItem) : Bool := pre.contains .opSize

/-- An F2 or F3 byte is among the prefixes (R86). -/
def hasRep (pre : List PrefixItem) : Bool := pre.contains .repne || pre.contains .rep

/-- A 67 byte is among the prefixes (R88). -/
def hasAddrSize (pre : List PrefixItem) : Bool := pre.contains .addrSize

/-- The item is a REX byte. -/
def PrefixItem.isRex : PrefixItem → Bool
  | .rex _ => true
  | _ => false

/-- A byte that may not stand before a VEX or EVEX prefix: 66, F2, F3, F0 or any REX byte (R122; log 16). -/
def PrefixItem.forbiddenBeforeVex : PrefixItem → Bool
  | .seg _ => false
  | .addrSize => false
  | _ => true

/-- Some prefix byte may not stand before a VEX or EVEX prefix (R122). -/
def badVexPrefix (pre : List PrefixItem) : Bool := pre.any PrefixItem.forbiddenBeforeVex

/-- The segment named by the last segment-override prefix, if there is one (R87). -/
def lastOverride : List PrefixItem → Option Seg
  | [] => none
  | p :: ps =>
    match lastOverride ps, p with
    | some s, _ => some s
    | none, .seg s => some s
    | none, _ => none

/-- The address size of an instruction (R88). -/
inductive AddrSize where
  | a16
  | a32
  | a64
deriving DecidableEq, Repr

/-- Address size from the mode, the code segment's default and the 67 prefix (R88). -/
def addrSize (cm : CodeMode) (pre : List PrefixItem) : AddrSize :=
  match cm.mode, cm.codeDefault16, hasAddrSize pre with
  | .m64, _, false => .a64
  | .m64, _, true => .a32
  | .m32, false, false => .a32
  | .m32, false, true => .a16
  | .m32, true, false => .a16
  | .m32, true, true => .a32

/-! ## ModRM, SIB, displacement (R99 to R103) -/

/-- A 16-bit displacement, low byte first (20_memory.md R51). -/
def le16 (b0 b1 : Byte) : BitVec 16 := b1 ++ b0

/-- A 32-bit displacement, low byte first (20_memory.md R51). -/
def le32 (b0 b1 b2 b3 : Byte) : BitVec 32 := b3 ++ b2 ++ b1 ++ b0

/-- The displacement that mod = 00b, 01b or 10b calls for (R100, R101). -/
def parseDisp (mod : BitVec 2) (bs : List Byte) : Option (Disp × List Byte) :=
  if mod = 0 then some (.none, bs)
  else if mod = 1 then
    match bs with
    | d :: r => some (.d8 d, r)
    | _ => none
  else
    match bs with
    | d0 :: d1 :: d2 :: d3 :: r => some (.d32 (le32 d0 d1 d2 d3), r)
    | _ => none

/-- The displacement of a 16-bit address (R102). -/
def parseDisp16 (mod : BitVec 2) (bs : List Byte) : Option (Disp16 × List Byte) :=
  if mod = 0 then some (.none, bs)
  else if mod = 1 then
    match bs with
    | d :: r => some (.d8 d, r)
    | _ => none
  else
    match bs with
    | d0 :: d1 :: r => some (.d16 (le16 d0 d1), r)
    | _ => none

/-- A 4-byte displacement that stands alone (R100, R101). -/
def parseDisp32 (bs : List Byte) : Option (BitVec 32 × List Byte) :=
  match bs with
  | d0 :: d1 :: d2 :: d3 :: r => some (le32 d0 d1 d2 d3, r)
  | _ => none

/-- A memory operand with 16-bit addressing (R102). -/
def parseMem16 (mod : BitVec 2) (rm : BitVec 3) (bs : List Byte) : Option (RmForm × List Byte) :=
  if mod = 0 ∧ rm = 6 then
    match bs with
    | d0 :: d1 :: r => some (.abs16 (le16 d0 d1), r)
    | _ => none
  else (parseDisp16 mod bs).map fun d => (.mem16 rm d.1, d.2)

/-- The SIB byte and its displacement (R101). -/
def parseSib (mod : BitVec 2) (bs : List Byte) : Option (RmForm × List Byte) :=
  match bs with
  | [] => none
  | s :: bs =>
    if mod = 0 ∧ s.extractLsb' 0 3 = 5#3 then
      (parseDisp32 bs).map fun d => (.sibNoBase (s.extractLsb' 6 2) (s.extractLsb' 3 3) d.1, d.2)
    else
      (parseDisp mod bs).map fun d =>
        (.sib (s.extractLsb' 6 2) (s.extractLsb' 3 3) (s.extractLsb' 0 3) d.1, d.2)

/-- A memory operand with 32- or 64-bit addressing (R100, R101). -/
def parseMem (mod : BitVec 2) (rm : BitVec 3) (bs : List Byte) : Option (RmForm × List Byte) :=
  if rm = 4 then parseSib mod bs
  else if mod = 0 ∧ rm = 5 then (parseDisp32 bs).map fun d => (.disp32 d.1, d.2)
  else (parseDisp mod bs).map fun d => (.plain rm d.1, d.2)

/-- The ModRM:r/m operand that mod and rm call for (R99). Under a VEX or EVEX prefix a 16-bit address size takes the
layout of R102 too, which the spec gives for format LEG only; such an instruction never runs (R88), but its length
depends on it (DESIGN CHOICE, log 69). -/
def parseRm (a : AddrSize) (mod : BitVec 2) (rm : BitVec 3) (bs : List Byte) : Option (RmForm × List Byte) :=
  if mod = 3 then some (.direct rm, bs)
  else if a = .a16 then parseMem16 mod rm bs
  else parseMem mod rm bs

/-- The ModRM byte and what it calls for; `none` when the bytes run out (R99). -/
def parseModRM (a : AddrSize) (bs : List Byte) : Option (ModRM × List Byte) :=
  match bs with
  | [] => none
  | b :: bs =>
    (parseRm a (b.extractLsb' 6 2) (b.extractLsb' 0 3) bs).map fun d => (⟨b.extractLsb' 3 3, d.1⟩, d.2)

/-! ## The decoder (R84, R110 to R113, R118) -/

/-- Why bytes are not an instruction of the group; the spec gives them no meaning. -/
inductive DecodeError where
  /-- another instruction, or an undefined opcode (R96, R98, R112, R113, R123, R124) -/
  | otherInstruction
  /-- F2 or F3 before `0F 6E` or `0F 7E` (R86, D14) -/
  | repPrefix
  /-- 62 with P0 bits 3:0 not 0001b or P1 bit 2 clear (R97, D13 (e)) -/
  | evexForm
deriving DecidableEq, Repr

/-- The decoder's answers: an instruction and the bytes after it, not of the group, or more bytes needed. -/
inductive DecodeResult where
  | ok (i : Instr) (rest : List Byte)
  | reject (e : DecodeError)
  | truncated
deriving DecidableEq, Repr

/-- The direction an opcode byte gives: 6E to the MMX or XMM register, 7E from it (R83). -/
inductive Dir where
  | toReg
  | toRm
deriving DecidableEq, Repr

/-- The opcode byte's direction; no other opcode is of the group (R83). -/
def opcodeDir (b : Byte) : Option Dir :=
  if b = 0x6E then some .toReg else if b = 0x7E then some .toRm else none

/-- Read the ModRM part and build the instruction. -/
def finish (cm : CodeMode) (pre : List PrefixItem) (bs : List Byte) (k : ModRM → Instr) : DecodeResult :=
  match parseModRM (addrSize cm pre) bs with
  | some (m, rest) => .ok (k m) rest
  | none => .truncated

/-- Rows 1 to 8, by the direction, the 66 prefix and the effective REX.W (R86, R92, R110, R111). -/
def legacyRow (pre : List PrefixItem) (dir : Dir) : ModRM → Instr :=
  match dir, hasOpSize pre, (effectiveRex pre).w with
  | .toReg, false, false => .movdMmRm32 pre
  | .toReg, false, true => .movqMmRm64 pre
  | .toRm, false, false => .movdRm32Mm pre
  | .toRm, false, true => .movqRm64Mm pre
  | .toReg, true, false => .movdXmmRm32 pre
  | .toReg, true, true => .movqXmmRm64 pre
  | .toRm, true, false => .movdRm32Xmm pre
  | .toRm, true, true => .movqRm64Xmm pre

/-- Rows 9 and 11 from a two-byte VEX prefix (R94, R112). -/
def vex2Row (pre : List PrefixItem) (v : Vex2) : Dir → ModRM → Instr
  | .toReg => .vmovdXmmRm32C5 pre v
  | .toRm => .vmovdRm32XmmC5 pre v

/-- Rows 9 to 12 from a three-byte VEX prefix; in M32 the W bit is ignored (R112, R118). -/
def vex3Row (mode : Mode) (pre : List PrefixItem) (v : Vex3) (dir : Dir) : ModRM → Instr :=
  match mode, v.w, dir with
  | .m64, true, .toReg => .vmovqXmmRm64Vex pre v
  | .m64, true, .toRm => .vmovqRm64XmmVex pre v
  | _, _, .toReg => .vmovdXmmRm32C4 pre v
  | _, _, .toRm => .vmovdRm32XmmC4 pre v

/-- Rows 13 to 16; in M32 the W bit is ignored (R113, R118). -/
def evexRow (mode : Mode) (pre : List PrefixItem) (e : Evex) (dir : Dir) : ModRM → Instr :=
  match mode, e.w, dir with
  | .m64, true, .toReg => .vmovqXmmRm64Evex pre e
  | .m64, true, .toRm => .vmovqRm64XmmEvex pre e
  | _, _, .toReg => .vmovdXmmRm32Evex pre e
  | _, _, .toRm => .vmovdRm32XmmEvex pre e

/-- Format LEG after the byte 0F (R84, R86). -/
def decodeLegacy (cm : CodeMode) (pre : List PrefixItem) : List Byte → DecodeResult
  | [] => .truncated
  | op :: bs =>
    match opcodeDir op with
    | none => .reject .otherInstruction
    | some dir => if hasRep pre then .reject .repPrefix else finish cm pre bs (legacyRow pre dir)

/-- In M32 C4, C5 and 62 begin a VEX or EVEX prefix only when bits 7:6 of the next byte are 11b (R96, R98). -/
def opensVex (mode : Mode) (next : Byte) : Bool := mode = .m64 || next.extractLsb' 6 2 = 3#2

/-- The fields of the second byte of a two-byte VEX prefix (R94). -/
def Vex2.ofByte (b1 : Byte) : Vex2 := ⟨!b1.getLsbD 7, b1.extractLsb' 3 4, b1.getLsbD 2⟩

/-- The fields of the second and third bytes of a three-byte VEX prefix (R95). -/
def Vex3.ofBytes (b1 b2 : Byte) : Vex3 :=
  ⟨!b1.getLsbD 7, !b1.getLsbD 6, !b1.getLsbD 5, b2.getLsbD 7, b2.extractLsb' 3 4, b2.getLsbD 2⟩

/-- The fields of the three payload bytes of an EVEX prefix (R97). -/
def Evex.ofBytes (p0 p1 p2 : Byte) : Evex :=
  ⟨!p0.getLsbD 7, !p0.getLsbD 6, !p0.getLsbD 5, !p0.getLsbD 4, p1.getLsbD 7, p1.extractLsb' 3 4, p2.getLsbD 7,
    p2.extractLsb' 5 2, p2.getLsbD 4, p2.getLsbD 3, p2.extractLsb' 0 3⟩

/-- Format VEX after the byte C5 (R94, R96, R112). -/
def decodeVex2 (cm : CodeMode) (pre : List PrefixItem) : List Byte → DecodeResult
  | [] => .truncated
  | b1 :: bs =>
    if !opensVex cm.mode b1 then .reject .otherInstruction
    else match bs with
    | [] => .truncated
    | op :: bs =>
      if b1.extractLsb' 0 2 ≠ 1#2 then .reject .otherInstruction
      else match opcodeDir op with
      | none => .reject .otherInstruction
      | some dir => finish cm pre bs (vex2Row pre (Vex2.ofByte b1) dir)

/-- Format VEX after the byte C4 (R95, R96, R112). -/
def decodeVex3 (cm : CodeMode) (pre : List PrefixItem) : List Byte → DecodeResult
  | [] => .truncated
  | b1 :: bs =>
    if !opensVex cm.mode b1 then .reject .otherInstruction
    else match bs with
    | b2 :: op :: bs =>
      if b1.extractLsb' 0 5 ≠ 1#5 ∨ b2.extractLsb' 0 2 ≠ 1#2 then .reject .otherInstruction
      else match opcodeDir op with
      | none => .reject .otherInstruction
      | some dir => finish cm pre bs (vex3Row cm.mode pre (Vex3.ofBytes b1 b2) dir)
    | _ => .truncated

/-- Format EVEX after the byte 62 (R97, R98, R113). A bad P0 or P1 is no encoding of the group whatever the length, so it
is rejected here and never reaches the length check of R174 (log 13). -/
def decodeEvex (cm : CodeMode) (pre : List PrefixItem) : List Byte → DecodeResult
  | [] => .truncated
  | p0 :: bs =>
    if !opensVex cm.mode p0 then .reject .otherInstruction
    else match bs with
    | p1 :: p2 :: op :: bs =>
      if p0.extractLsb' 0 4 ≠ 1#4 ∨ p1.getLsbD 2 = false then .reject .evexForm
      else if p1.extractLsb' 0 2 ≠ 1#2 then .reject .otherInstruction
      else match opcodeDir op with
      | none => .reject .otherInstruction
      | some dir => finish cm pre bs (evexRow cm.mode pre (Evex.ofBytes p0 p1 p2) dir)
    | _ => .truncated

/-- The three formats, by the first byte after the prefixes (R84). -/
def decodeBody (cm : CodeMode) (pre : List PrefixItem) : List Byte → DecodeResult
  | [] => .truncated
  | b :: bs =>
    if b = 0x0F then decodeLegacy cm pre bs
    else if b = 0xC5 then decodeVex2 cm pre bs
    else if b = 0xC4 then decodeVex3 cm pre bs
    else if b = 0x62 then decodeEvex cm pre bs
    else .reject .otherInstruction

/-- The decoder: bytes in fetch order, the first prefix byte first (20_memory.md R51). -/
def decode (cm : CodeMode) (bytes : List Byte) : DecodeResult :=
  decodeBody cm (splitPrefixes cm.mode bytes).1 (splitPrefixes cm.mode bytes).2

/-! ## The encoder -/

/-- The bytes of a 16-bit displacement, low byte first. -/
def bytes16 (d : BitVec 16) : List Byte := [d.extractLsb' 0 8, d.extractLsb' 8 8]

/-- The bytes of a 32-bit displacement, low byte first. -/
def bytes32 (d : BitVec 32) : List Byte :=
  [d.extractLsb' 0 8, d.extractLsb' 8 8, d.extractLsb' 16 8, d.extractLsb' 24 8]

/-- The mod field a displacement takes (R100). -/
def Disp.mod : Disp → BitVec 2
  | .none => 0
  | .d8 _ => 1
  | .d32 _ => 2

def Disp.bytes : Disp → List Byte
  | .none => []
  | .d8 d => [d]
  | .d32 d => bytes32 d

/-- The mod field a 16-bit address's displacement takes (R102). -/
def Disp16.mod : Disp16 → BitVec 2
  | .none => 0
  | .d8 _ => 1
  | .d16 _ => 2

def Disp16.bytes : Disp16 → List Byte
  | .none => []
  | .d8 d => [d]
  | .d16 d => bytes16 d

/-- A ModRM byte from mod, reg and rm, or a SIB byte from ss, index and base (R99, R101). -/
def fieldByte (hi : BitVec 2) (mid lo : BitVec 3) : Byte := hi ++ mid ++ lo

/-- The bytes from the ModRM byte on (R99 to R102). -/
def ModRM.bytes (m : ModRM) : List Byte :=
  match m.rm with
  | .direct rm => [fieldByte 3 m.reg rm]
  | .plain rm d => fieldByte d.mod m.reg rm :: d.bytes
  | .disp32 d => fieldByte 0 m.reg 5 :: bytes32 d
  | .sib ss index base d => fieldByte d.mod m.reg 4 :: fieldByte ss index base :: d.bytes
  | .sibNoBase ss index d => fieldByte 0 m.reg 4 :: fieldByte ss index 5 :: bytes32 d
  | .mem16 rm d => fieldByte d.mod m.reg rm :: d.bytes
  | .abs16 d => fieldByte 0 m.reg 6 :: bytes16 d

/-- The second byte of a two-byte VEX prefix with pp = 01b (R94). -/
def Vex2.b1 (v : Vex2) : Byte := BitVec.ofBool (!v.r) ++ v.vvvv ++ BitVec.ofBool v.l ++ 1#2

/-- The second byte of a three-byte VEX prefix with map = 00001b (R95). -/
def Vex3.b1 (v : Vex3) : Byte := BitVec.ofBool (!v.r) ++ BitVec.ofBool (!v.x) ++ BitVec.ofBool (!v.b) ++ 1#5

/-- The third byte of a three-byte VEX prefix with pp = 01b (R95). -/
def Vex3.b2 (v : Vex3) : Byte := BitVec.ofBool v.w ++ v.vvvv ++ BitVec.ofBool v.l ++ 1#2

/-- P0 of an EVEX prefix, bits 3:0 = 0001b (R97). -/
def Evex.p0 (e : Evex) : Byte :=
  BitVec.ofBool (!e.r) ++ BitVec.ofBool (!e.x) ++ BitVec.ofBool (!e.b) ++ BitVec.ofBool (!e.r') ++ 1#4

/-- P1 of an EVEX prefix, bit 2 = 1 and pp = 01b (R97). -/
def Evex.p1 (e : Evex) : Byte := BitVec.ofBool e.w ++ e.vvvv ++ 5#3

/-- P2 of an EVEX prefix (R97). -/
def Evex.p2 (e : Evex) : Byte :=
  BitVec.ofBool e.z ++ e.ll ++ BitVec.ofBool e.bc ++ BitVec.ofBool e.vBar' ++ e.aaa

/-- The prefix bytes, in order. -/
def prefixBytes (pre : List PrefixItem) : List Byte := pre.map PrefixItem.byte

/-- Format LEG (R84). -/
def encodeLegacy (pre : List PrefixItem) (op : Byte) (m : ModRM) : List Byte :=
  prefixBytes pre ++ 0x0F :: op :: m.bytes

/-- Format VEX, two-byte prefix (R84, R94). -/
def encodeVex2 (pre : List PrefixItem) (v : Vex2) (op : Byte) (m : ModRM) : List Byte :=
  prefixBytes pre ++ 0xC5 :: v.b1 :: op :: m.bytes

/-- Format VEX, three-byte prefix (R84, R95). -/
def encodeVex3 (pre : List PrefixItem) (v : Vex3) (op : Byte) (m : ModRM) : List Byte :=
  prefixBytes pre ++ 0xC4 :: v.b1 :: v.b2 :: op :: m.bytes

/-- Format EVEX (R84, R97). -/
def encodeEvex (pre : List PrefixItem) (e : Evex) (op : Byte) (m : ModRM) : List Byte :=
  prefixBytes pre ++ 0x62 :: e.p0 :: e.p1 :: e.p2 :: op :: m.bytes

/-- The bytes of an instruction, in fetch order (R80, R84). -/
def encode : Instr → List Byte
  | .movdMmRm32 pre m => encodeLegacy pre 0x6E m
  | .movqMmRm64 pre m => encodeLegacy pre 0x6E m
  | .movdRm32Mm pre m => encodeLegacy pre 0x7E m
  | .movqRm64Mm pre m => encodeLegacy pre 0x7E m
  | .movdXmmRm32 pre m => encodeLegacy pre 0x6E m
  | .movqXmmRm64 pre m => encodeLegacy pre 0x6E m
  | .movdRm32Xmm pre m => encodeLegacy pre 0x7E m
  | .movqRm64Xmm pre m => encodeLegacy pre 0x7E m
  | .vmovdXmmRm32C4 pre v m => encodeVex3 pre v 0x6E m
  | .vmovdXmmRm32C5 pre v m => encodeVex2 pre v 0x6E m
  | .vmovqXmmRm64Vex pre v m => encodeVex3 pre v 0x6E m
  | .vmovdRm32XmmC4 pre v m => encodeVex3 pre v 0x7E m
  | .vmovdRm32XmmC5 pre v m => encodeVex2 pre v 0x7E m
  | .vmovqRm64XmmVex pre v m => encodeVex3 pre v 0x7E m
  | .vmovdXmmRm32Evex pre e m => encodeEvex pre e 0x6E m
  | .vmovqXmmRm64Evex pre e m => encodeEvex pre e 0x6E m
  | .vmovdRm32XmmEvex pre e m => encodeEvex pre e 0x7E m
  | .vmovqRm64XmmEvex pre e m => encodeEvex pre e 0x7E m

/-! ## Lengths (R84) -/

def Disp.size : Disp → Nat
  | .none => 0
  | .d8 _ => 1
  | .d32 _ => 4

def Disp16.size : Disp16 → Nat
  | .none => 0
  | .d8 _ => 1
  | .d16 _ => 2

/-- Bytes of ModRM, SIB and displacement (R84). -/
def ModRM.size (m : ModRM) : Nat :=
  match m.rm with
  | .direct _ => 1
  | .plain _ d => 1 + d.size
  | .disp32 _ => 5
  | .sib _ _ _ d => 2 + d.size
  | .sibNoBase _ _ _ => 6
  | .mem16 _ d => 1 + d.size
  | .abs16 _ => 3

/-- `ilen` of format LEG: prefixes (an effective REX among them), two opcode bytes, ModRM on (R84). -/
def legLen (pre : List PrefixItem) (m : ModRM) : Nat := pre.length + 2 + m.size

/-- `ilen` of format VEX with a two-byte prefix (R84). -/
def vex2Len (pre : List PrefixItem) (m : ModRM) : Nat := pre.length + 2 + 1 + m.size

/-- `ilen` of format VEX with a three-byte prefix (R84). -/
def vex3Len (pre : List PrefixItem) (m : ModRM) : Nat := pre.length + 3 + 1 + m.size

/-- `ilen` of format EVEX (R84). -/
def evexLen (pre : List PrefixItem) (m : ModRM) : Nat := pre.length + 4 + 1 + m.size

/-- `ilen`: the count of an instruction's bytes (R84). -/
def Instr.ilen : Instr → Nat
  | .movdMmRm32 pre m | .movqMmRm64 pre m | .movdRm32Mm pre m | .movqRm64Mm pre m
  | .movdXmmRm32 pre m | .movqXmmRm64 pre m | .movdRm32Xmm pre m | .movqRm64Xmm pre m => legLen pre m
  | .vmovdXmmRm32C5 pre _ m | .vmovdRm32XmmC5 pre _ m => vex2Len pre m
  | .vmovdXmmRm32C4 pre _ m | .vmovqXmmRm64Vex pre _ m
  | .vmovdRm32XmmC4 pre _ m | .vmovqRm64XmmVex pre _ m => vex3Len pre m
  | .vmovdXmmRm32Evex pre _ m | .vmovqXmmRm64Evex pre _ m
  | .vmovdRm32XmmEvex pre _ m | .vmovqRm64XmmEvex pre _ m => evexLen pre m

/-- The prefix bytes of an instruction. -/
def Instr.prefixes : Instr → List PrefixItem
  | .movdMmRm32 pre _ | .movqMmRm64 pre _ | .movdRm32Mm pre _ | .movqRm64Mm pre _
  | .movdXmmRm32 pre _ | .movqXmmRm64 pre _ | .movdRm32Xmm pre _ | .movqRm64Xmm pre _ => pre
  | .vmovdXmmRm32C5 pre _ _ | .vmovdRm32XmmC5 pre _ _ => pre
  | .vmovdXmmRm32C4 pre _ _ | .vmovqXmmRm64Vex pre _ _
  | .vmovdRm32XmmC4 pre _ _ | .vmovqRm64XmmVex pre _ _ => pre
  | .vmovdXmmRm32Evex pre _ _ | .vmovqXmmRm64Evex pre _ _
  | .vmovdRm32XmmEvex pre _ _ | .vmovqRm64XmmEvex pre _ _ => pre

/-- The ModRM part of an instruction. -/
def Instr.modrm : Instr → ModRM
  | .movdMmRm32 _ m | .movqMmRm64 _ m | .movdRm32Mm _ m | .movqRm64Mm _ m
  | .movdXmmRm32 _ m | .movqXmmRm64 _ m | .movdRm32Xmm _ m | .movqRm64Xmm _ m => m
  | .vmovdXmmRm32C5 _ _ m | .vmovdRm32XmmC5 _ _ m => m
  | .vmovdXmmRm32C4 _ _ m | .vmovqXmmRm64Vex _ _ m
  | .vmovdRm32XmmC4 _ _ m | .vmovqRm64XmmVex _ _ m => m
  | .vmovdXmmRm32Evex _ _ m | .vmovqXmmRm64Evex _ _ m
  | .vmovdRm32XmmEvex _ _ m | .vmovqRm64XmmEvex _ _ m => m

/-! ## The host's word form -/

/-- The most bytes an instruction may have (R84, 60_exceptions.md R174). -/
def maxIlen : Nat := 15

/-- The bytes of an instruction given as a number whose bit 0 is bit 0 of the first byte, `nbits` bits of it, zeros
above, out to the longest instruction. -/
def tableBytes (nbits w : Nat) : List Byte :=
  (List.range maxIlen).map fun k => if 8 * k < nbits then BitVec.ofNat 8 (w >>> (8 * k)) else 0

/-- The instruction the decoder reads, in 64-bit mode, from an instruction word of spec/opcode_table.json. -/
def decodeTableWord (nbits w : Nat) : Option Instr :=
  match decode ⟨.m64, false⟩ (tableBytes nbits w) with
  | .ok i _ => some i
  | _ => none

end Sys2Proof
end

