-- ==== Sys2Proof/Machine/State.lean ====
section
/-! DEFINITION. The state of the machine as plain data, its stops, and its state after reset (10_state.md). The
parameters of 00_scope.md R5 stand in it too: they are constant over a run and no instruction writes them. -/

namespace Sys2Proof.Machine

/-- Memory: the bytes that differ from what an unlisted address reads as, by rising linear address (10_state.md R38;
the canonical form is `Memory.wf`). -/
abbrev Memory := List Host.Cell

/-- The hidden part of a segment register (10_state.md R37): its base; in M32 its limit (the last offset inside) and
access rights (20_memory.md R59). In M64 only the bases of FS and GS are used. -/
structure SegCache where
  base : Word64
  limit : Word32
  readable : Bool
  writable : Bool
deriving DecidableEq, Repr

/-- The six segment registers (10_state.md R37). -/
structure SegFile where
  es : SegCache
  cs : SegCache
  ss : SegCache
  ds : SegCache
  fs : SegCache
  gs : SegCache
deriving DecidableEq, Repr

/-- The instruction addresses the run's program occupies: `start` to `start + size - 1` (70_reset_and_hazards.md R224).
The program is a parameter of a run: no instruction changes it, and a store into it is refused (20_memory.md R70). -/
structure Program where
  start : Word64
  size : Nat
deriving DecidableEq, Repr

/-- The state of the machine. -/
structure State where
  /-- general-purpose registers; in M32 eight of 32 bits, kept zero-extended (10_state.md R20, R21; log 17) -/
  gpr : Vector Word64 16
  /-- x87 data registers by physical number; `mm[i]` is bits 63:0 of number i (10_state.md R29, R31) -/
  x87 : Vector (BitVec 80) 8
  /-- x87 top of stack, status word bits 13:11 (10_state.md R31) -/
  x87Top : BitVec 3
  /-- x87 tag word, eight fields of two bits, 00b is valid (10_state.md R31) -/
  x87Tags : BitVec 16
  /-- an unmasked x87 exception is pending (00_scope.md R5) -/
  x87Pending : Bool
  /-- vector registers; the bits at and above MAXVL are zero (10_state.md R26; log 18) -/
  vec : Vector VecWord 32
  /-- SSE control and status (10_state.md R32, R40) -/
  mxcsr : Word32
  /-- flags (10_state.md R32, R40) -/
  eflags : Word32
  /-- instruction pointer; EIP zero-extended in M32 (10_state.md R33) -/
  rip : Word64
  /-- 64-bit mode or not (00_scope.md R5) -/
  mode : Mode
  /-- real-address or virtual-8086 mode; read only in M32 (00_scope.md R5) -/
  realOrV86 : Bool
  /-- the code segment's default is 16 bits; read only in M32 (00_scope.md R5) -/
  codeDefault16 : Bool
  /-- control register 0 (10_state.md R35) -/
  cr0 : Word32
  /-- control register 4 (10_state.md R35) -/
  cr4 : Word32
  /-- extended control register 0 (10_state.md R35) -/
  xcr0 : Word64
  /-- current privilege level (10_state.md R35, R40) -/
  cpl : BitVec 2
  /-- segment registers' hidden parts (10_state.md R37) -/
  segs : SegFile
  /-- memory (10_state.md R38) -/
  mem : Memory
  /-- the program's place (20_memory.md R70) -/
  program : Program
  /-- processor and platform parameters (00_scope.md R5) -/
  plat : Platform
deriving DecidableEq, Repr

/-- The exceptions of 60_exceptions.md R182; every one is a fault, precise, with nothing written (R186). Each carries
`savedIp`, the address of the faulting instruction. A step that answers one has no next state because the spec stops at
this outcome (R187, D16). Safe: the model stops where the chip goes on to a handler. -/
inductive Fault where
  /-- #UD: the gates of R175 to R180, R155, R165 and 30_encoding.md R121, R122; safe -/
  | ud (savedIp : Word64)
  /-- #NM: the gates of R177 to R180; safe -/
  | nm (savedIp : Word64)
  /-- #SS(0): a memory operand (R181); safe -/
  | ss (savedIp : Word64)
  /-- #GP(0): a memory operand (R181), or an instruction longer than 15 bytes (R174); safe -/
  | gp (savedIp : Word64)
  /-- #PF: a memory operand (R181), with the error code from the platform and the faulting linear address; safe -/
  | pf (savedIp : Word64) (code : Word32) (cr2 : Word64)
  /-- #MF: an MMX row with a pending x87 exception (R177); safe -/
  | mf (savedIp : Word64)
  /-- #AC(0): a misaligned memory operand under the alignment check (R181, 20_memory.md R56); safe -/
  | ac (savedIp : Word64)
deriving DecidableEq, Repr

/-- Runs the spec gives no meaning to ("Refusals, collected" of 92_eei_decisions.md), each under its own name. All are
safe: the model says nothing where the chip goes on. -/
inductive Refusal where
  /-- an instruction that has no meaning yet; exec's arm only -/
  | notModelled (mnemonic : String)
  /-- bytes that are not an instruction of the group; step (D13 (e), D14) -/
  | decode (e : DecodeError)
  /-- no program byte at the instruction pointer, or none where the instruction goes on; step (R224, D25) -/
  | endOfProgram
  /-- the instruction, or the pointer after it, passes the top of the address space, or its bytes cross a
  non-canonical boundary; step and every instruction (10_state.md R34, D24) -/
  | ipWrap
  /-- a REX.W row executed in M32, which no bytes decode to; rows 2, 4, 6, 8 (30_encoding.md R118, "N.E.") -/
  | notEncodable
  /-- a three-byte VEX prefix with B̄ = 0 in M32; rows 9 and 11 (30_encoding.md R96, D13 (a)) -/
  | vexB32
  /-- an EVEX P0 with B̄ = 0 or R̄' = 0 in M32; rows 13 and 15 (30_encoding.md R98, D13 (b)) -/
  | evexExt32
  /-- a VEX or EVEX format with a 16-bit address size; rows 9, 11, 13, 15 (30_encoding.md R88, D13 (c)) -/
  | vexAddr16
  /-- an EVEX format with mod = 11b and X̄ = 0; rows 13 to 16 (30_encoding.md R107, D13 (d)) -/
  | evexRegX
  /-- an EVEX format with W = 1 and mod = 01b in M32; rows 13 and 15 (30_encoding.md R104, D12) -/
  | evexDisp8W
  /-- a memory operand outside ordinary write-back memory; every row (20_memory.md R63, D7) -/
  | notWriteBack
  /-- a store that touches a program byte; the storing rows (20_memory.md R70, D20) -/
  | storeToProgram
deriving DecidableEq, Repr

/-- The answer of an operation that may stop: Host.Outcome with any result in the place of the state. -/
abbrev Res (α : Type) := Host.Outcome α Fault Refusal

/-- A segment register's hidden part after reset: base as given, limit and rights as the family has them
(PRESUMED, log 5). -/
def SegCache.reset (base : Word64) : SegCache := ⟨base, 0xFFFF, true, true⟩

/-- The processor and platform the model names for the state after reset: all four features, MAXVL 512, VA_BITS 48,
every access let through, to present write-back memory (DESIGN CHOICE, log 3). -/
def resetPlatform : Platform := ⟨true, true, true, true, .v512, .va48, [], []⟩

/-- The machine after power-up or RESET (10_state.md R40, 70_reset_and_hazards.md R211). EDX, memory, the segment
limits and rights, the platform and the program's place have the values logs 2, 3, 5, 6 and 7 name. -/
def State.reset : State where
  gpr := (Vector.replicate 16 0).set 2 0x600
  x87 := Vector.replicate 8 0
  x87Top := 0
  x87Tags := 0x5555
  x87Pending := false
  vec := Vector.replicate 32 0
  mxcsr := 0x1F80
  eflags := 0x2
  rip := 0xFFF0
  mode := .m32
  realOrV86 := true
  codeDefault16 := true
  cr0 := 0x60000010
  cr4 := 0
  xcr0 := 1
  cpl := 0
  segs :=
    { es := .reset 0, cs := .reset 0xFFFF0000, ss := .reset 0, ds := .reset 0, fs := .reset 0, gs := .reset 0 }
  mem := []
  program := ⟨0, 0⟩
  plat := resetPlatform

/-- The machine after an INIT: as after RESET, but the x87/MMX registers, the vector registers and MXCSR keep their
values (10_state.md R41); the memory, the program and the platform parameters stay too (log 20). -/
def State.afterInit (s : State) : State :=
  { State.reset with
    x87 := s.x87, x87Top := s.x87Top, x87Tags := s.x87Tags, x87Pending := s.x87Pending
    vec := s.vec, mxcsr := s.mxcsr
    mem := s.mem, program := s.program, plat := s.plat }

end Sys2Proof.Machine
end

