-- ==== Sys2Proof/Machine/Flags.lean ====
section
/-! DEFINITION. The flag and control bits the group reads (10_state.md R35). No instruction of the group computes or
writes a flag (10_state.md R32), so there is no flag computation; what is read is the alignment-check flag and the
bits that gate the families. -/

namespace Sys2Proof.Machine

/-- CR0.EM, bit 2 -/
def State.cr0EM (s : State) : Bool := s.cr0.getLsbD 2

/-- CR0.TS, bit 3 -/
def State.cr0TS (s : State) : Bool := s.cr0.getLsbD 3

/-- CR0.AM, bit 18 -/
def State.cr0AM (s : State) : Bool := s.cr0.getLsbD 18

/-- CR4.OSFXSR, bit 9 -/
def State.cr4OSFXSR (s : State) : Bool := s.cr4.getLsbD 9

/-- CR4.OSXSAVE, bit 18 -/
def State.cr4OSXSAVE (s : State) : Bool := s.cr4.getLsbD 18

/-- XCR0[2:1] = 11b: SSE and AVX state enabled -/
def State.xcr0Avx (s : State) : Bool := s.xcr0.getLsbD 1 && s.xcr0.getLsbD 2

/-- XCR0[7:5] = 111b: opmask, ZMM_Hi256 and Hi16_ZMM state enabled -/
def State.xcr0Avx512 (s : State) : Bool := s.xcr0.getLsbD 5 && s.xcr0.getLsbD 6 && s.xcr0.getLsbD 7

/-- EFLAGS.AC, bit 18 -/
def State.eflagsAC (s : State) : Bool := s.eflags.getLsbD 18

/-- `AlignCheck`: CR0.AM = 1, EFLAGS.AC = 1 and the privilege level is 3 (20_memory.md R56; log 22). -/
def State.alignCheck (s : State) : Bool := s.cr0AM && s.eflagsAC && s.cpl = 3

/-- `RealOrV86`, which is read only in M32 (00_scope.md R5). -/
def State.inRealOrV86 (s : State) : Bool := s.mode = .m32 && s.realOrV86

/-- What the decoder needs of the state (30_encoding.md R88). -/
def State.codeMode (s : State) : CodeMode := ⟨s.mode, s.codeDefault16⟩

end Sys2Proof.Machine
end

