-- ==== Sys2Proof/Machine/Ops.lean ====
section
/-! DEFINITION. The named operations over registers and memory, and taking an exception. -/

namespace Sys2Proof.Machine

/-- Go on with the result, or stop as the first operation stops. -/
def Res.bind {α β : Type} (x : Res α) (f : α → Res β) : Res β :=
  match x with
  | .next a => f a
  | .fault r => .fault r
  | .refused r => .refused r

/-! ## Exceptions (60_exceptions.md R182, R186) -/

/-- Taking an exception: the step ends in the fault, which records the address of the faulting instruction; nothing of
the instruction has been written, so the state stays the one before it. There is no delivery through a table and no
return: the spec stops at this outcome (R186, R187, R188, D16; log 9). -/
def raise {α : Type} (s : State) (x : Word64 → Fault) : Res α := .fault (x s.rip)

/-- The exception's vector number (R182). -/
def Fault.vector : Fault → Nat
  | .ud _ => 6
  | .nm _ => 7
  | .ss _ => 12
  | .gp _ => 13
  | .pf _ _ _ => 14
  | .mf _ => 16
  | .ac _ => 17

/-- The exception's error code; #UD, #NM and #MF have none (R182). -/
def Fault.errorCode : Fault → Option Word32
  | .ud _ | .nm _ | .mf _ => none
  | .ss _ | .gp _ | .ac _ => some 0
  | .pf _ code _ => some code

/-- The saved instruction pointer: the address of the faulting instruction (R182). -/
def Fault.savedIp : Fault → Word64
  | .ud a | .nm a | .ss a | .gp a | .pf a _ _ | .mf a | .ac a => a

/-! ## General-purpose registers (10_state.md R20 to R25) -/

/-- `gpr[n]`; in M32 the 32-bit value, zero-extended. -/
def readGpr (s : State) (n : BitVec 4) : Word64 := s.gpr[n.toNat]'n.isLt

/-- `gpr[n] <- v`. A 32-bit value zero-extended to 64 bits makes this GprWrite32 (R23). -/
def writeGpr (s : State) (n : BitVec 4) (v : Word64) : State := { s with gpr := s.gpr.set n.toNat v n.isLt }

/-! ## MMX and x87 registers (10_state.md R29 to R31) -/

/-- `mm[n]`: bits 63:0 of x87 data register n. -/
def readMm (s : State) (n : BitVec 3) : Word64 := (s.x87[n.toNat]'n.isLt).extractLsb' 0 64

/-- `mm[n] <- v`: bits 63:0 of x87 data register n. -/
def writeMm (s : State) (n : BitVec 3) (v : Word64) : State :=
  { s with x87 := s.x87.set n.toNat ((s.x87[n.toNat]'n.isLt).extractLsb' 64 16 ++ v) n.isLt }

/-- `MmxWrite(n)`: bits 79:64 of x87 data register n become all ones (R31). -/
def mmxWrite (s : State) (n : BitVec 3) : State :=
  { s with x87 := s.x87.set n.toNat (BitVec.allOnes 16 ++ readMm s n) n.isLt }

/-- `MmxTouch()`: top of stack 0, all eight tags 00b (R31). -/
def mmxTouch (s : State) : State := { s with x87Top := 0, x87Tags := 0 }

/-! ## Vector registers (10_state.md R26 to R28) -/

/-- `vec[n]`, its bits below MAXVL; `xmm[n]` is its low 128 bits. -/
def readVec (s : State) (n : BitVec 5) : VecWord := s.vec[n.toNat]'n.isLt

/-- The value with the bits at and above MAXVL cleared. -/
def maskVec (l : VecLen) (v : VecWord) : VecWord := (v.setWidth l.bits).setWidth 512

/-- `vec[n] <- v`: the register has MAXVL bits. -/
def writeVec (s : State) (n : BitVec 5) (v : VecWord) : State :=
  { s with vec := s.vec.set n.toNat (maskVec s.plat.maxvl v) n.isLt }

/-- The legacy SSE write of an XMM destination: bits 127:0 written, bits MAXVL-1:128 kept (10_state.md R27). -/
def writeXmmKeep (s : State) (n : BitVec 5) (v : BitVec 128) : State :=
  writeVec s n ((readVec s n).extractLsb' 128 384 ++ v)

/-- The VEX.128 and EVEX.128 write of an XMM destination: bits MAXVL-1:128 zeroed (10_state.md R27). -/
def writeXmmZero (s : State) (n : BitVec 5) (v : BitVec 128) : State := writeVec s n (v.setWidth 512)

/-! ## Instruction pointer (10_state.md R33, R34) -/

/-- `rip <- rip + ilen` -/
def advance (s : State) (ilen : Nat) : State := { s with rip := s.rip + BitVec.ofNat 64 ilen }

/-- Bits 63 down to VA_BITS-1 are all equal (20_memory.md R59). -/
def canonical (va : VaBits) (a : Word64) : Bool :=
  let top := a >>> (va.bits - 1)
  top = 0 || top = BitVec.allOnes 64 >>> (va.bits - 1)

/-- All `n` addresses from `a` on are canonical. -/
def canonicalSpan (va : VaBits) (a : Word64) (n : Nat) : Bool :=
  (List.range n).all fun k => canonical va (a + BitVec.ofNat 64 k)

/-- The last value the instruction pointer can hold: 2^64 - 1 in M64; in M32 the code segment's limit, which is at most
2^32 - 1 (10_state.md R34). -/
def ipTop (s : State) : Nat :=
  match s.mode with
  | .m64 => 2 ^ 64 - 1
  | .m32 => s.segs.cs.limit.toNat

/-- The pointer after the instruction does not pass the top of the address space, and in M64 the instruction's bytes
cross no canonical boundary (10_state.md R34; log 14). -/
def ipOk (s : State) (ilen : Nat) : Bool :=
  s.rip.toNat + ilen ≤ ipTop s && (s.mode = .m32 || canonicalSpan s.plat.vaBits s.rip ilen)

/-! ## Memory bytes (10_state.md R38) -/

/-- What an address that is not listed reads as (DESIGN CHOICE, log 6: the spec leaves memory after reset
unspecified). -/
def unlistedByte : Byte := 0

/-- The byte at an address. -/
def Memory.read (m : Memory) (a : Nat) : Byte :=
  match m with
  | [] => unlistedByte
  | c :: r => if c.1 = a then c.2 else Memory.read r a

/-- Forget an address. -/
def Memory.erase (m : Memory) (a : Nat) : Memory := m.filter fun c => c.1 ≠ a

/-- List an address that is not listed, in its place. -/
def Memory.insert (m : Memory) (a : Nat) (b : Byte) : Memory :=
  match m with
  | [] => [(a, b)]
  | c :: r => if a < c.1 then (a, b) :: c :: r else c :: Memory.insert r a b

/-- Write one byte; writing what an unlisted address reads as removes the entry. -/
def Memory.write (m : Memory) (a : Nat) (b : Byte) : Memory :=
  if b = unlistedByte then m.erase a else (m.erase a).insert a b

/-- Write a list of bytes, in order. -/
def Memory.writeAll (m : Memory) (cells : List Host.Cell) : Memory :=
  cells.foldl (fun m c => Memory.write m c.1 c.2) m

/-- The state with another memory. -/
def setMem (s : State) (m : Memory) : State := { s with mem := m }

/-- The canonical form: addresses strictly rising, no entry equal to what an unlisted address reads as. -/
def Memory.wf : Memory → Bool
  | [] => true
  | [c] => c.2 ≠ unlistedByte
  | c :: d :: r => c.2 ≠ unlistedByte && c.1 < d.1 && Memory.wf (d :: r)

/-! ## Linear addresses (20_memory.md R59) -/

/-- Byte `k` of the operand at linear address `la`: modulo 2^64 in M64, modulo 2^32 in M32 (log 11). -/
def byteAddr (mode : Mode) (la : Word64) (k : Nat) : Nat :=
  match mode with
  | .m64 => (la.toNat + k) % 2 ^ 64
  | .m32 => (la.toNat + k) % 2 ^ 32

/-- The segment register's hidden part. -/
def SegFile.get (f : SegFile) : Seg → SegCache
  | .es => f.es
  | .cs => f.cs
  | .ss => f.ss
  | .ds => f.ds
  | .fs => f.fs
  | .gs => f.gs

/-- `SegBase`: 0 in M64 for ES, CS, SS and DS (20_memory.md R59). -/
def segBase (s : State) (seg : Seg) : Word64 :=
  match s.mode, seg with
  | .m64, .fs => s.segs.fs.base
  | .m64, .gs => s.segs.gs.base
  | .m64, _ => 0
  | .m32, _ => (s.segs.get seg).base

/-- The linear address `SegBase(seg) + off`, truncated to 32 bits in M32 (20_memory.md R59; log 11). -/
def linear (s : State) (seg : Seg) (off : Word64) : Word64 :=
  match s.mode with
  | .m64 => segBase s seg + off
  | .m32 => ((segBase s seg + off).setWidth 32).setWidth 64

/-! ## Translate (20_memory.md R56, R58, R59, R63; log 10) -/

/-- What R59 fixes of the segment level admits the access: canonical in M64; offsets 0 to FFFFH in real-address and
virtual-8086 mode; inside the limit and with the right in the rest of M32. What R58 leaves to the platform beyond that
is `accessException`. -/
def segAdmits (s : State) (seg : Seg) (off : Word64) (n : Nat) (k : Access) : Bool :=
  match s.mode, s.realOrV86 with
  | .m64, _ => canonicalSpan s.plat.vaBits (linear s seg off) n
  | .m32, true => off.toNat + n ≤ 0x10000
  | .m32, false =>
    off.toNat + n ≤ (s.segs.get seg).limit.toNat + 1 &&
      match k with
      | .read => (s.segs.get seg).readable
      | .write => (s.segs.get seg).writable

/-- The exception of a refused segment-level access: #SS(0) through SS, otherwise #GP(0); always #GP(0) in real-address
and virtual-8086 mode (R59). -/
def segFault (s : State) (seg : Seg) : Word64 → Fault :=
  if seg = .ss ∧ s.inRealOrV86 = false then Fault.ss else Fault.gp

/-- The row of the platform's table is for this access (R58). -/
def ruleCovers (r : AccessRule) (seg : Seg) (off : Word64) (n : Nat) (k : Access) : Bool :=
  r.seg = seg && r.kind = k && r.bytes = n && r.first ≤ off && off ≤ r.last

/-- What the platform's table answers for an access that R59 lets through: the first row for it, if there is one
(R58, D7; log 10). -/
def accessException (s : State) (seg : Seg) (off : Word64) (n : Nat) (k : Access) : Option AccessException :=
  s.plat.accessRules.findSome? fun r => if ruleCovers r seg off n k then some r.refuses else none

/-- The exception of a row, with the saved instruction pointer. -/
def ruleFault (x : AccessException) (ip : Word64) : Fault :=
  match x with
  | .gp => .gp ip
  | .ss => .ss ip
  | .pf code cr2 => .pf ip code cr2

/-- The region covers the address. -/
def regionCovers (r : MemRegion) (a : Nat) : Bool := r.base ≤ a && a < r.base + r.size

/-- The #PF error code of a byte access, where the platform faults it. -/
def bytePageFault (regions : List MemRegion) (a : Nat) (k : Access) : Option Word32 :=
  regions.findSome? fun r =>
    match r.kind, k with
    | .faulting c _, .read => if regionCovers r a then c else none
    | .faulting _ c, .write => if regionCovers r a then c else none
    | .notWriteBack, _ => none

/-- The #PF of an access: the error code and the linear address of its first byte that faults (R59; log 12). -/
def pageFault (s : State) (la : Word64) (n : Nat) (k : Access) : Option (Word32 × Word64) :=
  (List.range n).findSome? fun i =>
    (bytePageFault s.plat.memMap (byteAddr s.mode la i) k).map fun c =>
      (c, BitVec.ofNat 64 (byteAddr s.mode la i))

/-- Some byte of the operand lies outside ordinary write-back memory (R63). -/
def touchesDevice (s : State) (la : Word64) (n : Nat) : Bool :=
  (List.range n).any fun i =>
    s.plat.memMap.any fun r => r.kind = .notWriteBack && regionCovers r (byteAddr s.mode la i)

/-- The operand is misaligned and alignment checking is in force (R56). -/
def alignFault (s : State) (la : Word64) (n : Nat) : Bool := s.alignCheck && la.toNat % n ≠ 0

/-- `Translate(seg, off, n, kind)`: the linear address of the first byte, or the exception. What R59 fixes of the segment
level comes first, then the platform's table, then its faulting regions, then #AC (R58, R59, 60_exceptions.md R184). -/
def translate (s : State) (seg : Seg) (off : Word64) (n : Nat) (k : Access) : Res Word64 :=
  if segAdmits s seg off n k then
    match accessException s seg off n k with
    | some x => raise s (ruleFault x)
    | none =>
      match pageFault s (linear s seg off) n k with
      | some (code, a) => raise s fun ip => .pf ip code a
      | none => if alignFault s (linear s seg off) n then raise s Fault.ac else .next (linear s seg off)
  else raise s (segFault s seg)

/-! ## Data accesses (20_memory.md R50, R57, R60, R61, R63, R70) -/

/-- The value of bytes, the first byte the least significant (R50). -/
def ofBytesLE : List Byte → Nat
  | [] => 0
  | b :: r => b.toNat + 256 * ofBytesLE r

/-- The bytes of an operand, each with its linear address, the least significant first (R50). -/
def operandCells (mode : Mode) (la : Word64) (w : Width) (v : BitVec w.bits) : List Host.Cell :=
  (List.range w.bytes).map fun k => (byteAddr mode la k, v.extractLsb' (8 * k) 8)

/-- The little-endian value at a linear address (R50, R60). -/
def loadLE (s : State) (la : Word64) (w : Width) : BitVec w.bits :=
  BitVec.ofNat w.bits (ofBytesLE ((List.range w.bytes).map fun k => s.mem.read (byteAddr s.mode la k)))

/-- The linear address holds a byte of the program (R70). -/
def isProgramByte (s : State) (a : Nat) : Bool :=
  let ip :=
    match s.mode with
    | .m64 => a
    | .m32 => (a + 2 ^ 32 - s.segs.cs.base.toNat % 2 ^ 32) % 2 ^ 32
  s.program.start.toNat ≤ ip && ip < s.program.start.toNat + s.program.size

/-- The store would touch a byte of the program (R70). -/
def touchesProgram (s : State) (la : Word64) (n : Nat) : Bool :=
  (List.range n).any fun i => isProgramByte s (byteAddr s.mode la i)

/-- `MemRead((seg, off), n)` (R60). -/
def memRead (w : Width) (s : State) (seg : Seg) (off : Word64) : Res (BitVec w.bits) :=
  (translate s seg off w.bytes .read).bind fun la =>
    if touchesDevice s la w.bytes then .refused .notWriteBack else .next (loadLE s la w)

/-- `MemWrite((seg, off), n, v)`: exactly the operand's bytes (R57, R61). -/
def memWrite (w : Width) (s : State) (seg : Seg) (off : Word64) (v : BitVec w.bits) : Res State :=
  (translate s seg off w.bytes .write).bind fun la =>
    if touchesDevice s la w.bytes then .refused .notWriteBack
    else if touchesProgram s la w.bytes then .refused .storeToProgram
    else .next (setMem s (s.mem.writeAll (operandCells s.mode la w v)))

end Sys2Proof.Machine
end

