-- ==== Sys2Proof/Machine/Operands.lean ====
section
/-! DEFINITION. The operand forms: register numbers, effective addresses, segments, and reading and writing the
ModRM:r/m operand (30_encoding.md R87, R88, R99 to R109). -/

namespace Sys2Proof.Machine

/-- What the ModRM:r/m operand of an instruction is formed from: its length, its prefix bytes, the extension bits X and
B, the factor N of an 8-bit displacement, and the form (R104, R106). -/
structure RmArgs where
  ilen : Nat
  pre : List PrefixItem
  x : Bool
  b : Bool
  scale : Nat
  rm : RmForm
deriving DecidableEq, Repr

/-- The r/m operand of a LEG-format instruction: X and B from the effective REX byte (R91, R93). -/
def legArgs (pre : List PrefixItem) (m : ModRM) : RmArgs :=
  ⟨legLen pre m, pre, (effectiveRex pre).x, (effectiveRex pre).b, 1, m.rm⟩

/-- The r/m operand under a two-byte VEX prefix: X = 0 and B = 0 (R94). -/
def vex2Args (pre : List PrefixItem) (m : ModRM) : RmArgs := ⟨vex2Len pre m, pre, false, false, 1, m.rm⟩

/-- The r/m operand under a three-byte VEX prefix (R95). -/
def vex3Args (pre : List PrefixItem) (v : Vex3) (m : ModRM) : RmArgs := ⟨vex3Len pre m, pre, v.x, v.b, 1, m.rm⟩

/-- The r/m operand under an EVEX prefix; an 8-bit displacement counts in units of the operand's size (R97, R104). -/
def evexArgs (pre : List PrefixItem) (e : Evex) (m : ModRM) (w : Width) : RmArgs :=
  ⟨evexLen pre m, pre, e.x, e.b, w.bytes, m.rm⟩

/-! ## Register numbers (R106, R107) -/

/-- An extension bit; all are 0 in M32 (R106). -/
def extBit (mode : Mode) (e : Bool) : Bool := mode = .m64 && e

/-- The number of a register from its extension bit and 3-bit field (R107). -/
def regNum (mode : Mode) (e : Bool) (r : BitVec 3) : BitVec 4 := BitVec.ofBool (extBit mode e) ++ r

/-- The vector register of rows 5 to 12, `R:reg` (R107). -/
def vecNum (mode : Mode) (r : Bool) (reg : BitVec 3) : BitVec 5 := (regNum mode r reg).setWidth 5

/-- The vector register of rows 13 to 16, `R':R:reg` (R107). -/
def vecNumEvex (mode : Mode) (r' r : Bool) (reg : BitVec 3) : BitVec 5 :=
  BitVec.ofBool (extBit mode r') ++ regNum mode r reg

/-! ## Effective address (R100 to R104) -/

/-- The low A bits, zero-extended: a value modulo 2^A. -/
def truncAddr (a : AddrSize) (v : Word64) : Word64 :=
  match a with
  | .a16 => (v.setWidth 16).setWidth 64
  | .a32 => (v.setWidth 32).setWidth 64
  | .a64 => v

/-- The displacement as a 64-bit number, sign-extended, an 8-bit one times N (R103, R104). -/
def dispValue (scale : Nat) : Disp → Word64
  | .none => 0
  | .d8 d => d.signExtend 64 * BitVec.ofNat 64 scale
  | .d32 d => d.signExtend 64

/-- The displacement of a 16-bit address, an 8-bit one sign-extended (R102). -/
def dispValue16 : Disp16 → Word64
  | .none => 0
  | .d8 d => d.signExtend 64
  | .d16 d => d.setWidth 64

/-- The SIB index term: register `X:index` shifted left by ss; number 4 is no index (R101). -/
def indexTerm (s : State) (a : RmArgs) (ss : BitVec 2) (index : BitVec 3) : Word64 :=
  if regNum s.mode a.x index = 4 then 0 else readGpr s (regNum s.mode a.x index) <<< ss.toNat

/-- The base expression of 16-bit addressing (R102). -/
def base16 (s : State) (rm : BitVec 3) : Word64 :=
  match rm.toNat with
  | 0 => readGpr s 3 + readGpr s 6
  | 1 => readGpr s 3 + readGpr s 7
  | 2 => readGpr s 5 + readGpr s 6
  | 3 => readGpr s 5 + readGpr s 7
  | 4 => readGpr s 6
  | 5 => readGpr s 7
  | 6 => readGpr s 5
  | _ => readGpr s 3

/-- The effective address, modulo 2^A for the address size A (R100 to R104). -/
def effAddr (s : State) (a : RmArgs) : Word64 :=
  let t := truncAddr (addrSize s.codeMode a.pre)
  match a.rm with
  | .direct _ => 0
  | .plain rm d => t (readGpr s (regNum s.mode a.b rm) + dispValue a.scale d)
  | .disp32 d =>
    match s.mode with
    | .m64 => t (s.rip + BitVec.ofNat 64 a.ilen + d.signExtend 64)
    | .m32 => t (d.signExtend 64)
  | .sib ss index base d =>
    t (readGpr s (regNum s.mode a.b base) + indexTerm s a ss index + dispValue a.scale d)
  | .sibNoBase ss index d => t (indexTerm s a ss index + d.signExtend 64)
  | .mem16 rm d => truncAddr .a16 (base16 s rm + dispValue16 d)
  | .abs16 d => d.setWidth 64

/-! ## Segment (R87, R105) -/

/-- SS for base register 4 or 5, DS for any other (R105). -/
def segOfBase (n : BitVec 4) : Seg := if n = 4 ∨ n = 5 then .ss else .ds

/-- The default segment of the memory operand (R105). -/
def defaultSeg (mode : Mode) (a : RmArgs) : Seg :=
  match a.rm with
  | .plain rm _ => segOfBase (regNum mode a.b rm)
  | .sib _ _ base _ => segOfBase (regNum mode a.b base)
  | .mem16 rm _ => if rm = 2 ∨ rm = 3 ∨ rm = 6 then .ss else .ds
  | _ => .ds

/-- The segment: the last override replaces the default; in M64 one of CS, SS, DS or ES is ignored and the default
stands (R87). -/
def operandSeg (mode : Mode) (a : RmArgs) : Seg :=
  match mode, lastOverride a.pre with
  | _, none => defaultSeg mode a
  | .m32, some g => g
  | .m64, some .fs => .fs
  | .m64, some .gs => .gs
  | .m64, some _ => defaultSeg mode a

/-! ## The ModRM:r/m operand (R108, R109) -/

/-- `ReadRM`: the low bits of the general register, or a memory read (R108, 10_state.md R24). -/
def readRM (w : Width) (s : State) (a : RmArgs) : Res (BitVec w.bits) :=
  match a.rm with
  | .direct r => .next ((readGpr s (regNum s.mode a.b r)).setWidth w.bits)
  | _ => memRead w s (operandSeg s.mode a) (effAddr s a)

/-- `WriteRM`: the general register, a doubleword zero-extended (GprWrite32), or a memory write (R109,
10_state.md R23). -/
def writeRM (w : Width) (s : State) (a : RmArgs) (v : BitVec w.bits) : Res State :=
  match a.rm with
  | .direct r => .next (writeGpr s (regNum s.mode a.b r) (v.setWidth 64))
  | _ => memWrite w s (operandSeg s.mode a) (effAddr s a) v

end Sys2Proof.Machine
end

