-- ==== Sys2Proof/Machine/Gate.lean ====
section
/-! DEFINITION. The checks before an instruction of each family runs, in the order of 60_exceptions.md R184. -/

namespace Sys2Proof.Machine

/-- The checks of every instruction, in order: the instruction pointer (10_state.md R34; a refusal), the length (R174),
#UD, #NM, #MF (R184), and last the encodings the spec refuses (`no`): a refusal is answered only where no exception
applies (log 13). -/
def gate (s : State) (ilen : Nat) (ud nm mf : Bool) (no : Option Refusal) : Res Unit :=
  if ipOk s ilen = false then .refused .ipWrap
  else if maxIlen < ilen then raise s Fault.gp
  else if ud then raise s Fault.ud
  else if nm then raise s Fault.nm
  else if mf then raise s Fault.mf
  else
    match no with
    | some r => .refused r
    | none => .next ()

/-- The REX.W rows cannot be encoded in M32 (30_encoding.md R118). -/
def refuseQuadInM32 (w : Width) (s : State) : Option Refusal :=
  if w = .qword ∧ s.mode = .m32 then some .notEncodable else none

/-- #UD of rows 1 to 4: LOCK, feature flag, CR0.EM (R175, R176, R177). -/
def udMmx (s : State) (pre : List PrefixItem) : Bool := hasLock pre || !s.plat.hasMMX || s.cr0EM

/-- The gate of the MMX rows 1 to 4 (R177). -/
def gateMmx (w : Width) (s : State) (pre : List PrefixItem) (m : ModRM) : Res Unit :=
  gate s (legLen pre m) (udMmx s pre) s.cr0TS s.x87Pending (refuseQuadInM32 w s)

/-- #UD of rows 5 to 8: LOCK, feature flag, CR0.EM, CR4.OSFXSR (R175, R176, R178). -/
def udSse2 (s : State) (pre : List PrefixItem) : Bool :=
  hasLock pre || !s.plat.hasSSE2 || s.cr0EM || !s.cr4OSFXSR

/-- The gate of the legacy SSE rows 5 to 8 (R178). -/
def gateSse2 (w : Width) (s : State) (pre : List PrefixItem) (m : ModRM) : Res Unit :=
  gate s (legLen pre m) (udSse2 s pre) s.cr0TS false (refuseQuadInM32 w s)

/-- #UD of rows 9 to 12: a forbidden prefix byte, feature flag, mode, OSXSAVE and XCR0, VEX.L, VEX.vvvv
(30_encoding.md R122, R175, R176, R179, 42_vmovd_vmovq_vex.md R155). -/
def udVex (s : State) (pre : List PrefixItem) (l : Bool) (vvvv : BitVec 4) : Bool :=
  badVexPrefix pre || !s.plat.hasAVX || s.inRealOrV86 || !s.cr4OSXSAVE || !s.xcr0Avx || l || vvvv ≠ 15

/-- A 16-bit address size (30_encoding.md R88). -/
def addr16 (s : State) (pre : List PrefixItem) : Bool := addrSize s.codeMode pre = .a16

/-- The refused encodings of a two-byte VEX prefix (D13 (c)). -/
def refuseVex2 (s : State) (pre : List PrefixItem) : Option Refusal :=
  if addr16 s pre then some .vexAddr16 else none

/-- The refused encodings of a three-byte VEX prefix (D13 (a), (c)). -/
def refuseVex3 (s : State) (pre : List PrefixItem) (v : Vex3) : Option Refusal :=
  if s.mode = .m32 ∧ v.b then some .vexB32
  else if addr16 s pre then some .vexAddr16
  else none

/-- The gate of rows 9 and 11 with a two-byte VEX prefix (R179). -/
def gateVex2 (s : State) (pre : List PrefixItem) (v : Vex2) (m : ModRM) : Res Unit :=
  gate s (vex2Len pre m) (udVex s pre v.l v.vvvv) s.cr0TS false (refuseVex2 s pre)

/-- The gate of rows 9 to 12 with a three-byte VEX prefix (R179). -/
def gateVex3 (s : State) (pre : List PrefixItem) (v : Vex3) (m : ModRM) : Res Unit :=
  gate s (vex3Len pre m) (udVex s pre v.l v.vvvv) s.cr0TS false (refuseVex3 s pre v)

/-- The EVEX fields are at the values the rows need: vvvv and V̄' as stored all ones, L'L, aaa, z and b zero
(43_vmovd_vmovq_evex.md R165). -/
def evexFieldsOk (e : Evex) : Bool :=
  e.vvvv = 15 && e.ll = 0 && e.aaa = 0 && !e.z && !e.bc && e.vBar'

/-- #UD of rows 13 to 16 (30_encoding.md R122, R175, R176, R180, R165). -/
def udEvex (s : State) (pre : List PrefixItem) (e : Evex) : Bool :=
  badVexPrefix pre || !s.plat.hasAVX512F || s.inRealOrV86 || !s.cr4OSXSAVE || !s.xcr0Avx || !s.xcr0Avx512
    || !evexFieldsOk e

/-- The r/m operand is a general register (mod = 11b). -/
def rmIsReg : RmForm → Bool
  | .direct _ => true
  | _ => false

/-- The r/m operand has an 8-bit displacement (mod = 01b). -/
def rmIsDisp8 : RmForm → Bool
  | .plain _ (.d8 _) => true
  | .sib _ _ _ (.d8 _) => true
  | .mem16 _ (.d8 _) => true
  | _ => false

/-- The refused encodings of an EVEX prefix (D13 (b), (c), (d), D12). -/
def refuseEvex (s : State) (pre : List PrefixItem) (e : Evex) (m : ModRM) : Option Refusal :=
  if s.mode = .m32 ∧ (e.b ∨ e.r') then some .evexExt32
  else if addr16 s pre then some .vexAddr16
  else if rmIsReg m.rm ∧ e.x then some .evexRegX
  else if s.mode = .m32 ∧ e.w ∧ rmIsDisp8 m.rm then some .evexDisp8W
  else none

/-- The gate of the EVEX rows 13 to 16 (R180). -/
def gateEvex (s : State) (pre : List PrefixItem) (e : Evex) (m : ModRM) : Res Unit :=
  gate s (evexLen pre m) (udEvex s pre e) s.cr0TS false (refuseEvex s pre e m)

end Sys2Proof.Machine
end

