-- ==== Sys2Proof/Machine/Vex.lean ====
section
/-! DEFINITION. Rows 9 to 12: VMOVD and VMOVQ, VEX encodings (42_vmovd_vmovq_vex.md). -/

namespace Sys2Proof.Machine

/-- The width of a W1 row: a quadword in M64; in M32 W is ignored and the W0 row's doubleword is moved
(30_encoding.md R81, R118). -/
def w1Width (mode : Mode) : Width :=
  match mode with
  | .m64 => .qword
  | .m32 => .dword

/-- A move into an XMM register under a VEX or EVEX prefix: zero-extended to MAXVL bits (R150, R151, R152;
43_vmovd_vmovq_evex.md R160 to R162). -/
def vexLoad (w : Width) (g : Res Unit) (a : RmArgs) (n : BitVec 5) (s : State) : Res State :=
  g.bind fun _ =>
  (readRM w s a).bind fun v =>
  .next (advance (writeXmmZero s n (v.setWidth 128)) a.ilen)

/-- A move out of an XMM register under a VEX or EVEX prefix: its low bits (R150, R153, R154;
43_vmovd_vmovq_evex.md R160, R163, R164). -/
def vexStore (w : Width) (g : Res Unit) (a : RmArgs) (n : BitVec 5) (s : State) : Res State :=
  g.bind fun _ =>
  (writeRM w s a ((readVec s n).setWidth w.bits)).bind fun t =>
  .next (advance t a.ilen)

/-- Row 9, VMOVD xmm1, r32/m32, three-byte VEX (R151). -/
def execVmovdXmmRm32C4 (pre : List PrefixItem) (v : Vex3) (m : ModRM) (s : State) : Res State :=
  vexLoad .dword (gateVex3 s pre v m) (vex3Args pre v m) (vecNum s.mode v.r m.reg) s

/-- Row 9, VMOVD xmm1, r32/m32, two-byte VEX (R151). -/
def execVmovdXmmRm32C5 (pre : List PrefixItem) (v : Vex2) (m : ModRM) (s : State) : Res State :=
  vexLoad .dword (gateVex2 s pre v m) (vex2Args pre m) (vecNum s.mode v.r m.reg) s

/-- Row 10, VMOVQ xmm1, r64/m64 (R152); in M32 it acts as row 9 (R156). -/
def execVmovqXmmRm64Vex (pre : List PrefixItem) (v : Vex3) (m : ModRM) (s : State) : Res State :=
  vexLoad (w1Width s.mode) (gateVex3 s pre v m) (vex3Args pre v m) (vecNum s.mode v.r m.reg) s

/-- Row 11, VMOVD r32/m32, xmm1, three-byte VEX (R153). -/
def execVmovdRm32XmmC4 (pre : List PrefixItem) (v : Vex3) (m : ModRM) (s : State) : Res State :=
  vexStore .dword (gateVex3 s pre v m) (vex3Args pre v m) (vecNum s.mode v.r m.reg) s

/-- Row 11, VMOVD r32/m32, xmm1, two-byte VEX (R153). -/
def execVmovdRm32XmmC5 (pre : List PrefixItem) (v : Vex2) (m : ModRM) (s : State) : Res State :=
  vexStore .dword (gateVex2 s pre v m) (vex2Args pre m) (vecNum s.mode v.r m.reg) s

/-- Row 12, VMOVQ r64/m64, xmm1 (R154); in M32 it acts as row 11 (R156). -/
def execVmovqRm64XmmVex (pre : List PrefixItem) (v : Vex3) (m : ModRM) (s : State) : Res State :=
  vexStore (w1Width s.mode) (gateVex3 s pre v m) (vex3Args pre v m) (vecNum s.mode v.r m.reg) s

end Sys2Proof.Machine
end

