-- ==== Sys2Proof/Machine/Evex.lean ====
section
/-! DEFINITION. Rows 13 to 16: VMOVD and VMOVQ, EVEX encodings (43_vmovd_vmovq_evex.md). -/

namespace Sys2Proof.Machine

/-- Row 13, VMOVD xmm1, r32/m32 (R161). -/
def execVmovdXmmRm32Evex (pre : List PrefixItem) (e : Evex) (m : ModRM) (s : State) : Res State :=
  vexLoad .dword (gateEvex s pre e m) (evexArgs pre e m .dword) (vecNumEvex s.mode e.r' e.r m.reg) s

/-- Row 14, VMOVQ xmm1, r64/m64 (R162); in M32 it acts as row 13 (R166). -/
def execVmovqXmmRm64Evex (pre : List PrefixItem) (e : Evex) (m : ModRM) (s : State) : Res State :=
  vexLoad (w1Width s.mode) (gateEvex s pre e m) (evexArgs pre e m (w1Width s.mode))
    (vecNumEvex s.mode e.r' e.r m.reg) s

/-- Row 15, VMOVD r32/m32, xmm1 (R163). -/
def execVmovdRm32XmmEvex (pre : List PrefixItem) (e : Evex) (m : ModRM) (s : State) : Res State :=
  vexStore .dword (gateEvex s pre e m) (evexArgs pre e m .dword) (vecNumEvex s.mode e.r' e.r m.reg) s

/-- Row 16, VMOVQ r64/m64, xmm1 (R164); in M32 it acts as row 15 (R166). -/
def execVmovqRm64XmmEvex (pre : List PrefixItem) (e : Evex) (m : ModRM) (s : State) : Res State :=
  vexStore (w1Width s.mode) (gateEvex s pre e m) (evexArgs pre e m (w1Width s.mode))
    (vecNumEvex s.mode e.r' e.r m.reg) s

end Sys2Proof.Machine
end

