-- ==== Sys2Proof/Machine/Mmx.lean ====
section
/-! DEFINITION. Rows 1 to 4: MOVD and MOVQ with an MMX register (40_movd_movq_mmx.md). -/

namespace Sys2Proof.Machine

/-- A move into an MMX register: zero-extended to 64 bits, with the x87 side effects (R130, R131, R132). -/
def mmxLoad (w : Width) (pre : List PrefixItem) (m : ModRM) (s : State) : Res State :=
  (gateMmx w s pre m).bind fun _ =>
  (readRM w s (legArgs pre m)).bind fun v =>
  .next (advance (mmxWrite (mmxTouch (writeMm s m.reg (v.setWidth 64))) m.reg) (legLen pre m))

/-- A move out of an MMX register: its low bits, with the x87 side effects of a read (R130, R133, R134). -/
def mmxStore (w : Width) (pre : List PrefixItem) (m : ModRM) (s : State) : Res State :=
  (gateMmx w s pre m).bind fun _ =>
  (writeRM w s (legArgs pre m) ((readMm s m.reg).setWidth w.bits)).bind fun t =>
  .next (advance (mmxTouch t) (legLen pre m))

/-- Row 1, MOVD mm, r/m32 (R131). -/
def execMovdMmRm32 (pre : List PrefixItem) (m : ModRM) (s : State) : Res State := mmxLoad .dword pre m s

/-- Row 2, MOVQ mm, r/m64 (R132). -/
def execMovqMmRm64 (pre : List PrefixItem) (m : ModRM) (s : State) : Res State := mmxLoad .qword pre m s

/-- Row 3, MOVD r/m32, mm (R133). -/
def execMovdRm32Mm (pre : List PrefixItem) (m : ModRM) (s : State) : Res State := mmxStore .dword pre m s

/-- Row 4, MOVQ r/m64, mm (R134). -/
def execMovqRm64Mm (pre : List PrefixItem) (m : ModRM) (s : State) : Res State := mmxStore .qword pre m s

end Sys2Proof.Machine
end

