-- ==== Sys2Proof/Machine/Sse2.lean ====
section
/-! DEFINITION. Rows 5 to 8: MOVD and MOVQ with an XMM register, legacy SSE encodings (41_movd_movq_sse2.md). -/

namespace Sys2Proof.Machine

/-- The vector register of a LEG-format row: `R:reg`, R from the effective REX byte (30_encoding.md R93, R107). -/
def legVec (s : State) (pre : List PrefixItem) (m : ModRM) : BitVec 5 := vecNum s.mode (effectiveRex pre).r m.reg

/-- A move into an XMM register: zero-extended to 128 bits, bits MAXVL-1:128 kept (R140, R141, R142). -/
def sseLoad (w : Width) (pre : List PrefixItem) (m : ModRM) (s : State) : Res State :=
  (gateSse2 w s pre m).bind fun _ =>
  (readRM w s (legArgs pre m)).bind fun v =>
  .next (advance (writeXmmKeep s (legVec s pre m) (v.setWidth 128)) (legLen pre m))

/-- A move out of an XMM register: its low bits (R140, R143, R144). -/
def sseStore (w : Width) (pre : List PrefixItem) (m : ModRM) (s : State) : Res State :=
  (gateSse2 w s pre m).bind fun _ =>
  (writeRM w s (legArgs pre m) ((readVec s (legVec s pre m)).setWidth w.bits)).bind fun t =>
  .next (advance t (legLen pre m))

/-- Row 5, MOVD xmm, r/m32 (R141). -/
def execMovdXmmRm32 (pre : List PrefixItem) (m : ModRM) (s : State) : Res State := sseLoad .dword pre m s

/-- Row 6, MOVQ xmm, r/m64 (R142). -/
def execMovqXmmRm64 (pre : List PrefixItem) (m : ModRM) (s : State) : Res State := sseLoad .qword pre m s

/-- Row 7, MOVD r/m32, xmm (R143). -/
def execMovdRm32Xmm (pre : List PrefixItem) (m : ModRM) (s : State) : Res State := sseStore .dword pre m s

/-- Row 8, MOVQ r/m64, xmm (R144). -/
def execMovqRm64Xmm (pre : List PrefixItem) (m : ModRM) (s : State) : Res State := sseStore .qword pre m s

end Sys2Proof.Machine
end

