-- ==== Sys2Proof/Machine/Dispatch.lean ====
section
/-! DEFINITION. What each instruction does: one arm per constructor, each one call of its meaning. -/

namespace Sys2Proof.Machine

def exec (i : Instr) (s : State) : Host.Outcome State Fault Refusal :=
  match i with
  | .movdMmRm32 pre m => Sys2Proof.Machine.execMovdMmRm32 pre m s
  | .movqMmRm64 pre m => Sys2Proof.Machine.execMovqMmRm64 pre m s
  | .movdRm32Mm pre m => Sys2Proof.Machine.execMovdRm32Mm pre m s
  | .movqRm64Mm pre m => Sys2Proof.Machine.execMovqRm64Mm pre m s
  | .movdXmmRm32 pre m => Sys2Proof.Machine.execMovdXmmRm32 pre m s
  | .movqXmmRm64 pre m => Sys2Proof.Machine.execMovqXmmRm64 pre m s
  | .movdRm32Xmm pre m => Sys2Proof.Machine.execMovdRm32Xmm pre m s
  | .movqRm64Xmm pre m => Sys2Proof.Machine.execMovqRm64Xmm pre m s
  | .vmovdXmmRm32C4 pre v m => Sys2Proof.Machine.execVmovdXmmRm32C4 pre v m s
  | .vmovdXmmRm32C5 pre v m => Sys2Proof.Machine.execVmovdXmmRm32C5 pre v m s
  | .vmovqXmmRm64Vex pre v m => Sys2Proof.Machine.execVmovqXmmRm64Vex pre v m s
  | .vmovdRm32XmmC4 pre v m => Sys2Proof.Machine.execVmovdRm32XmmC4 pre v m s
  | .vmovdRm32XmmC5 pre v m => Sys2Proof.Machine.execVmovdRm32XmmC5 pre v m s
  | .vmovqRm64XmmVex pre v m => Sys2Proof.Machine.execVmovqRm64XmmVex pre v m s
  | .vmovdXmmRm32Evex pre e m => Sys2Proof.Machine.execVmovdXmmRm32Evex pre e m s
  | .vmovqXmmRm64Evex pre e m => Sys2Proof.Machine.execVmovqXmmRm64Evex pre e m s
  | .vmovdRm32XmmEvex pre e m => Sys2Proof.Machine.execVmovdRm32XmmEvex pre e m s
  | .vmovqRm64XmmEvex pre e m => Sys2Proof.Machine.execVmovqRm64XmmEvex pre e m s

end Sys2Proof.Machine
end

