-- ==== Sys2Proof/Machine/Fetch.lean ====
section
/-! DEFINITION. Fetching an instruction's bytes, and loading one from outside (20_memory.md R51, R55, R70,
70_reset_and_hazards.md R224). -/

namespace Sys2Proof.Machine

/-- The linear address of the instruction byte at `rip + k`: RIP itself in M64, CS base + EIP modulo 2^32 in M32
(20_memory.md R59). In M32 the bytes of one instruction may run past linear FFFFFFFFH while EIP stays within the
limit; R34 and D24 do not say whether that passes the top, and the model wraps the address and goes on (DESIGN CHOICE,
log 67). -/
def codeAddr (s : State) (k : Nat) : Nat :=
  match s.mode with
  | .m64 => s.rip.toNat + k
  | .m32 => (s.segs.cs.base.toNat + s.rip.toNat + k) % 2 ^ 32

/-- The instruction pointer `rip + k` is one of the program's addresses (20_memory.md R70). -/
def inProgram (s : State) (k : Nat) : Bool :=
  s.program.start.toNat ≤ s.rip.toNat + k && s.rip.toNat + k < s.program.start.toNat + s.program.size

/-- The byte at `rip + k` can be fetched: it is a program byte, and an instruction that ends with it does not pass the
top of the address space (10_state.md R34). The platform's part of Translate is not asked: the spec leaves the faults of
fetching outside (60_exceptions.md R184 (1)), and the model takes every program byte as admitted for fetch, R214 (f),
whatever `accessRules` and `memMap` say of its address (DESIGN CHOICE, log 68). -/
def fetchable (s : State) (k : Nat) : Bool := inProgram s k && ipOk s (k + 1)

/-- Up to `n` instruction bytes from `rip + k` on, as far as they can be fetched. No byte of the program
raises a fault of fetching (log 68). -/
def fetchFrom (s : State) (k : Nat) : Nat → List Byte
  | 0 => []
  | n + 1 => if fetchable s k then s.mem.read (codeAddr s k) :: fetchFrom s (k + 1) n else []

/-- The bytes from the instruction pointer on, as far as the program and the address space go; the decoder takes of them
what the instruction has (30_encoding.md R84, 20_memory.md R51). That an instruction has at most 15 is `gate`'s check of
the length that comes out, so that R34, which comes before it, sees the whole length (log 15). -/
def fetch (s : State) : List Byte := fetchFrom s 0 s.program.size

/-- Why the bytes end after `n` of them before the instruction does: the program ends there (70_reset_and_hazards.md
R224), or the pointer would pass the top of the address space (10_state.md R34). -/
def fetchStop (s : State) (n : Nat) : Refusal := if inProgram s n then .ipWrap else .endOfProgram

/-- The program bytes placed at the instruction pointer. -/
def codeCells (s : State) (bytes : List Byte) : List Host.Cell :=
  bytes.zipIdx.map fun p => (codeAddr s p.2, p.1)

/-- A program loaded from outside: its bytes in memory at the instruction pointer, and its place (log 7). -/
def loadProgram (s : State) (bytes : List Byte) : State :=
  { s with mem := s.mem.writeAll (codeCells s bytes), program := ⟨s.rip, bytes.length⟩ }

end Sys2Proof.Machine
end

