-- ==== Sys2Proof/Machine/Step.lean ====
section
/-! DEFINITION. One step of the machine (00_scope.md R12): fetch and decode at the instruction pointer, then execute. -/

namespace Sys2Proof.Machine

/-- One step: the instruction the bytes at the instruction pointer decode to is executed; bytes of no instruction of
the group are refused (D14), bytes that end before the instruction does are refused as `fetchStop`
says. -/
def step (s : State) : Host.Outcome State Fault Refusal :=
  match decode s.codeMode (fetch s) with
  | .ok i _ => exec i s
  | .reject e => .refused (.decode e)
  | .truncated => .refused (fetchStop s (fetch s).length)

/-- The state with an instruction, given as a table word, loaded at the instruction pointer (log 7). -/
def State.withFetchWord (s : State) (nbits w : Nat) : State := loadProgram s (tableBytes nbits w)

end Sys2Proof.Machine
end

