-- ==== Sys2Proof/WellFormed.lean ====
section
/-! DEFINITION. Which instructions of Sys2Proof/Syntax.lean are encodings: the checks of 30_encoding.md on the fields a
constructor holds. Sys2Proof/Tests/Slice0.lean has, for each check, a term that it refuses. -/

namespace Sys2Proof

/-- The r/m form is the one its fields encode: rm = 100b calls for a SIB byte, mod = 00b with rm or base 101b (110b in
16-bit addressing) for a displacement without a register (R100, R101, R102). -/
def RmForm.canonical : RmForm → Bool
  | .plain rm d => rm ≠ 4 && !(d = .none && rm = 5)
  | .sib _ _ base d => !(d = .none && base = 5)
  | .mem16 rm d => !(d = .none && rm = 6)
  | _ => true

/-- The r/m form is one of the address size: 16-bit forms with a 16-bit address size and only then (R99 to R102). -/
def RmForm.fitsAddrSize (a : AddrSize) : RmForm → Bool
  | .direct _ => true
  | .mem16 _ _ | .abs16 _ => a = .a16
  | _ => a ≠ .a16

/-- The ModRM part is an encoding under the address size of the instruction. -/
def ModRM.wf (cm : CodeMode) (pre : List PrefixItem) (m : ModRM) : Bool :=
  m.rm.canonical && m.rm.fitsAddrSize (addrSize cm pre)

/-- In M32 no prefix byte is a REX byte (R85, R91). -/
def prefixesWf (mode : Mode) (pre : List PrefixItem) : Bool := mode = .m64 || !pre.any PrefixItem.isRex

/-- Rows 1 to 8: no F2 or F3, 66 as the row's column says, REX.W as the row says (R86, R92). -/
def legWf (cm : CodeMode) (sse w : Bool) (pre : List PrefixItem) (m : ModRM) : Bool :=
  prefixesWf cm.mode pre && !hasRep pre && hasOpSize pre = sse && (effectiveRex pre).w = w && m.wf cm pre

/-- Rows 9 and 11 with a two-byte prefix: in M32 R is 0 (R96). -/
def vex2Wf (cm : CodeMode) (pre : List PrefixItem) (v : Vex2) (m : ModRM) : Bool :=
  prefixesWf cm.mode pre && (cm.mode = .m64 || !v.r && v.vvvv.getLsbD 3) && m.wf cm pre

/-- Rows 9 to 12 with a three-byte prefix: in M32 R and X are 0 (R96) and only the W0 rows are selected (R118); in M64
W is as the row says. -/
def vex3Wf (cm : CodeMode) (quad : Bool) (pre : List PrefixItem) (v : Vex3) (m : ModRM) : Bool :=
  prefixesWf cm.mode pre && (cm.mode = .m64 || !v.r && !v.x) && (cm.mode = .m64 && v.w) = quad && m.wf cm pre

/-- Rows 13 to 16: as `vex3Wf` (R98, R118). -/
def evexWf (cm : CodeMode) (quad : Bool) (pre : List PrefixItem) (e : Evex) (m : ModRM) : Bool :=
  prefixesWf cm.mode pre && (cm.mode = .m64 || !e.r && !e.x) && (cm.mode = .m64 && e.w) = quad && m.wf cm pre

/-- The instruction is an encoding in this mode. -/
def Instr.wf (cm : CodeMode) : Instr → Bool
  | .movdMmRm32 pre m => legWf cm false false pre m
  | .movqMmRm64 pre m => legWf cm false true pre m
  | .movdRm32Mm pre m => legWf cm false false pre m
  | .movqRm64Mm pre m => legWf cm false true pre m
  | .movdXmmRm32 pre m => legWf cm true false pre m
  | .movqXmmRm64 pre m => legWf cm true true pre m
  | .movdRm32Xmm pre m => legWf cm true false pre m
  | .movqRm64Xmm pre m => legWf cm true true pre m
  | .vmovdXmmRm32C4 pre v m => vex3Wf cm false pre v m
  | .vmovdXmmRm32C5 pre v m => vex2Wf cm pre v m
  | .vmovqXmmRm64Vex pre v m => vex3Wf cm true pre v m
  | .vmovdRm32XmmC4 pre v m => vex3Wf cm false pre v m
  | .vmovdRm32XmmC5 pre v m => vex2Wf cm pre v m
  | .vmovqRm64XmmVex pre v m => vex3Wf cm true pre v m
  | .vmovdXmmRm32Evex pre e m => evexWf cm false pre e m
  | .vmovqXmmRm64Evex pre e m => evexWf cm true pre e m
  | .vmovdRm32XmmEvex pre e m => evexWf cm false pre e m
  | .vmovqRm64XmmEvex pre e m => evexWf cm true pre e m

end Sys2Proof
end

