-- ==== Sys2Proof/Safety.lean ====
section
/-! DEFINITION. The terms the statements use: when an instruction of each family may run, when a memory operand is
admitted, what a load reads and a store leaves, what stays as it is, and the invariant of the machine. -/

namespace Sys2Proof.Machine

/-- A safe step: it ends in a next state. -/
def StepsSafely (s : State) : Prop := ∃ t, step s = .next t

/-! ## When a family may run (70_reset_and_hazards.md R212, 60_exceptions.md R174 to R180) -/

/-- The instruction pointer after `n` bytes does not wrap, and the instruction has at most 15 bytes. -/
def IpFits (s : State) (n : Nat) : Prop := ipOk s n = true ∧ n ≤ maxIlen

/-- Rows 1 to 4: no LOCK, MMX present, CR0.EM and CR0.TS clear, no pending x87 exception. -/
def MmxReady (s : State) (pre : List PrefixItem) : Prop :=
  hasLock pre = false ∧ s.plat.hasMMX = true ∧ s.cr0EM = false ∧ s.cr0TS = false ∧ s.x87Pending = false

/-- Rows 5 to 8: no LOCK, SSE2 present, CR0.EM and CR0.TS clear, CR4.OSFXSR set. -/
def Sse2Ready (s : State) (pre : List PrefixItem) : Prop :=
  hasLock pre = false ∧ s.plat.hasSSE2 = true ∧ s.cr0EM = false ∧ s.cr4OSFXSR = true ∧ s.cr0TS = false

/-- Rows 9 to 12: only segment overrides and 67 before the VEX prefix, AVX present, not real-address or virtual-8086
mode, CR4.OSXSAVE and XCR0[2:1] set, CR0.TS clear, VEX.L = 0, VEX.vvvv = 1111b, an address size of 32 or 64 bits. -/
def VexReady (s : State) (pre : List PrefixItem) (l : Bool) (vvvv : BitVec 4) : Prop :=
  badVexPrefix pre = false ∧ s.plat.hasAVX = true ∧ s.inRealOrV86 = false ∧ s.cr4OSXSAVE = true ∧
    s.xcr0Avx = true ∧ s.cr0TS = false ∧ l = false ∧ vvvv = 15 ∧ addrSize s.codeMode pre ≠ .a16

/-- A three-byte VEX prefix the spec gives a meaning in the mode: in M32 B = 0 (30_encoding.md R96). -/
def Vex3Ready (s : State) (pre : List PrefixItem) (v : Vex3) : Prop :=
  VexReady s pre v.l v.vvvv ∧ (s.mode = .m32 → v.b = false)

/-- Rows 13 to 16: as rows 9 to 12 with AVX512F and XCR0[7:5], every unused EVEX field inactive, in M32 B = R' = 0,
X = 0 with a register operand, and in M32 no 8-bit displacement under W = 1 (30_encoding.md R98, R104, R107). -/
def EvexReady (s : State) (pre : List PrefixItem) (e : Evex) (m : ModRM) : Prop :=
  badVexPrefix pre = false ∧ s.plat.hasAVX512F = true ∧ s.inRealOrV86 = false ∧ s.cr4OSXSAVE = true ∧
    s.xcr0Avx = true ∧ s.xcr0Avx512 = true ∧ s.cr0TS = false ∧
    (e.vvvv = 15 ∧ e.ll = 0 ∧ e.aaa = 0 ∧ e.z = false ∧ e.bc = false ∧ e.vBar' = true) ∧
    addrSize s.codeMode pre ≠ .a16 ∧ (s.mode = .m32 → e.b = false ∧ e.r' = false) ∧
    (rmIsReg m.rm = true → e.x = false) ∧ (s.mode = .m32 → e.w = true → rmIsDisp8 m.rm = false)

/-- The CPUID feature flag of the instruction's row (30_encoding.md R80). -/
def hasFeature (p : Platform) : Instr → Bool
  | .movdMmRm32 _ _ | .movqMmRm64 _ _ | .movdRm32Mm _ _ | .movqRm64Mm _ _ => p.hasMMX
  | .movdXmmRm32 _ _ | .movqXmmRm64 _ _ | .movdRm32Xmm _ _ | .movqRm64Xmm _ _ => p.hasSSE2
  | .vmovdXmmRm32C4 _ _ _ | .vmovdXmmRm32C5 _ _ _ | .vmovqXmmRm64Vex _ _ _
  | .vmovdRm32XmmC4 _ _ _ | .vmovdRm32XmmC5 _ _ _ | .vmovqRm64XmmVex _ _ _ => p.hasAVX
  | .vmovdXmmRm32Evex _ _ _ | .vmovqXmmRm64Evex _ _ _
  | .vmovdRm32XmmEvex _ _ _ | .vmovqRm64XmmEvex _ _ _ => p.hasAVX512F

/-- The instruction is of rows 1 to 4. -/
def isMmxRow : Instr → Bool
  | .movdMmRm32 _ _ | .movqMmRm64 _ _ | .movdRm32Mm _ _ | .movqRm64Mm _ _ => true
  | .movdXmmRm32 _ _ | .movqXmmRm64 _ _ | .movdRm32Xmm _ _ | .movqRm64Xmm _ _ => false
  | .vmovdXmmRm32C4 _ _ _ | .vmovdXmmRm32C5 _ _ _ | .vmovqXmmRm64Vex _ _ _ => false
  | .vmovdRm32XmmC4 _ _ _ | .vmovdRm32XmmC5 _ _ _ | .vmovqRm64XmmVex _ _ _ => false
  | .vmovdXmmRm32Evex _ _ _ | .vmovqXmmRm64Evex _ _ _ => false
  | .vmovdRm32XmmEvex _ _ _ | .vmovqRm64XmmEvex _ _ _ => false

/-- The instruction is of rows 5 to 8. -/
def isSse2Row : Instr → Bool
  | .movdMmRm32 _ _ | .movqMmRm64 _ _ | .movdRm32Mm _ _ | .movqRm64Mm _ _ => false
  | .movdXmmRm32 _ _ | .movqXmmRm64 _ _ | .movdRm32Xmm _ _ | .movqRm64Xmm _ _ => true
  | .vmovdXmmRm32C4 _ _ _ | .vmovdXmmRm32C5 _ _ _ | .vmovqXmmRm64Vex _ _ _ => false
  | .vmovdRm32XmmC4 _ _ _ | .vmovdRm32XmmC5 _ _ _ | .vmovqRm64XmmVex _ _ _ => false
  | .vmovdXmmRm32Evex _ _ _ | .vmovqXmmRm64Evex _ _ _ => false
  | .vmovdRm32XmmEvex _ _ _ | .vmovqRm64XmmEvex _ _ _ => false

/-- The instruction is of rows 9 to 12. -/
def isVexRow : Instr → Bool
  | .movdMmRm32 _ _ | .movqMmRm64 _ _ | .movdRm32Mm _ _ | .movqRm64Mm _ _ => false
  | .movdXmmRm32 _ _ | .movqXmmRm64 _ _ | .movdRm32Xmm _ _ | .movqRm64Xmm _ _ => false
  | .vmovdXmmRm32C4 _ _ _ | .vmovdXmmRm32C5 _ _ _ | .vmovqXmmRm64Vex _ _ _ => true
  | .vmovdRm32XmmC4 _ _ _ | .vmovdRm32XmmC5 _ _ _ | .vmovqRm64XmmVex _ _ _ => true
  | .vmovdXmmRm32Evex _ _ _ | .vmovqXmmRm64Evex _ _ _ => false
  | .vmovdRm32XmmEvex _ _ _ | .vmovqRm64XmmEvex _ _ _ => false

/-- The instruction is of rows 13 to 16. -/
def isEvexRow : Instr → Bool
  | .movdMmRm32 _ _ | .movqMmRm64 _ _ | .movdRm32Mm _ _ | .movqRm64Mm _ _ => false
  | .movdXmmRm32 _ _ | .movqXmmRm64 _ _ | .movdRm32Xmm _ _ | .movqRm64Xmm _ _ => false
  | .vmovdXmmRm32C4 _ _ _ | .vmovdXmmRm32C5 _ _ _ | .vmovqXmmRm64Vex _ _ _ => false
  | .vmovdRm32XmmC4 _ _ _ | .vmovdRm32XmmC5 _ _ _ | .vmovqRm64XmmVex _ _ _ => false
  | .vmovdXmmRm32Evex _ _ _ | .vmovqXmmRm64Evex _ _ _ => true
  | .vmovdRm32XmmEvex _ _ _ | .vmovqRm64XmmEvex _ _ _ => true

/-- Rows 9 to 12 with these three-byte VEX fields and this operand. -/
def vex3Rows (pre : List PrefixItem) (v : Vex3) (m : ModRM) : List Instr :=
  [.vmovdXmmRm32C4 pre v m, .vmovqXmmRm64Vex pre v m, .vmovdRm32XmmC4 pre v m, .vmovqRm64XmmVex pre v m]

/-- Rows 9 and 11 with these two-byte VEX fields and this operand. -/
def vex2Rows (pre : List PrefixItem) (v : Vex2) (m : ModRM) : List Instr :=
  [.vmovdXmmRm32C5 pre v m, .vmovdRm32XmmC5 pre v m]

/-- Rows 13 to 16 with these EVEX fields and this operand. -/
def evexRows (pre : List PrefixItem) (e : Evex) (m : ModRM) : List Instr :=
  [.vmovdXmmRm32Evex pre e m, .vmovqXmmRm64Evex pre e m, .vmovdRm32XmmEvex pre e m, .vmovqRm64XmmEvex pre e m]

/-! ## Memory operands -/

/-- The linear address of an instruction's memory operand. -/
def operandAddr (s : State) (a : RmArgs) : Word64 := linear s (operandSeg s.mode a) (effAddr s a)

/-- The access is carried out: no segment-level exception, none of the platform's table, no page fault, no alignment
fault, ordinary memory, and a store touches no program byte (20_memory.md R56, R58, R59, R63, R70). -/
structure Admits (s : State) (seg : Seg) (off : Word64) (w : Width) (k : Access) : Prop where
  segment : segAdmits s seg off w.bytes k = true
  platform : accessException s seg off w.bytes k = none
  page : pageFault s (linear s seg off) w.bytes k = none
  aligned : alignFault s (linear s seg off) w.bytes = false
  ordinary : touchesDevice s (linear s seg off) w.bytes = false
  notProgram : k = .write → touchesProgram s (linear s seg off) w.bytes = false

/-- Byte `k` of a memory operand at `la`, in the state's mode. -/
def operandByte (s : State) (la : Word64) (k : Nat) : Nat := byteAddr s.mode la k

/-- The r/m operand can be read and its value is `v`: the low bits of the register (10_state.md R24), or the admitted
memory bytes, the byte at the lowest address the least significant (20_memory.md R50). -/
def RmReads (w : Width) (s : State) (a : RmArgs) (v : BitVec w.bits) : Prop :=
  match a.rm with
  | .direct r => v = (readGpr s (regNum s.mode a.b r)).setWidth w.bits
  | _ =>
    Admits s (operandSeg s.mode a) (effAddr s a) w .read ∧
      ∀ k, k < w.bytes → v.extractLsb' (8 * k) 8 = s.mem.read (operandByte s (operandAddr s a) k)

/-- The address is one of the operand's bytes. -/
def InOperand (s : State) (la : Word64) (w : Width) (x : Nat) : Prop := ∃ k, k < w.bytes ∧ x = operandByte s la k

/-- Memory `mem'` is the state's memory with `v` stored at `la`, its least significant byte at the lowest address, and
no other byte changed (20_memory.md R50, R57). -/
def StoredAt (w : Width) (s : State) (la : Word64) (v : BitVec w.bits) (mem' : Memory) : Prop :=
  (∀ k, k < w.bytes → mem'.read (operandByte s la k) = v.extractLsb' (8 * k) 8) ∧
    ∀ x, ¬ InOperand s la w x → mem'.read x = s.mem.read x

/-- Translate answers an exception for the memory operand (20_memory.md R60, R61, 60_exceptions.md R181). -/
def OperandFaults (w : Width) (s : State) (a : RmArgs) (k : Access) (f : Fault) : Prop :=
  rmIsReg a.rm = false ∧ translate s (operandSeg s.mode a) (effAddr s a) w.bytes k = .fault f

/-- Translate admits the memory operand, and the spec refuses it: it lies outside ordinary memory, or it is a store that
touches a program byte (20_memory.md R63, R70). -/
def OperandRefused (w : Width) (s : State) (a : RmArgs) (k : Access) (r : Refusal) : Prop :=
  rmIsReg a.rm = false ∧ ∃ la, translate s (operandSeg s.mode a) (effAddr s a) w.bytes k = .next la ∧
    ((touchesDevice s la w.bytes = true ∧ r = .notWriteBack) ∨
      (touchesDevice s la w.bytes = false ∧ k = .write ∧ touchesProgram s la w.bytes = true ∧ r = .storeToProgram))

/-- In every family, a row that is past its gate and whose memory operand stops as `Stop` says answers `out`: the loading
rows with a read, the storing rows with a write, of the row's width. -/
def RowsAnswer (Stop : Width → RmArgs → Access → Prop) (s : State) (out : Res State) : Prop :=
  (∀ pre m, IpFits s (legLen pre m) → MmxReady s pre →
    (Stop .dword (legArgs pre m) .read → exec (.movdMmRm32 pre m) s = out) ∧
    (Stop .dword (legArgs pre m) .write → exec (.movdRm32Mm pre m) s = out) ∧
    (s.mode = .m64 → Stop .qword (legArgs pre m) .read → exec (.movqMmRm64 pre m) s = out) ∧
    (s.mode = .m64 → Stop .qword (legArgs pre m) .write → exec (.movqRm64Mm pre m) s = out)) ∧
  (∀ pre m, IpFits s (legLen pre m) → Sse2Ready s pre →
    (Stop .dword (legArgs pre m) .read → exec (.movdXmmRm32 pre m) s = out) ∧
    (Stop .dword (legArgs pre m) .write → exec (.movdRm32Xmm pre m) s = out) ∧
    (s.mode = .m64 → Stop .qword (legArgs pre m) .read → exec (.movqXmmRm64 pre m) s = out) ∧
    (s.mode = .m64 → Stop .qword (legArgs pre m) .write → exec (.movqRm64Xmm pre m) s = out)) ∧
  (∀ pre v m, IpFits s (vex3Len pre m) → Vex3Ready s pre v →
    (Stop .dword (vex3Args pre v m) .read → exec (.vmovdXmmRm32C4 pre v m) s = out) ∧
    (Stop .dword (vex3Args pre v m) .write → exec (.vmovdRm32XmmC4 pre v m) s = out) ∧
    (s.mode = .m64 → Stop .qword (vex3Args pre v m) .read → exec (.vmovqXmmRm64Vex pre v m) s = out) ∧
    (s.mode = .m64 → Stop .qword (vex3Args pre v m) .write → exec (.vmovqRm64XmmVex pre v m) s = out)) ∧
  (∀ pre v m, IpFits s (vex2Len pre m) → VexReady s pre v.l v.vvvv →
    (Stop .dword (vex2Args pre m) .read → exec (.vmovdXmmRm32C5 pre v m) s = out) ∧
    (Stop .dword (vex2Args pre m) .write → exec (.vmovdRm32XmmC5 pre v m) s = out)) ∧
  (∀ pre e m, IpFits s (evexLen pre m) → EvexReady s pre e m →
    (Stop .dword (evexArgs pre e m .dword) .read → exec (.vmovdXmmRm32Evex pre e m) s = out) ∧
    (Stop .dword (evexArgs pre e m .dword) .write → exec (.vmovdRm32XmmEvex pre e m) s = out) ∧
    (s.mode = .m64 → Stop .qword (evexArgs pre e m .qword) .read → exec (.vmovqXmmRm64Evex pre e m) s = out) ∧
    (s.mode = .m64 → Stop .qword (evexArgs pre e m .qword) .write → exec (.vmovqRm64XmmEvex pre e m) s = out))

/-! ## Addresses, in exact arithmetic (30_encoding.md R100 to R104) -/

/-- A, the address size in bits (R100). -/
def addrBits : AddrSize → Nat
  | .a16 => 16
  | .a32 => 32
  | .a64 => 64

/-- The displacement as a signed number, an 8-bit one times N (R103, R104). -/
def dispInt (n : Nat) : Disp → Int
  | .none => 0
  | .d8 d => d.toInt * n
  | .d32 d => d.toInt

/-- The displacement of a 16-bit address as a signed number (R102, R103). -/
def dispInt16 : Disp16 → Int
  | .none => 0
  | .d8 d => d.toInt
  | .d16 d => d.toInt

/-- The number of a general register from its extension bit and field: in M64 the bit counts eight, in M32 it is 0
(R106, R107). -/
def fullNum (mode : Mode) (e : Bool) (r : BitVec 3) : Nat := (if mode = .m64 ∧ e = true then 8 else 0) + r.toNat

/-- The index register's value times 2^ss; number 4 is no index (R101). -/
def scaledIndex (s : State) (x : Bool) (ss : BitVec 2) (index : BitVec 3) : Nat :=
  if fullNum s.mode x index = 4 then 0
  else (readGpr s (BitVec.ofNat 4 (fullNum s.mode x index))).toNat * 2 ^ ss.toNat

/-- The registers of a 16-bit address by rm: BX, BP, SI and DI are numbers 3, 5, 6 and 7 (R102). -/
def regs16 (rm : BitVec 3) : List (BitVec 4) :=
  [[3, 6], [3, 7], [5, 6], [5, 7], [6], [7], [5], [3]].getD rm.toNat []

/-- The prefix byte is a segment override. -/
def isSegOverride : PrefixItem → Bool
  | .seg _ => true
  | _ => false

/-! ## What stays -/

/-- Flags, MXCSR, control registers, mode, privilege level, segments, program, platform and the pending x87 exception
are the same. -/
def SameControl (s t : State) : Prop :=
  t.mxcsr = s.mxcsr ∧ t.eflags = s.eflags ∧ t.mode = s.mode ∧ t.realOrV86 = s.realOrV86 ∧
    t.codeDefault16 = s.codeDefault16 ∧ t.cr0 = s.cr0 ∧ t.cr4 = s.cr4 ∧ t.xcr0 = s.xcr0 ∧ t.cpl = s.cpl ∧
    t.segs = s.segs ∧ t.program = s.program ∧ t.plat = s.plat ∧ t.x87Pending = s.x87Pending

/-- The x87 data registers, top of stack and tag word are the same. -/
def SameX87 (s t : State) : Prop := t.x87 = s.x87 ∧ t.x87Top = s.x87Top ∧ t.x87Tags = s.x87Tags

/-- Every general register but `n` is the same. -/
def SameGprExcept (n : BitVec 4) (s t : State) : Prop := ∀ k, k ≠ n → readGpr t k = readGpr s k

/-- Every vector register but `n` is the same. -/
def SameVecExcept (n : BitVec 5) (s t : State) : Prop := ∀ k, k ≠ n → readVec t k = readVec s k

/-- Every byte of memory is the same. -/
def SameMem (s t : State) : Prop := ∀ x, t.mem.read x = s.mem.read x

/-- The answer with its next state changed by `f`. -/
def mapNext (f : State → State) : Res State → Res State
  | .next t => .next (f t)
  | .fault r => .fault r
  | .refused r => .refused r

/-! ## The invariant -/

/-- In M32 the register file is eight 32-bit registers: each is stored zero-extended and the upper eight are zero
(10_state.md R20, R33; log 17). -/
def RegsFit (s : State) : Prop :=
  s.mode = .m32 → s.rip.toNat < 2 ^ 32 ∧ ∀ n, readGpr s n < 2 ^ 32 ∧ (8 ≤ n → readGpr s n = 0)

/-- A vector register has MAXVL bits (10_state.md R26; log 18). -/
def VecFit (s : State) : Prop := ∀ n j, s.plat.maxvl.bits ≤ j → (readVec s n).getLsbD j = false

/-- The invariant: canonical memory, registers of their width, vector registers of MAXVL bits. -/
structure Inv (s : State) : Prop where
  mem : s.mem.wf = true
  regs : RegsFit s
  vecs : VecFit s

end Sys2Proof.Machine
end

