-- ==== Sys2Proof/Certificates/Slice0/Obligations.lean ====
section
/-! DEFINITION. The statements for the provers, each the formal reading of rules of spec/ that its docstring cites. -/

open Sys2Proof Sys2Proof.Machine

/-! ## Reset -/

/-- 70_reset_and_hazards.md R211: where and in what mode the first instruction after reset is fetched. -/
def Obligations.ResetFetchesAtResetVector : Prop :=
  codeAddr State.reset 0 = 0xFFFFFFF0 ∧ State.reset.rip = 0xFFF0 ∧ State.reset.segs.cs.base = 0xFFFF0000 ∧
    State.reset.inRealOrV86 = true ∧ State.reset.cpl = 0 ∧ State.reset.eflags = 2

/-- 10_state.md R40: every value the table gives for the state after reset. (EAX is 0 by log 1; memory, the segment limits
and rights and the platform, for which the table gives none, are the model's choices, logs 3, 5, 6, and are not stated
here; of EDX only the table's "not zero" is said.) -/
def Obligations.ResetHasTabulatedValues : Prop :=
  (∀ n : BitVec 4, n ≠ 2 → readGpr State.reset n = 0) ∧ readGpr State.reset 2 ≠ 0 ∧
    (∀ n : BitVec 3, State.reset.x87[n.toNat]'n.isLt = 0 ∧ readMm State.reset n = 0) ∧
    State.reset.x87Tags = 0x5555 ∧ State.reset.x87Top = 0 ∧
    (∀ n : BitVec 5, readVec State.reset n = 0) ∧ State.reset.mxcsr = 0x1F80 ∧
    State.reset.eflags = 2 ∧ State.reset.eflagsAC = false ∧
    State.reset.rip = 0xFFF0 ∧ State.reset.segs.cs.base = 0xFFFF0000 ∧ codeAddr State.reset 0 = 0xFFFFFFF0 ∧
    State.reset.mode = .m32 ∧ State.reset.realOrV86 = true ∧ State.reset.codeDefault16 = true ∧
    State.reset.cr0 = 0x60000010 ∧ State.reset.cr4 = 0 ∧ State.reset.xcr0 = 1 ∧ State.reset.cpl = 0 ∧
    (∀ g : Seg, g ≠ .cs → (State.reset.segs.get g).base = 0)

/-- 10_state.md R40, R176 to R180: right after reset every instruction of rows 5 to 16 that is not longer than 15 bytes
and does not run past the code segment, whose limit is log 5's choice, raises #UD. -/
def Obligations.ResetRaisesUDOutsideMmxRows : Prop :=
  ∀ i : Instr, isMmxRow i = false → IpFits State.reset i.ilen → exec i State.reset = .fault (.ud 0xFFF0)

/-- 10_state.md R41: an INIT keeps the x87/MMX data registers, the vector registers and MXCSR, and gives the general
registers, the instruction pointer, the flags, the control registers, the mode with both of its parts, the segments and
the privilege level their values after reset (which for EAX, EDX and the segment limits are the model's, logs 1, 2, 5).
That the top of stack, the tag word and a pending x87 exception are kept too, and memory, the program and the platform,
is the model's choice (log 20). -/
def Obligations.InitKeepsRegisterFiles : Prop :=
  ∀ s : State, s.afterInit.x87 = s.x87 ∧ s.afterInit.vec = s.vec ∧ s.afterInit.mxcsr = s.mxcsr ∧
    (s.afterInit.x87Top = s.x87Top ∧ s.afterInit.x87Tags = s.x87Tags ∧ s.afterInit.x87Pending = s.x87Pending ∧
      s.afterInit.mem = s.mem ∧ s.afterInit.program = s.program ∧ s.afterInit.plat = s.plat) ∧
    s.afterInit.gpr = State.reset.gpr ∧ s.afterInit.rip = State.reset.rip ∧ s.afterInit.eflags = State.reset.eflags ∧
    s.afterInit.cr0 = State.reset.cr0 ∧ s.afterInit.cr4 = State.reset.cr4 ∧ s.afterInit.xcr0 = State.reset.xcr0 ∧
    s.afterInit.mode = State.reset.mode ∧ s.afterInit.realOrV86 = State.reset.realOrV86 ∧
    s.afterInit.codeDefault16 = State.reset.codeDefault16 ∧ s.afterInit.segs = State.reset.segs ∧
    s.afterInit.cpl = State.reset.cpl

/-- The invariant `Inv`, the model's own (logs 6, 17, 18), holds after reset. -/
def Obligations.ResetMeetsInv : Prop := Inv State.reset

/-! ## Encoding -/

/-- 30_encoding.md R84 to R113, R118: decoding the bytes of a well-formed instruction, whatever bytes follow, gives
that instruction with all its fields, and leaves the bytes that follow. -/
def Obligations.DecodeOfEncode : Prop :=
  ∀ (cm : CodeMode) (i : Instr) (rest : List Byte), i.wf cm = true → decode cm (encode i ++ rest) = .ok i rest

/-- The other direction: bytes that decode to an instruction are the bytes of that instruction, which is well formed. -/
def Obligations.EncodeOfDecode : Prop :=
  ∀ (cm : CodeMode) (bytes rest : List Byte) (i : Instr), decode cm bytes = .ok i rest →
    i.wf cm = true ∧ bytes = encode i ++ rest

/-- 30_encoding.md R80, R94, R95, R97: words written out from the rules' encodings decode to their instructions. -/
def Obligations.SampleWordsDecode : Prop :=
  decode ⟨.m64, false⟩ [0x0F, 0x6E, 0xC8] = .ok (.movdMmRm32 [] ⟨1, .direct 0⟩) [] ∧
  decode ⟨.m64, false⟩ [0x66, 0x48, 0x0F, 0x7E, 0x03] =
    .ok (.movqRm64Xmm [.opSize, .rex ⟨true, false, false, false⟩] ⟨0, .plain 3 .none⟩) [] ∧
  decode ⟨.m64, false⟩ [0xC5, 0x79, 0x6E, 0xC0] =
    .ok (.vmovdXmmRm32C5 [] ⟨true, 15, false⟩ ⟨0, .direct 0⟩) [] ∧
  decode ⟨.m64, false⟩ [0xC4, 0xC1, 0xF9, 0x7E, 0xC0] =
    .ok (.vmovqRm64XmmVex [] ⟨false, false, true, true, 15, false⟩ ⟨0, .direct 0⟩) [] ∧
  decode ⟨.m64, false⟩ [0x62, 0xE1, 0xFD, 0x08, 0x7E, 0x48, 0x01] =
    .ok (.vmovqRm64XmmEvex [] ⟨false, false, false, true, true, 15, false, 0, false, true, 0⟩
      ⟨1, .plain 0 (.d8 1)⟩) []

/-- 30_encoding.md R86: with F2 or F3 among the prefixes `0F 6E` and `0F 7E` are no instruction of the group. -/
def Obligations.RepPrefixIsNotOfTheGroup : Prop :=
  ∀ (cm : CodeMode) (pre : List PrefixItem) (op : Byte) (rest : List Byte), prefixesWf cm.mode pre = true →
    hasRep pre = true → op = 0x6E ∨ op = 0x7E →
    decode cm (prefixBytes pre ++ 0x0F :: op :: rest) = .reject .repPrefix

/-- 30_encoding.md R81, R118: in M32 the bytes of the W1 rows 10, 12, 14 and 16 decode to rows 9, 11, 13 and 15. -/
def Obligations.W1BytesDecodeToW0RowsInM32 : Prop :=
  ∀ (d : Bool) (pre : List PrefixItem) (v : Vex3) (e : Evex) (m : ModRM) (rest : List Byte),
    prefixesWf .m32 pre = true → m.wf ⟨.m32, d⟩ pre = true → v.r = false → v.x = false → e.r = false → e.x = false →
    decode ⟨.m32, d⟩ (encode (.vmovqXmmRm64Vex pre v m) ++ rest) = .ok (.vmovdXmmRm32C4 pre v m) rest ∧
    decode ⟨.m32, d⟩ (encode (.vmovqRm64XmmVex pre v m) ++ rest) = .ok (.vmovdRm32XmmC4 pre v m) rest ∧
    decode ⟨.m32, d⟩ (encode (.vmovqXmmRm64Evex pre e m) ++ rest) = .ok (.vmovdXmmRm32Evex pre e m) rest ∧
    decode ⟨.m32, d⟩ (encode (.vmovqRm64XmmEvex pre e m) ++ rest) = .ok (.vmovdRm32XmmEvex pre e m) rest

/-! ## Steps -/

/-- 00_scope.md R12: when the bytes at the instruction pointer decode to an instruction, the step executes it. -/
def Obligations.StepRunsDecodedInstruction : Prop :=
  ∀ (s : State) (i : Instr) (rest : List Byte), decode s.codeMode (fetch s) = .ok i rest → step s = exec i s

/-- 00_scope.md R12, 20_memory.md R51: a well-formed instruction of at most 15 bytes whose bytes stand in the program
at the instruction pointer, lowest address first, is the instruction the step executes. That the
program is a range of addresses (log 7), that no fault of fetching comes first, whatever the platform says of those
addresses (log 68: such a run must assume R214 (f)), and that in M32 the addresses of the bytes wrap at linear 2^32
(log 67) is the model's choice. -/
def Obligations.StepRunsInstructionInMemory : Prop :=
  ∀ (s : State) (i : Instr), i.wf s.codeMode = true → IpFits s i.ilen →
    (∀ k, k < i.ilen → inProgram s k = true ∧ (encode i)[k]? = some (s.mem.read (codeAddr s k))) →
    step s = exec i s

/-- The invariant `Inv`, the model's own (logs 6, 17, 18), is kept by every step, from every state that has it. -/
def Obligations.StepKeepsInv : Prop := ∀ s t : State, Inv s → step s = .next t → Inv t

/-- 10_state.md R32, R35, R37, 60_exceptions.md R190: no step changes a flag, MXCSR, a control register, the mode, the
privilege level, a segment register or a parameter of the run. -/
def Obligations.StepKeepsControlState : Prop := ∀ s t : State, step s = .next t → SameControl s t

/-- 20_memory.md R70: no step changes a byte of the program (any byte of an operand lies inside the address space;
the program as a range of addresses is log 7's choice). -/
def Obligations.StepKeepsProgramBytes : Prop :=
  ∀ s t : State, step s = .next t → ∀ a, isProgramByte s a = true → t.mem.read a = s.mem.read a

/-- 10_state.md R33, R34: an instruction that completes moves the instruction pointer to the next instruction, without
wrapping; one that would wrap it has no meaning (where exactly it would is log 14's reading). -/
def Obligations.CompletionAdvancesIp : Prop :=
  ∀ (i : Instr) (s : State),
    (∀ t, exec i s = .next t → t.rip.toNat = s.rip.toNat + i.ilen) ∧
    (ipOk s i.ilen = false → exec i s = .refused .ipWrap)

/-! ## Exceptions -/

/-- 60_exceptions.md R182: the vector numbers, and the error codes. -/
def Obligations.ExceptionTable : Prop :=
  ∀ (ip a : Word64) (c : Word32),
    (Fault.ud ip).vector = 6 ∧ (Fault.nm ip).vector = 7 ∧ (Fault.ss ip).vector = 12 ∧ (Fault.gp ip).vector = 13 ∧
    (Fault.pf ip c a).vector = 14 ∧ (Fault.mf ip).vector = 16 ∧ (Fault.ac ip).vector = 17 ∧
    (Fault.ud ip).errorCode = none ∧ (Fault.nm ip).errorCode = none ∧ (Fault.mf ip).errorCode = none ∧
    (Fault.gp ip).errorCode = some 0 ∧ (Fault.ss ip).errorCode = some 0 ∧ (Fault.ac ip).errorCode = some 0 ∧
    (Fault.pf ip c a).errorCode = some c

/-- 60_exceptions.md R182, R186: the saved instruction pointer of every exception is the address of the instruction. -/
def Obligations.FaultsSaveInstructionAddress : Prop :=
  ∀ (s : State) (f : Fault), step s = .fault f → f.savedIp = s.rip

/-- 60_exceptions.md R181: with mod = 11b no #SS, #PF or #AC is raised, and #GP only for the length (R174). -/
def Obligations.RegisterFormsRaiseNoMemoryFault : Prop :=
  ∀ (i : Instr) (s : State) (r : BitVec 3), i.modrm.rm = .direct r → i.ilen ≤ maxIlen →
    ∀ f, exec i s = .fault f → f = .ud s.rip ∨ f = .nm s.rip ∨ f = .mf s.rip

/-- 60_exceptions.md R174: an instruction longer than 15 bytes raises #GP(0), before any exception of
R184's list but a fault of fetching, which the spec leaves outside. The second clause says it of the machine: a step that
finds such an instruction in the program raises #GP(0). That the program is a range of addresses (log 7), that its length
is read off all of its bytes (log 15), that no fault of fetching comes first (log 68: such a run must assume R214 (f)),
and that in M32 the addresses of the bytes wrap at linear 2^32 (log 67) is the model's choice. -/
def Obligations.LongInstructionsRaiseGP : Prop :=
  (∀ (i : Instr) (s : State), ipOk s i.ilen = true → 15 < i.ilen → exec i s = .fault (.gp s.rip)) ∧
  ∀ (s : State) (i : Instr), i.wf s.codeMode = true → ipOk s i.ilen = true → 15 < i.ilen →
    (∀ k, k < i.ilen → inProgram s k = true ∧ (encode i)[k]? = some (s.mem.read (codeAddr s k))) →
    step s = .fault (.gp s.rip)

/-- 30_encoding.md R90, 60_exceptions.md R175: an F0 prefix raises #UD, for every format. -/
def Obligations.LockPrefixRaisesUD : Prop :=
  ∀ (i : Instr) (s : State), IpFits s i.ilen → hasLock i.prefixes = true → exec i s = .fault (.ud s.rip)

/-- 60_exceptions.md R176: an instruction whose CPUID feature flag is 0 raises #UD. -/
def Obligations.MissingFeatureRaisesUD : Prop :=
  ∀ (i : Instr) (s : State), IpFits s i.ilen → hasFeature s.plat i = false → exec i s = .fault (.ud s.rip)

/-- 60_exceptions.md R177: the gate of rows 1 to 4, in order; CR4 is not consulted. -/
def Obligations.MmxRowsGate : Prop :=
  ∀ (i : Instr) (s : State), isMmxRow i = true → IpFits s i.ilen → hasLock i.prefixes = false →
    s.plat.hasMMX = true →
    (s.cr0EM = true → exec i s = .fault (.ud s.rip)) ∧
    (s.cr0EM = false → s.cr0TS = true → exec i s = .fault (.nm s.rip)) ∧
    (s.cr0EM = false → s.cr0TS = false → s.x87Pending = true → exec i s = .fault (.mf s.rip)) ∧
    ∀ c, exec i { s with cr4 := c } = mapNext (fun t => { t with cr4 := c }) (exec i s)

/-- 60_exceptions.md R178: the gate of rows 5 to 8, in order. -/
def Obligations.SseRowsGate : Prop :=
  ∀ (i : Instr) (s : State), isSse2Row i = true → IpFits s i.ilen →
    (s.cr0EM = true ∨ s.cr4OSFXSR = false → exec i s = .fault (.ud s.rip)) ∧
    (s.cr0EM = false → s.cr4OSFXSR = true → hasLock i.prefixes = false → s.plat.hasSSE2 = true → s.cr0TS = true →
      exec i s = .fault (.nm s.rip))

/-- 60_exceptions.md R179: the gate of rows 9 to 12: real-address and virtual-8086 mode, OSXSAVE and XCR0[2:1] are
#UD, then CR0.TS is #NM; CR0.EM and CR4.OSFXSR are not consulted: of CR0 and CR4 only CR0.TS, CR0.AM (the alignment
check) and CR4.OSXSAVE matter. -/
def Obligations.VexRowsGate : Prop :=
  (∀ (i : Instr) (s : State), isVexRow i = true → IpFits s i.ilen →
    s.inRealOrV86 = true ∨ s.cr4OSXSAVE = false ∨ s.xcr0Avx = false → exec i s = .fault (.ud s.rip)) ∧
  (∀ pre v m s, IpFits s (vex3Len pre m) → badVexPrefix pre = false → s.plat.hasAVX = true →
    s.inRealOrV86 = false → s.cr4OSXSAVE = true → s.xcr0Avx = true → v.l = false → v.vvvv = 15 → s.cr0TS = true →
    ∀ i ∈ vex3Rows pre v m, exec i s = .fault (.nm s.rip)) ∧
  (∀ pre v m s, IpFits s (vex2Len pre m) → badVexPrefix pre = false → s.plat.hasAVX = true →
    s.inRealOrV86 = false → s.cr4OSXSAVE = true → s.xcr0Avx = true → v.l = false → v.vvvv = 15 → s.cr0TS = true →
    ∀ i ∈ vex2Rows pre v m, exec i s = .fault (.nm s.rip)) ∧
  (∀ (i : Instr) (s : State) (c0 c4 : Word32), isVexRow i = true → c0.getLsbD 3 = s.cr0.getLsbD 3 →
    c0.getLsbD 18 = s.cr0.getLsbD 18 → c4.getLsbD 18 = s.cr4.getLsbD 18 →
    exec i { s with cr0 := c0, cr4 := c4 } = mapNext (fun t => { t with cr0 := c0, cr4 := c4 }) (exec i s))

/-- 60_exceptions.md R180: the gate of rows 13 to 16: real-address and virtual-8086 mode, OSXSAVE, XCR0[2:1] and
XCR0[7:5] are #UD, then CR0.TS is #NM. -/
def Obligations.EvexRowsGate : Prop :=
  (∀ (i : Instr) (s : State), isEvexRow i = true → IpFits s i.ilen →
    s.inRealOrV86 = true ∨ s.cr4OSXSAVE = false ∨ s.xcr0Avx = false ∨ s.xcr0Avx512 = false →
    exec i s = .fault (.ud s.rip)) ∧
  (∀ pre e m s, IpFits s (evexLen pre m) → badVexPrefix pre = false → s.plat.hasAVX512F = true →
    s.inRealOrV86 = false → s.cr4OSXSAVE = true → s.xcr0Avx = true → s.xcr0Avx512 = true → evexFieldsOk e = true →
    s.cr0TS = true → ∀ i ∈ evexRows pre e m, exec i s = .fault (.nm s.rip))

/-- 42_vmovd_vmovq_vex.md R155: VEX.L = 1, or a stored VEX.vvvv other than 1111b, raises #UD. -/
def Obligations.VexReservedFieldsRaiseUD : Prop :=
  (∀ pre v m s, IpFits s (vex3Len pre m) → v.l = true ∨ v.vvvv ≠ 15 →
    ∀ i ∈ vex3Rows pre v m, exec i s = .fault (.ud s.rip)) ∧
  (∀ pre v m s, IpFits s (vex2Len pre m) → v.l = true ∨ v.vvvv ≠ 15 →
    ∀ i ∈ vex2Rows pre v m, exec i s = .fault (.ud s.rip))

/-- 43_vmovd_vmovq_evex.md R165: a stored EVEX.vvvv other than 1111b, L'L, aaa, z or b other than zero, or a stored V'
of 0, raises #UD (for the fields other than vvvv the spec's own decision D11; log 19). -/
def Obligations.EvexReservedFieldsRaiseUD : Prop :=
  ∀ pre e m s, IpFits s (evexLen pre m) →
    e.vvvv ≠ 15 ∨ e.ll ≠ 0 ∨ e.aaa ≠ 0 ∨ e.z = true ∨ e.bc = true ∨ e.vBar' = false →
    ∀ i ∈ evexRows pre e m, exec i s = .fault (.ud s.rip)

/-- 30_encoding.md R122: a 66, F2, F3, F0 or REX byte before a VEX or EVEX prefix raises #UD (any REX byte
there: log 16). -/
def Obligations.ForbiddenByteBeforeVexRaisesUD : Prop :=
  ∀ (i : Instr) (s : State) (p : PrefixItem), isVexRow i = true ∨ isEvexRow i = true → IpFits s i.ilen →
    p ∈ i.prefixes → p = .opSize ∨ p = .repne ∨ p = .rep ∨ p = .lock ∨ p.isRex = true →
    exec i s = .fault (.ud s.rip)

/-- 92_eei_decisions.md D12, D13 (a) to (d): the encodings the spec refuses, once no exception applies (that
order is log 13's reading). -/
def Obligations.UnvouchedVexFormsAreRefused : Prop :=
  (∀ pre v m s, IpFits s (vex3Len pre m) → udVex s pre v.l v.vvvv = false → s.cr0TS = false →
    (s.mode = .m32 → v.b = true → ∀ i ∈ vex3Rows pre v m, exec i s = .refused .vexB32) ∧
    (v.b = false → addrSize s.codeMode pre = .a16 →
      ∀ i ∈ vex3Rows pre v m, exec i s = .refused .vexAddr16)) ∧
  (∀ pre v m s, IpFits s (vex2Len pre m) → udVex s pre v.l v.vvvv = false → s.cr0TS = false →
    addrSize s.codeMode pre = .a16 → ∀ i ∈ vex2Rows pre v m, exec i s = .refused .vexAddr16) ∧
  (∀ pre e m s, IpFits s (evexLen pre m) → udEvex s pre e = false → s.cr0TS = false →
    (s.mode = .m32 → e.b = true ∨ e.r' = true → ∀ i ∈ evexRows pre e m, exec i s = .refused .evexExt32) ∧
    (e.b = false → e.r' = false → addrSize s.codeMode pre = .a16 →
      ∀ i ∈ evexRows pre e m, exec i s = .refused .vexAddr16) ∧
    (s.mode = .m64 → rmIsReg m.rm = true → e.x = true →
      ∀ i ∈ evexRows pre e m, exec i s = .refused .evexRegX) ∧
    (s.mode = .m32 → e.b = false → e.r' = false → addrSize s.codeMode pre = .a32 → e.w = true →
      rmIsDisp8 m.rm = true → ∀ i ∈ evexRows pre e m, exec i s = .refused .evexDisp8W))

/-! ## Memory accesses -/

/-- 20_memory.md R56: the alignment check. (That an aligned access never raises #AC is R54.) -/
def Obligations.AlignmentCheckRaisesAC : Prop :=
  ∀ (s : State) (seg : Seg) (off : Word64) (w : Width) (k : Access),
    (s.alignCheck = (s.cr0.getLsbD 18 && s.eflags.getLsbD 18 && decide (s.cpl = 3))) ∧
    (s.alignCheck = true → segAdmits s seg off w.bytes k = true → accessException s seg off w.bytes k = none →
      pageFault s (linear s seg off) w.bytes k = none → (linear s seg off).toNat % w.bytes ≠ 0 →
      translate s seg off w.bytes k = .fault (.ac s.rip)) ∧
    (s.alignCheck = false → translate s seg off w.bytes k ≠ .fault (.ac s.rip)) ∧
    ((linear s seg off).toNat % w.bytes = 0 → translate s seg off w.bytes k ≠ .fault (.ac s.rip))

/-- 20_memory.md R59: a non-canonical byte of an operand raises #SS(0) through SS and #GP(0) through another segment in
M64; in M32 an offset past the limit, or a segment without the right the access needs, does; and in real-address and
virtual-8086 mode any byte past FFFFH is #GP(0). (The limit is the last offset inside: log 24.) -/
def Obligations.IllegalAddressesRaiseSSOrGP : Prop :=
  ∀ (s : State) (seg : Seg) (off : Word64) (w : Width) (k : Access),
    (s.mode = .m64 → (∃ j, j < w.bytes ∧ canonical s.plat.vaBits (linear s seg off + BitVec.ofNat 64 j) = false) →
      translate s seg off w.bytes k = .fault (if seg = .ss then .ss s.rip else .gp s.rip)) ∧
    (s.mode = .m32 → s.realOrV86 = true → 0xFFFF < off.toNat + (w.bytes - 1) →
      translate s seg off w.bytes k = .fault (.gp s.rip)) ∧
    (s.mode = .m32 → s.realOrV86 = false → (s.segs.get seg).limit.toNat < off.toNat + (w.bytes - 1) →
      translate s seg off w.bytes k = .fault (if seg = .ss then .ss s.rip else .gp s.rip)) ∧
    (s.mode = .m32 → s.realOrV86 = false →
      (k = .read ∧ (s.segs.get seg).readable = false) ∨ (k = .write ∧ (s.segs.get seg).writable = false) →
      translate s seg off w.bytes k = .fault (if seg = .ss then .ss s.rip else .gp s.rip))

/-- 20_memory.md R58, R60, R61, 60_exceptions.md R181, R184: a data access raises whatever Translate raises, and writes
nothing then; Translate raises what the platform's table has for the access, then the #PF of its regions, once R59 has
let the access through and whatever the alignment (log 10: the platform as data; log 12: the address of a region's #PF);
and in every family an instruction that passes its gate and whose memory operand Translate refuses answers that fault. -/
def Obligations.AccessesRaiseWhatTranslateRaises : Prop :=
  (∀ (w : Width) (s : State) (a : RmArgs) (f : Fault), rmIsReg a.rm = false →
    (translate s (operandSeg s.mode a) (effAddr s a) w.bytes .read = .fault f → readRM w s a = .fault f) ∧
    (translate s (operandSeg s.mode a) (effAddr s a) w.bytes .write = .fault f →
      ∀ v, writeRM w s a v = .fault f)) ∧
  (∀ (w : Width) (s : State) (seg : Seg) (off : Word64) (k : Access), segAdmits s seg off w.bytes k = true →
    (accessException s seg off w.bytes k = some .gp → translate s seg off w.bytes k = .fault (.gp s.rip)) ∧
    (accessException s seg off w.bytes k = some .ss → translate s seg off w.bytes k = .fault (.ss s.rip)) ∧
    (∀ code addr, accessException s seg off w.bytes k = some (.pf code addr) →
      translate s seg off w.bytes k = .fault (.pf s.rip code addr)) ∧
    (∀ code addr, accessException s seg off w.bytes k = none →
      pageFault s (linear s seg off) w.bytes k = some (code, addr) →
      translate s seg off w.bytes k = .fault (.pf s.rip code addr))) ∧
  ∀ (s : State) (f : Fault), RowsAnswer (fun w a k => OperandFaults w s a k f) s (.fault f)

/-- 20_memory.md R53: a doubleword read of a stored quadword gives its low half at the same address and its high half
four bytes on. -/
def Obligations.QuadwordStoreReadAsDoublewords : Prop :=
  ∀ (s : State) (la : Word64) (v : BitVec 64),
    loadLE (setMem s (s.mem.writeAll (operandCells s.mode la .qword v))) la .dword = v.extractLsb' 0 32 ∧
    loadLE (setMem s (s.mem.writeAll (operandCells s.mode la .qword v))) (la + 4) .dword = v.extractLsb' 32 32

/-- 20_memory.md R70, R63: an admitted store that touches a program byte, and an operand outside ordinary memory, are
refused, by the access and by every instruction that makes it (logs 7, 10, 23). -/
def Obligations.StoresToProgramAndDevicesAreRefused : Prop :=
  (∀ (w : Width) (s : State) (a : RmArgs) (la : Word64), rmIsReg a.rm = false →
    (translate s (operandSeg s.mode a) (effAddr s a) w.bytes .write = .next la →
      (touchesDevice s la w.bytes = true → ∀ v, writeRM w s a v = .refused .notWriteBack) ∧
      (touchesDevice s la w.bytes = false → touchesProgram s la w.bytes = true →
        ∀ v, writeRM w s a v = .refused .storeToProgram)) ∧
    (translate s (operandSeg s.mode a) (effAddr s a) w.bytes .read = .next la →
      touchesDevice s la w.bytes = true → readRM w s a = .refused .notWriteBack)) ∧
  ∀ (s : State) (r : Refusal), RowsAnswer (fun w a k => OperandRefused w s a k r) s (.refused r)

/-! ## Addresses -/

/-- 30_encoding.md R100, R102, R104, R106, R107, 43_vmovd_vmovq_evex.md R167: the address of a form with a base register
and no SIB byte, in every mode and address size A: base plus displacement modulo 2^A; with 16-bit addressing the sum of
the registers the table lists, modulo 2^16. The last clause says for each format what the address is formed with: the
extension bits X and B, and N, which is the operand's size under EVEX and 1 under LEG and VEX. -/
def Obligations.BaseRegisterAddress : Prop :=
  (∀ (s : State) (a : RmArgs) (rm : BitVec 3) (d : Disp), a.rm = .plain rm d →
    ((effAddr s a).toNat : Int) =
      ((readGpr s (BitVec.ofNat 4 (fullNum s.mode a.b rm))).toNat + dispInt a.scale d) %
        2 ^ addrBits (addrSize s.codeMode a.pre)) ∧
  (∀ (s : State) (a : RmArgs) (rm : BitVec 3) (d : Disp16), a.rm = .mem16 rm d →
    ((effAddr s a).toNat : Int) =
      (((regs16 rm).map fun n => ((readGpr s n).toNat : Int)).sum + dispInt16 d) % 2 ^ 16) ∧
  ∀ (pre : List PrefixItem) (v : Vex3) (e : Evex) (m : ModRM) (w : Width),
    ((legArgs pre m).x = (effectiveRex pre).x ∧ (legArgs pre m).b = (effectiveRex pre).b ∧
      (legArgs pre m).scale = 1) ∧
    ((vex2Args pre m).x = false ∧ (vex2Args pre m).b = false ∧ (vex2Args pre m).scale = 1) ∧
    ((vex3Args pre v m).x = v.x ∧ (vex3Args pre v m).b = v.b ∧ (vex3Args pre v m).scale = 1) ∧
    ((evexArgs pre e m w).x = e.x ∧ (evexArgs pre e m w).b = e.b ∧ (evexArgs pre e m w).scale = w.bytes)

/-- 30_encoding.md R100, R102: the address of a form without a register. mod = 00b, rm = 101b in M64 is relative to the
next instruction's address, modulo 2^A (with a 67 prefix the low 32 bits of the sum); in M32 it is the displacement
alone; with 16-bit addressing the 16-bit displacement alone. The last clause gives the instruction's length in each
format, which the relative form counts. -/
def Obligations.DisplacementOnlyAddress : Prop :=
  (∀ (s : State) (a : RmArgs) (d : BitVec 32), a.rm = .disp32 d →
    (s.mode = .m64 → ((effAddr s a).toNat : Int) =
      (s.rip.toNat + a.ilen + d.toInt) % 2 ^ addrBits (addrSize s.codeMode a.pre)) ∧
    (s.mode = .m32 → ((effAddr s a).toNat : Int) = d.toInt % 2 ^ addrBits (addrSize s.codeMode a.pre))) ∧
  (∀ (s : State) (a : RmArgs) (d : BitVec 16), a.rm = .abs16 d → (effAddr s a).toNat = d.toNat) ∧
  ∀ (pre : List PrefixItem) (v : Vex3) (e : Evex) (w : Width) (reg : BitVec 3) (d : BitVec 32),
    (legArgs pre ⟨reg, .disp32 d⟩).ilen = pre.length + 7 ∧ (vex2Args pre ⟨reg, .disp32 d⟩).ilen = pre.length + 8 ∧
    (vex3Args pre v ⟨reg, .disp32 d⟩).ilen = pre.length + 9 ∧
    (evexArgs pre e ⟨reg, .disp32 d⟩ w).ilen = pre.length + 10

/-- 30_encoding.md R101: the address of a SIB form, in every mode and address size A: base plus scaled index plus
displacement, modulo 2^A; index number 4 is no index, number 12 is one (it is in `scaledIndex`); with base field 101b and
mod = 00b no base register. An 8-bit displacement counts `a.scale` times, which `BaseRegisterAddress` gives per format. -/
def Obligations.SibAddress : Prop :=
  (∀ (s : State) (a : RmArgs) (ss : BitVec 2) (index base : BitVec 3) (d : Disp), a.rm = .sib ss index base d →
    ((effAddr s a).toNat : Int) =
      ((readGpr s (BitVec.ofNat 4 (fullNum s.mode a.b base))).toNat + scaledIndex s a.x ss index +
        dispInt a.scale d) % 2 ^ addrBits (addrSize s.codeMode a.pre)) ∧
  ∀ (s : State) (a : RmArgs) (ss : BitVec 2) (index : BitVec 3) (d : BitVec 32), a.rm = .sibNoBase ss index d →
    ((effAddr s a).toNat : Int) =
      (scaledIndex s a.x ss index + d.toInt) % 2 ^ addrBits (addrSize s.codeMode a.pre)

/-- 30_encoding.md R87, R105: the segment of a memory operand. The last override names it; in M64 only FS and GS do. With
no override in force, in both modes: SS for a base register 4 or 5 (with or without a SIB byte) and for a 16-bit
expression that contains BP, DS for everything else. That in M64 a last override of CS, DS, ES or SS leaves the default
also after an FS or GS override is the model's reading (log 29). -/
def Obligations.OperandSegment : Prop :=
  (∀ pre : List PrefixItem, pre.any isSegOverride = false → lastOverride pre = none) ∧
  (∀ (before after : List PrefixItem) (g : Seg), after.any isSegOverride = false →
    lastOverride (before ++ .seg g :: after) = some g) ∧
  ∀ (mode : Mode) (a : RmArgs),
    (∀ g, lastOverride a.pre = some g → mode = .m32 ∨ g = .fs ∨ g = .gs → operandSeg mode a = g) ∧
    (lastOverride a.pre = none ∨ (mode = .m64 ∧ ∃ g, lastOverride a.pre = some g ∧ g ≠ .fs ∧ g ≠ .gs) →
      (∀ rm d, a.rm = .plain rm d →
        operandSeg mode a = if fullNum mode a.b rm = 4 ∨ fullNum mode a.b rm = 5 then .ss else .ds) ∧
      (∀ ss index base d, a.rm = .sib ss index base d →
        operandSeg mode a = if fullNum mode a.b base = 4 ∨ fullNum mode a.b base = 5 then .ss else .ds) ∧
      (∀ rm d, a.rm = .mem16 rm d → operandSeg mode a = if (5 : BitVec 4) ∈ regs16 rm then .ss else .ds) ∧
      (∀ d, a.rm = .disp32 d → operandSeg mode a = .ds) ∧
      (∀ ss index d, a.rm = .sibNoBase ss index d → operandSeg mode a = .ds) ∧
      (∀ d, a.rm = .abs16 d → operandSeg mode a = .ds))

/-! ## Results: when an instruction completes, and the state it leaves -/

/-- 40_movd_movq_mmx.md R131, R132: rows 1 and 2 complete, for a register and for a memory source, and leave the
source's value zero-extended in the MMX register, ones in bits 79:64 of its x87 register, top of stack 0, all tags
valid, and the instruction pointer at the next instruction; nothing else changes. -/
def Obligations.MmxLoadsComplete : Prop :=
  ∀ (pre : List PrefixItem) (m : ModRM) (s : State), IpFits s (legLen pre m) → MmxReady s pre →
    (∀ v : BitVec 32, RmReads .dword s (legArgs pre m) v →
      exec (.movdMmRm32 pre m) s = .next { s with
        x87 := s.x87.set m.reg.toNat (BitVec.allOnes 16 ++ v.setWidth 64) m.reg.isLt
        x87Top := 0, x87Tags := 0, rip := s.rip + BitVec.ofNat 64 (legLen pre m) }) ∧
    (s.mode = .m64 → ∀ v : BitVec 64, RmReads .qword s (legArgs pre m) v →
      exec (.movqMmRm64 pre m) s = .next { s with
        x87 := s.x87.set m.reg.toNat (BitVec.allOnes 16 ++ v) m.reg.isLt
        x87Top := 0, x87Tags := 0, rip := s.rip + BitVec.ofNat 64 (legLen pre m) })

/-- 40_movd_movq_mmx.md R133, R134: rows 3 and 4 with a register destination complete and leave the MMX register's low
doubleword, zero-extended, or all of it in the general register. -/
def Obligations.MmxStoresToRegisterComplete : Prop :=
  ∀ (pre : List PrefixItem) (m : ModRM) (s : State) (r : BitVec 3), IpFits s (legLen pre m) → MmxReady s pre →
    m.rm = .direct r →
    exec (.movdRm32Mm pre m) s = .next { s with
        gpr := s.gpr.set (regNum s.mode (effectiveRex pre).b r).toNat (((readMm s m.reg).extractLsb' 0 32).setWidth 64)
          (BitVec.isLt _)
        x87Top := 0, x87Tags := 0, rip := s.rip + BitVec.ofNat 64 (legLen pre m) } ∧
    (s.mode = .m64 → exec (.movqRm64Mm pre m) s = .next { s with
        gpr := s.gpr.set (regNum s.mode (effectiveRex pre).b r).toNat (readMm s m.reg) (BitVec.isLt _)
        x87Top := 0, x87Tags := 0, rip := s.rip + BitVec.ofNat 64 (legLen pre m) })

/-- 40_movd_movq_mmx.md R133, R134: rows 3 and 4 with an admitted memory destination complete; exactly the operand's
bytes are written, little-endian. -/
def Obligations.MmxStoresToMemoryComplete : Prop :=
  ∀ (pre : List PrefixItem) (m : ModRM) (s : State), IpFits s (legLen pre m) → MmxReady s pre →
    rmIsReg m.rm = false →
    (Admits s (operandSeg s.mode (legArgs pre m)) (effAddr s (legArgs pre m)) .dword .write →
      ∃ mem', StoredAt .dword s (operandAddr s (legArgs pre m)) ((readMm s m.reg).extractLsb' 0 32) mem' ∧
        exec (.movdRm32Mm pre m) s = .next { s with
          mem := mem', x87Top := 0, x87Tags := 0, rip := s.rip + BitVec.ofNat 64 (legLen pre m) }) ∧
    (s.mode = .m64 → Admits s (operandSeg s.mode (legArgs pre m)) (effAddr s (legArgs pre m)) .qword .write →
      ∃ mem', StoredAt .qword s (operandAddr s (legArgs pre m)) (readMm s m.reg) mem' ∧
        exec (.movqRm64Mm pre m) s = .next { s with
          mem := mem', x87Top := 0, x87Tags := 0, rip := s.rip + BitVec.ofNat 64 (legLen pre m) })

/-- 41_movd_movq_sse2.md R141, R142: rows 5 and 6 complete; bits 127:0 of the vector register become the source's value
zero-extended, bits MAXVL-1:128 stay. -/
def Obligations.SseLoadsComplete : Prop :=
  ∀ (pre : List PrefixItem) (m : ModRM) (s : State), IpFits s (legLen pre m) → Sse2Ready s pre →
    (∀ v : BitVec 32, RmReads .dword s (legArgs pre m) v →
      ∃ x : VecWord, x.extractLsb' 0 128 = v.setWidth 128 ∧
        (∀ j, 128 ≤ j → j < s.plat.maxvl.bits → x.getLsbD j = (readVec s (legVec s pre m)).getLsbD j) ∧
        (∀ j, s.plat.maxvl.bits ≤ j → x.getLsbD j = false) ∧
        exec (.movdXmmRm32 pre m) s = .next { s with
          vec := s.vec.set (legVec s pre m).toNat x (BitVec.isLt _)
          rip := s.rip + BitVec.ofNat 64 (legLen pre m) }) ∧
    (s.mode = .m64 → ∀ v : BitVec 64, RmReads .qword s (legArgs pre m) v →
      ∃ x : VecWord, x.extractLsb' 0 128 = v.setWidth 128 ∧
        (∀ j, 128 ≤ j → j < s.plat.maxvl.bits → x.getLsbD j = (readVec s (legVec s pre m)).getLsbD j) ∧
        (∀ j, s.plat.maxvl.bits ≤ j → x.getLsbD j = false) ∧
        exec (.movqXmmRm64 pre m) s = .next { s with
          vec := s.vec.set (legVec s pre m).toNat x (BitVec.isLt _)
          rip := s.rip + BitVec.ofNat 64 (legLen pre m) })

/-- 41_movd_movq_sse2.md R143, R144: rows 7 and 8 with a register destination complete. -/
def Obligations.SseStoresToRegisterComplete : Prop :=
  ∀ (pre : List PrefixItem) (m : ModRM) (s : State) (r : BitVec 3), IpFits s (legLen pre m) → Sse2Ready s pre →
    m.rm = .direct r →
    exec (.movdRm32Xmm pre m) s = .next { s with
        gpr := s.gpr.set (regNum s.mode (effectiveRex pre).b r).toNat
          (((readVec s (legVec s pre m)).extractLsb' 0 32).setWidth 64) (BitVec.isLt _)
        rip := s.rip + BitVec.ofNat 64 (legLen pre m) } ∧
    (s.mode = .m64 → exec (.movqRm64Xmm pre m) s = .next { s with
        gpr := s.gpr.set (regNum s.mode (effectiveRex pre).b r).toNat
          ((readVec s (legVec s pre m)).extractLsb' 0 64) (BitVec.isLt _)
        rip := s.rip + BitVec.ofNat 64 (legLen pre m) })

/-- 41_movd_movq_sse2.md R143, R144: rows 7 and 8 with an admitted memory destination complete. -/
def Obligations.SseStoresToMemoryComplete : Prop :=
  ∀ (pre : List PrefixItem) (m : ModRM) (s : State), IpFits s (legLen pre m) → Sse2Ready s pre →
    rmIsReg m.rm = false →
    (Admits s (operandSeg s.mode (legArgs pre m)) (effAddr s (legArgs pre m)) .dword .write →
      ∃ mem', StoredAt .dword s (operandAddr s (legArgs pre m)) ((readVec s (legVec s pre m)).extractLsb' 0 32) mem' ∧
        exec (.movdRm32Xmm pre m) s = .next { s with
          mem := mem', rip := s.rip + BitVec.ofNat 64 (legLen pre m) }) ∧
    (s.mode = .m64 → Admits s (operandSeg s.mode (legArgs pre m)) (effAddr s (legArgs pre m)) .qword .write →
      ∃ mem', StoredAt .qword s (operandAddr s (legArgs pre m)) ((readVec s (legVec s pre m)).extractLsb' 0 64) mem' ∧
        exec (.movqRm64Xmm pre m) s = .next { s with
          mem := mem', rip := s.rip + BitVec.ofNat 64 (legLen pre m) })

/-- 42_vmovd_vmovq_vex.md R151, R152: rows 9 and 10 complete; the vector register becomes the source's value
zero-extended to MAXVL bits. -/
def Obligations.VexLoadsComplete : Prop :=
  (∀ (pre : List PrefixItem) (v : Vex3) (m : ModRM) (s : State), IpFits s (vex3Len pre m) → Vex3Ready s pre v →
    (∀ x : BitVec 32, RmReads .dword s (vex3Args pre v m) x →
      exec (.vmovdXmmRm32C4 pre v m) s = .next { s with
        vec := s.vec.set (vecNum s.mode v.r m.reg).toNat (x.setWidth 512) (BitVec.isLt _)
        rip := s.rip + BitVec.ofNat 64 (vex3Len pre m) }) ∧
    (s.mode = .m64 → ∀ x : BitVec 64, RmReads .qword s (vex3Args pre v m) x →
      exec (.vmovqXmmRm64Vex pre v m) s = .next { s with
        vec := s.vec.set (vecNum s.mode v.r m.reg).toNat (x.setWidth 512) (BitVec.isLt _)
        rip := s.rip + BitVec.ofNat 64 (vex3Len pre m) })) ∧
  (∀ (pre : List PrefixItem) (v : Vex2) (m : ModRM) (s : State), IpFits s (vex2Len pre m) →
    VexReady s pre v.l v.vvvv → ∀ x : BitVec 32, RmReads .dword s (vex2Args pre m) x →
      exec (.vmovdXmmRm32C5 pre v m) s = .next { s with
        vec := s.vec.set (vecNum s.mode v.r m.reg).toNat (x.setWidth 512) (BitVec.isLt _)
        rip := s.rip + BitVec.ofNat 64 (vex2Len pre m) })

/-- 42_vmovd_vmovq_vex.md R153, R154: rows 11 and 12 with a register destination complete. -/
def Obligations.VexStoresToRegisterComplete : Prop :=
  (∀ (pre : List PrefixItem) (v : Vex3) (m : ModRM) (s : State) (r : BitVec 3), IpFits s (vex3Len pre m) →
    Vex3Ready s pre v → m.rm = .direct r →
    exec (.vmovdRm32XmmC4 pre v m) s = .next { s with
        gpr := s.gpr.set (regNum s.mode v.b r).toNat
          (((readVec s (vecNum s.mode v.r m.reg)).extractLsb' 0 32).setWidth 64) (BitVec.isLt _)
        rip := s.rip + BitVec.ofNat 64 (vex3Len pre m) } ∧
    (s.mode = .m64 → exec (.vmovqRm64XmmVex pre v m) s = .next { s with
        gpr := s.gpr.set (regNum s.mode v.b r).toNat
          ((readVec s (vecNum s.mode v.r m.reg)).extractLsb' 0 64) (BitVec.isLt _)
        rip := s.rip + BitVec.ofNat 64 (vex3Len pre m) })) ∧
  (∀ (pre : List PrefixItem) (v : Vex2) (m : ModRM) (s : State) (r : BitVec 3), IpFits s (vex2Len pre m) →
    VexReady s pre v.l v.vvvv → m.rm = .direct r →
    exec (.vmovdRm32XmmC5 pre v m) s = .next { s with
        gpr := s.gpr.set (regNum s.mode false r).toNat
          (((readVec s (vecNum s.mode v.r m.reg)).extractLsb' 0 32).setWidth 64) (BitVec.isLt _)
        rip := s.rip + BitVec.ofNat 64 (vex2Len pre m) })

/-- 42_vmovd_vmovq_vex.md R153, R154: rows 11 and 12 with an admitted memory destination complete. -/
def Obligations.VexStoresToMemoryComplete : Prop :=
  (∀ (pre : List PrefixItem) (v : Vex3) (m : ModRM) (s : State), IpFits s (vex3Len pre m) → Vex3Ready s pre v →
    rmIsReg m.rm = false →
    (Admits s (operandSeg s.mode (vex3Args pre v m)) (effAddr s (vex3Args pre v m)) .dword .write →
      ∃ mem', StoredAt .dword s (operandAddr s (vex3Args pre v m))
          ((readVec s (vecNum s.mode v.r m.reg)).extractLsb' 0 32) mem' ∧
        exec (.vmovdRm32XmmC4 pre v m) s = .next { s with
          mem := mem', rip := s.rip + BitVec.ofNat 64 (vex3Len pre m) }) ∧
    (s.mode = .m64 → Admits s (operandSeg s.mode (vex3Args pre v m)) (effAddr s (vex3Args pre v m)) .qword .write →
      ∃ mem', StoredAt .qword s (operandAddr s (vex3Args pre v m))
          ((readVec s (vecNum s.mode v.r m.reg)).extractLsb' 0 64) mem' ∧
        exec (.vmovqRm64XmmVex pre v m) s = .next { s with
          mem := mem', rip := s.rip + BitVec.ofNat 64 (vex3Len pre m) })) ∧
  (∀ (pre : List PrefixItem) (v : Vex2) (m : ModRM) (s : State), IpFits s (vex2Len pre m) →
    VexReady s pre v.l v.vvvv → rmIsReg m.rm = false →
    Admits s (operandSeg s.mode (vex2Args pre m)) (effAddr s (vex2Args pre m)) .dword .write →
      ∃ mem', StoredAt .dword s (operandAddr s (vex2Args pre m))
          ((readVec s (vecNum s.mode v.r m.reg)).extractLsb' 0 32) mem' ∧
        exec (.vmovdRm32XmmC5 pre v m) s = .next { s with
          mem := mem', rip := s.rip + BitVec.ofNat 64 (vex2Len pre m) })

/-- 43_vmovd_vmovq_evex.md R161, R162: rows 13 and 14 complete; the vector register becomes the source's value
zero-extended to MAXVL bits. -/
def Obligations.EvexLoadsComplete : Prop :=
  ∀ (pre : List PrefixItem) (e : Evex) (m : ModRM) (s : State), IpFits s (evexLen pre m) → EvexReady s pre e m →
    (∀ x : BitVec 32, RmReads .dword s (evexArgs pre e m .dword) x →
      exec (.vmovdXmmRm32Evex pre e m) s = .next { s with
        vec := s.vec.set (vecNumEvex s.mode e.r' e.r m.reg).toNat (x.setWidth 512) (BitVec.isLt _)
        rip := s.rip + BitVec.ofNat 64 (evexLen pre m) }) ∧
    (s.mode = .m64 → ∀ x : BitVec 64, RmReads .qword s (evexArgs pre e m .qword) x →
      exec (.vmovqXmmRm64Evex pre e m) s = .next { s with
        vec := s.vec.set (vecNumEvex s.mode e.r' e.r m.reg).toNat (x.setWidth 512) (BitVec.isLt _)
        rip := s.rip + BitVec.ofNat 64 (evexLen pre m) })

/-- 43_vmovd_vmovq_evex.md R163, R164: rows 15 and 16 with a register destination complete. -/
def Obligations.EvexStoresToRegisterComplete : Prop :=
  ∀ (pre : List PrefixItem) (e : Evex) (m : ModRM) (s : State) (r : BitVec 3), IpFits s (evexLen pre m) →
    EvexReady s pre e m → m.rm = .direct r →
    exec (.vmovdRm32XmmEvex pre e m) s = .next { s with
        gpr := s.gpr.set (regNum s.mode e.b r).toNat
          (((readVec s (vecNumEvex s.mode e.r' e.r m.reg)).extractLsb' 0 32).setWidth 64) (BitVec.isLt _)
        rip := s.rip + BitVec.ofNat 64 (evexLen pre m) } ∧
    (s.mode = .m64 → exec (.vmovqRm64XmmEvex pre e m) s = .next { s with
        gpr := s.gpr.set (regNum s.mode e.b r).toNat
          ((readVec s (vecNumEvex s.mode e.r' e.r m.reg)).extractLsb' 0 64) (BitVec.isLt _)
        rip := s.rip + BitVec.ofNat 64 (evexLen pre m) })

/-- 43_vmovd_vmovq_evex.md R163, R164: rows 15 and 16 with an admitted memory destination complete. -/
def Obligations.EvexStoresToMemoryComplete : Prop :=
  ∀ (pre : List PrefixItem) (e : Evex) (m : ModRM) (s : State), IpFits s (evexLen pre m) → EvexReady s pre e m →
    rmIsReg m.rm = false →
    (Admits s (operandSeg s.mode (evexArgs pre e m .dword)) (effAddr s (evexArgs pre e m .dword)) .dword .write →
      ∃ mem', StoredAt .dword s (operandAddr s (evexArgs pre e m .dword))
          ((readVec s (vecNumEvex s.mode e.r' e.r m.reg)).extractLsb' 0 32) mem' ∧
        exec (.vmovdRm32XmmEvex pre e m) s = .next { s with
          mem := mem', rip := s.rip + BitVec.ofNat 64 (evexLen pre m) }) ∧
    (s.mode = .m64 →
      Admits s (operandSeg s.mode (evexArgs pre e m .qword)) (effAddr s (evexArgs pre e m .qword)) .qword .write →
      ∃ mem', StoredAt .qword s (operandAddr s (evexArgs pre e m .qword))
          ((readVec s (vecNumEvex s.mode e.r' e.r m.reg)).extractLsb' 0 64) mem' ∧
        exec (.vmovqRm64XmmEvex pre e m) s = .next { s with
          mem := mem', rip := s.rip + BitVec.ofNat 64 (evexLen pre m) })

/-- 30_encoding.md R81, R118 and log 21: in M32 the W1 rows 10, 12, 14 and 16 behave as rows 9, 11, 13 and 15; rows 2,
4, 6 and 8, which M32 cannot encode, are refused by name once no exception applies. -/
def Obligations.QuadwordRowsInM32 : Prop :=
  ∀ (pre : List PrefixItem) (v : Vex3) (e : Evex) (m : ModRM) (s : State), s.mode = .m32 →
    exec (.vmovqXmmRm64Vex pre v m) s = exec (.vmovdXmmRm32C4 pre v m) s ∧
    exec (.vmovqRm64XmmVex pre v m) s = exec (.vmovdRm32XmmC4 pre v m) s ∧
    exec (.vmovqXmmRm64Evex pre e m) s = exec (.vmovdXmmRm32Evex pre e m) s ∧
    exec (.vmovqRm64XmmEvex pre e m) s = exec (.vmovdRm32XmmEvex pre e m) s ∧
    (IpFits s (legLen pre m) → MmxReady s pre →
      exec (.movqMmRm64 pre m) s = .refused .notEncodable ∧
      exec (.movqRm64Mm pre m) s = .refused .notEncodable) ∧
    (IpFits s (legLen pre m) → Sse2Ready s pre →
      exec (.movqXmmRm64 pre m) s = .refused .notEncodable ∧
      exec (.movqRm64Xmm pre m) s = .refused .notEncodable)

/-! ## Frames -/

/-- Frame of rows 1 and 2 (R130, R131, R132): only the MMX register's x87 register, the top of stack, the tag word and
the instruction pointer change. -/
def Obligations.MmxLoadsFrame : Prop :=
  ∀ (pre : List PrefixItem) (m : ModRM) (s t : State),
    exec (.movdMmRm32 pre m) s = .next t ∨ exec (.movqMmRm64 pre m) s = .next t →
    SameControl s t ∧ t.gpr = s.gpr ∧ t.vec = s.vec ∧ SameMem s t ∧
      (∀ n : BitVec 3, n ≠ m.reg → t.x87[n.toNat]'n.isLt = s.x87[n.toNat]'n.isLt) ∧ t.x87Top = 0 ∧ t.x87Tags = 0

/-- Frame of rows 5 and 6 (R140, R141, R142): only the vector register `R:reg` and the instruction pointer change. -/
def Obligations.SseLoadsFrame : Prop :=
  ∀ (pre : List PrefixItem) (m : ModRM) (s t : State),
    exec (.movdXmmRm32 pre m) s = .next t ∨ exec (.movqXmmRm64 pre m) s = .next t →
    SameControl s t ∧ t.gpr = s.gpr ∧ SameX87 s t ∧ SameMem s t ∧ SameVecExcept (legVec s pre m) s t

/-- Frame of rows 9, 10, 13 and 14 (R150 to R152, R160 to R162): only the vector register named by ModRM:reg and the
instruction pointer change. -/
def Obligations.VexLoadsFrame : Prop :=
  (∀ (pre : List PrefixItem) (v : Vex3) (m : ModRM) (s t : State),
    exec (.vmovdXmmRm32C4 pre v m) s = .next t ∨ exec (.vmovqXmmRm64Vex pre v m) s = .next t →
    SameControl s t ∧ t.gpr = s.gpr ∧ SameX87 s t ∧ SameMem s t ∧ SameVecExcept (vecNum s.mode v.r m.reg) s t) ∧
  (∀ (pre : List PrefixItem) (v : Vex2) (m : ModRM) (s t : State), exec (.vmovdXmmRm32C5 pre v m) s = .next t →
    SameControl s t ∧ t.gpr = s.gpr ∧ SameX87 s t ∧ SameMem s t ∧ SameVecExcept (vecNum s.mode v.r m.reg) s t) ∧
  (∀ (pre : List PrefixItem) (e : Evex) (m : ModRM) (s t : State),
    exec (.vmovdXmmRm32Evex pre e m) s = .next t ∨ exec (.vmovqXmmRm64Evex pre e m) s = .next t →
    SameControl s t ∧ t.gpr = s.gpr ∧ SameX87 s t ∧ SameMem s t ∧
      SameVecExcept (vecNumEvex s.mode e.r' e.r m.reg) s t)

/-- Frame of the storing rows 3, 4, 7, 8, 11, 12, 15 and 16 with a register destination: only the general register
named by ModRM:r/m, the instruction pointer and, in rows 3 and 4, the x87 top of stack and tag word change. -/
def Obligations.RegisterStoresFrame : Prop :=
  (∀ (pre : List PrefixItem) (m : ModRM) (s t : State) (r : BitVec 3), m.rm = .direct r →
    exec (.movdRm32Mm pre m) s = .next t ∨ exec (.movqRm64Mm pre m) s = .next t →
    SameControl s t ∧ SameMem s t ∧ t.vec = s.vec ∧ t.x87 = s.x87 ∧ t.x87Top = 0 ∧ t.x87Tags = 0 ∧
      SameGprExcept (regNum s.mode (effectiveRex pre).b r) s t) ∧
  (∀ (pre : List PrefixItem) (m : ModRM) (s t : State) (r : BitVec 3), m.rm = .direct r →
    exec (.movdRm32Xmm pre m) s = .next t ∨ exec (.movqRm64Xmm pre m) s = .next t →
    SameControl s t ∧ SameMem s t ∧ t.vec = s.vec ∧ SameX87 s t ∧
      SameGprExcept (regNum s.mode (effectiveRex pre).b r) s t) ∧
  (∀ (pre : List PrefixItem) (v : Vex3) (m : ModRM) (s t : State) (r : BitVec 3), m.rm = .direct r →
    exec (.vmovdRm32XmmC4 pre v m) s = .next t ∨ exec (.vmovqRm64XmmVex pre v m) s = .next t →
    SameControl s t ∧ SameMem s t ∧ t.vec = s.vec ∧ SameX87 s t ∧ SameGprExcept (regNum s.mode v.b r) s t) ∧
  (∀ (pre : List PrefixItem) (v : Vex2) (m : ModRM) (s t : State) (r : BitVec 3), m.rm = .direct r →
    exec (.vmovdRm32XmmC5 pre v m) s = .next t →
    SameControl s t ∧ SameMem s t ∧ t.vec = s.vec ∧ SameX87 s t ∧ SameGprExcept (regNum s.mode false r) s t) ∧
  (∀ (pre : List PrefixItem) (e : Evex) (m : ModRM) (s t : State) (r : BitVec 3), m.rm = .direct r →
    exec (.vmovdRm32XmmEvex pre e m) s = .next t ∨ exec (.vmovqRm64XmmEvex pre e m) s = .next t →
    SameControl s t ∧ SameMem s t ∧ t.vec = s.vec ∧ SameX87 s t ∧ SameGprExcept (regNum s.mode e.b r) s t)

/-- Frame of the doubleword storing rows 3, 7, 11 and 15 with a memory destination: every register but the instruction
pointer (and in row 3 the x87 top of stack and tag word) is unchanged, and every byte of memory outside the four bytes
at the operand's linear address. -/
def Obligations.DoublewordMemoryStoresFrame : Prop :=
  (∀ (pre : List PrefixItem) (m : ModRM) (s t : State), rmIsReg m.rm = false →
    exec (.movdRm32Mm pre m) s = .next t →
    SameControl s t ∧ t.gpr = s.gpr ∧ t.vec = s.vec ∧ t.x87 = s.x87 ∧ t.x87Top = 0 ∧ t.x87Tags = 0 ∧
      ∀ x, ¬ InOperand s (operandAddr s (legArgs pre m)) .dword x → t.mem.read x = s.mem.read x) ∧
  (∀ (pre : List PrefixItem) (m : ModRM) (s t : State), rmIsReg m.rm = false →
    exec (.movdRm32Xmm pre m) s = .next t →
    SameControl s t ∧ t.gpr = s.gpr ∧ t.vec = s.vec ∧ SameX87 s t ∧
      ∀ x, ¬ InOperand s (operandAddr s (legArgs pre m)) .dword x → t.mem.read x = s.mem.read x) ∧
  (∀ (pre : List PrefixItem) (v : Vex3) (m : ModRM) (s t : State), rmIsReg m.rm = false →
    exec (.vmovdRm32XmmC4 pre v m) s = .next t →
    SameControl s t ∧ t.gpr = s.gpr ∧ t.vec = s.vec ∧ SameX87 s t ∧
      ∀ x, ¬ InOperand s (operandAddr s (vex3Args pre v m)) .dword x → t.mem.read x = s.mem.read x) ∧
  (∀ (pre : List PrefixItem) (v : Vex2) (m : ModRM) (s t : State), rmIsReg m.rm = false →
    exec (.vmovdRm32XmmC5 pre v m) s = .next t →
    SameControl s t ∧ t.gpr = s.gpr ∧ t.vec = s.vec ∧ SameX87 s t ∧
      ∀ x, ¬ InOperand s (operandAddr s (vex2Args pre m)) .dword x → t.mem.read x = s.mem.read x) ∧
  (∀ (pre : List PrefixItem) (e : Evex) (m : ModRM) (s t : State), rmIsReg m.rm = false →
    exec (.vmovdRm32XmmEvex pre e m) s = .next t →
    SameControl s t ∧ t.gpr = s.gpr ∧ t.vec = s.vec ∧ SameX87 s t ∧
      ∀ x, ¬ InOperand s (operandAddr s (evexArgs pre e m .dword)) .dword x → t.mem.read x = s.mem.read x)

/-- Frame of the quadword storing rows 4, 8, 12 and 16 with a memory destination, in M64: as for the doubleword rows,
with eight bytes. -/
def Obligations.QuadwordMemoryStoresFrame : Prop :=
  (∀ (pre : List PrefixItem) (m : ModRM) (s t : State), rmIsReg m.rm = false →
    exec (.movqRm64Mm pre m) s = .next t →
    SameControl s t ∧ t.gpr = s.gpr ∧ t.vec = s.vec ∧ t.x87 = s.x87 ∧ t.x87Top = 0 ∧ t.x87Tags = 0 ∧
      ∀ x, ¬ InOperand s (operandAddr s (legArgs pre m)) .qword x → t.mem.read x = s.mem.read x) ∧
  (∀ (pre : List PrefixItem) (m : ModRM) (s t : State), rmIsReg m.rm = false →
    exec (.movqRm64Xmm pre m) s = .next t →
    SameControl s t ∧ t.gpr = s.gpr ∧ t.vec = s.vec ∧ SameX87 s t ∧
      ∀ x, ¬ InOperand s (operandAddr s (legArgs pre m)) .qword x → t.mem.read x = s.mem.read x) ∧
  (∀ (pre : List PrefixItem) (v : Vex3) (m : ModRM) (s t : State), s.mode = .m64 → rmIsReg m.rm = false →
    exec (.vmovqRm64XmmVex pre v m) s = .next t →
    SameControl s t ∧ t.gpr = s.gpr ∧ t.vec = s.vec ∧ SameX87 s t ∧
      ∀ x, ¬ InOperand s (operandAddr s (vex3Args pre v m)) .qword x → t.mem.read x = s.mem.read x) ∧
  (∀ (pre : List PrefixItem) (e : Evex) (m : ModRM) (s t : State), s.mode = .m64 → rmIsReg m.rm = false →
    exec (.vmovqRm64XmmEvex pre e m) s = .next t →
    SameControl s t ∧ t.gpr = s.gpr ∧ t.vec = s.vec ∧ SameX87 s t ∧
      ∀ x, ¬ InOperand s (operandAddr s (evexArgs pre e m .qword)) .qword x → t.mem.read x = s.mem.read x)

/-- 10_state.md R31: every instruction of rows 1 to 4 that completes leaves top of stack 0 and all tags valid; rows 1
and 2 leave ones in bits 79:64 of the x87 register they write. -/
def Obligations.MmxRowsTouchX87 : Prop :=
  (∀ (i : Instr) (s t : State), isMmxRow i = true → exec i s = .next t → t.x87Top = 0 ∧ t.x87Tags = 0) ∧
  (∀ (pre : List PrefixItem) (m : ModRM) (s t : State),
    exec (.movdMmRm32 pre m) s = .next t ∨ exec (.movqMmRm64 pre m) s = .next t →
    (t.x87[m.reg.toNat]'m.reg.isLt).extractLsb' 64 16 = BitVec.allOnes 16)

/-- 10_state.md R32: the flags and MXCSR are unchanged, and but for EFLAGS.AC no result depends on them. -/
def Obligations.ResultsDoNotDependOnFlags : Prop :=
  ∀ (i : Instr) (s : State) (fl mx : Word32), fl.getLsbD 18 = s.eflags.getLsbD 18 →
    (∀ t, exec i s = .next t → t.eflags = s.eflags ∧ t.mxcsr = s.mxcsr) ∧
    exec i { s with eflags := fl, mxcsr := mx } =
      mapNext (fun t => { t with eflags := fl, mxcsr := mx }) (exec i s)
end

