-- ==== Sys2Proof/Laws/Codec.lean ====
section
/-! SUPPORT. The pieces of the decoder against the pieces of the encoder: prefix bytes, displacements, the ModRM part,
the VEX and EVEX fields. -/

namespace Sys2Proof

/-! ## Prefix bytes -/

theorem prefixOf_rex (r : Rex) : prefixOf .m64 (PrefixItem.rex r).byte = some (.rex r) := by
  rcases r with ⟨w, r, x, b⟩
  cases w <;> cases r <;> cases x <;> cases b <;> rfl

/-- Every prefix item that the mode has is read from its byte. -/
theorem prefixOf_byte {mode : Mode} {p : PrefixItem} (h : mode = .m64 ∨ p.isRex = false) :
    prefixOf mode p.byte = some p := by
  cases p with
  | rex r => rcases h with rfl | h
             · exact prefixOf_rex r
             · cases h
  | seg s => cases s <;> rfl
  | _ => rfl

theorem prefixOf_table (b : Byte) :
    ((prefixOf .m64 b).all fun p => decide (p.byte = b)) = true ∧
      ((prefixOf .m32 b).all fun p => decide (p.byte = b) && !p.isRex) = true := by
  revert b; decide

/-- A prefix byte is the byte of the item read from it. -/
theorem byte_of_prefixOf {mode : Mode} {b : Byte} {p : PrefixItem} (h : prefixOf mode b = some p) :
    p.byte = b ∧ (mode = .m64 ∨ p.isRex = false) := by
  have ht := prefixOf_table b
  cases mode
  · rw [h] at ht
    exact ⟨by simpa using ht.1, .inl rfl⟩
  · rw [h] at ht
    have := ht.2
    simp only [Option.all_some, Bool.and_eq_true, decide_eq_true_eq, Bool.not_eq_true'] at this
    exact ⟨this.1, .inr this.2⟩

/-- The bytes that open the three formats are no prefixes. -/
theorem prefixOf_openers (mode : Mode) :
    prefixOf mode 0x0F = none ∧ prefixOf mode 0xC5 = none ∧ prefixOf mode 0xC4 = none ∧
      prefixOf mode 0x62 = none := by
  cases mode <;> decide

theorem splitPrefixes_bytes {mode : Mode} {pre : List PrefixItem} {b : Byte} {rest : List Byte}
    (hp : prefixesWf mode pre = true) (hb : prefixOf mode b = none) :
    splitPrefixes mode (prefixBytes pre ++ b :: rest) = (pre, b :: rest) := by
  induction pre with
  | nil => simp [prefixBytes, splitPrefixes, hb]
  | cons p ps ih =>
    have h1 : mode = .m64 ∨ p.isRex = false := by
      cases mode <;> simp_all [prefixesWf]
    have h2 : prefixesWf mode ps = true := by
      cases mode <;> simp_all [prefixesWf]
    have := ih h2
    simp only [prefixBytes, List.map_cons, List.cons_append, splitPrefixes, prefixOf_byte h1] at this ⊢
    rw [this]

/-- The prefix bytes split off are those of the items, every item is one of the mode, and no prefix byte follows. -/
theorem splitPrefixes_spec (mode : Mode) (bs : List Byte) :
    bs = prefixBytes (splitPrefixes mode bs).1 ++ (splitPrefixes mode bs).2 ∧
      prefixesWf mode (splitPrefixes mode bs).1 = true := by
  induction bs with
  | nil => cases mode <;> exact ⟨rfl, rfl⟩
  | cons b bs ih =>
    simp only [splitPrefixes]
    cases hb : prefixOf mode b with
    | none => cases mode <;> exact ⟨rfl, rfl⟩
    | some p =>
      obtain ⟨h1, h2⟩ := byte_of_prefixOf hb
      refine ⟨?_, ?_⟩
      · simp only [prefixBytes, List.map_cons, h1, List.cons_append]
        congr 1
        exact ih.1
      · have hw := ih.2
        simp only [prefixesWf, List.any_cons, Bool.not_or, Bool.or_eq_true, Bool.and_eq_true, Bool.not_eq_true',
          decide_eq_true_eq] at hw ⊢
        tauto

/-! ## Displacements -/

theorem bytes16_le16 (b0 b1 : Byte) : bytes16 (le16 b0 b1) = [b0, b1] := by
  simp only [bytes16, le16, List.cons.injEq, and_true]
  refine ⟨?_, ?_⟩ <;>
    (apply BitVec.eq_of_getLsbD_eq; intro i hi
     simp only [BitVec.getLsbD_extractLsb', BitVec.getLsbD_append, hi, decide_true, Bool.true_and]
     repeat' split
     all_goals first | omega | (congr 1; omega))

theorem le16_bytes16 (d : BitVec 16) : le16 (d.extractLsb' 0 8) (d.extractLsb' 8 8) = d := by
  apply BitVec.eq_of_getLsbD_eq
  intro i hi
  simp only [le16, BitVec.getLsbD_extractLsb', BitVec.getLsbD_append]
  repeat' split
  all_goals
    rw [decide_eq_true (by omega), Bool.true_and]
    congr 1
    try omega

theorem bytes32_le32 (b0 b1 b2 b3 : Byte) : bytes32 (le32 b0 b1 b2 b3) = [b0, b1, b2, b3] := by
  simp only [bytes32, le32, List.cons.injEq, and_true]
  refine ⟨?_, ?_, ?_, ?_⟩ <;>
    (apply BitVec.eq_of_getLsbD_eq; intro i hi
     simp only [BitVec.getLsbD_extractLsb', BitVec.getLsbD_append, hi, decide_true, Bool.true_and]
     repeat' split
     all_goals first | omega | (congr 1; omega))

theorem le32_bytes32 (d : BitVec 32) :
    le32 (d.extractLsb' 0 8) (d.extractLsb' 8 8) (d.extractLsb' 16 8) (d.extractLsb' 24 8) = d := by
  apply BitVec.eq_of_getLsbD_eq
  intro i hi
  simp only [le32, BitVec.getLsbD_extractLsb', BitVec.getLsbD_append]
  repeat' split
  all_goals
    rw [decide_eq_true (by omega), Bool.true_and]
    congr 1
    try omega

theorem parseDisp_bytes (d : Disp) (rest : List Byte) : parseDisp d.mod (d.bytes ++ rest) = some (d, rest) := by
  cases d with
  | none => rfl
  | d8 d => rfl
  | d32 d => simp [parseDisp, Disp.mod, Disp.bytes, bytes32, le32_bytes32]

theorem parseDisp16_bytes (d : Disp16) (rest : List Byte) :
    parseDisp16 d.mod (d.bytes ++ rest) = some (d, rest) := by
  cases d with
  | none => rfl
  | d8 d => rfl
  | d16 d => simp [parseDisp16, Disp16.mod, Disp16.bytes, bytes16, le16_bytes16]

theorem parseDisp32_bytes (d : BitVec 32) (rest : List Byte) : parseDisp32 (bytes32 d ++ rest) = some (d, rest) := by
  simp [parseDisp32, bytes32, le32_bytes32]

theorem parseDisp32_some {bs rest : List Byte} {d : BitVec 32} (h : parseDisp32 bs = some (d, rest)) :
    bs = bytes32 d ++ rest := by
  unfold parseDisp32 at h
  split at h
  · cases h; simp [bytes32_le32]
  · cases h

theorem mod_cases {mod : BitVec 2} (h0 : mod ≠ 0) (h1 : mod ≠ 1) (h3 : mod ≠ 3) : mod = 2 := by
  revert mod; decide

theorem parseDisp_some {mod : BitVec 2} {bs rest : List Byte} {d : Disp} (hm : mod ≠ 3)
    (h : parseDisp mod bs = some (d, rest)) : d.mod = mod ∧ bs = d.bytes ++ rest := by
  unfold parseDisp at h
  split at h
  · next h0 => cases h; exact ⟨h0.symm, rfl⟩
  · next h0 =>
    split at h
    · next h1 =>
      split at h
      · cases h; exact ⟨h1.symm, rfl⟩
      · cases h
    · next h1 =>
      split at h
      · cases h; exact ⟨(mod_cases h0 h1 hm).symm, by simp [Disp.bytes, bytes32_le32]⟩
      · cases h

theorem parseDisp16_some {mod : BitVec 2} {bs rest : List Byte} {d : Disp16} (hm : mod ≠ 3)
    (h : parseDisp16 mod bs = some (d, rest)) : d.mod = mod ∧ bs = d.bytes ++ rest := by
  unfold parseDisp16 at h
  split at h
  · next h0 => cases h; exact ⟨h0.symm, rfl⟩
  · next h0 =>
    split at h
    · next h1 =>
      split at h
      · cases h; exact ⟨h1.symm, rfl⟩
      · cases h
    · next h1 =>
      split at h
      · cases h; exact ⟨(mod_cases h0 h1 hm).symm, by simp [Disp16.bytes, bytes16_le16]⟩
      · cases h

/-! ## ModRM and SIB -/

theorem fieldByte_hi (hi : BitVec 2) (mid lo : BitVec 3) : (fieldByte hi mid lo).extractLsb' 6 2 = hi := by
  revert hi mid lo; decide

theorem fieldByte_mid (hi : BitVec 2) (mid lo : BitVec 3) : (fieldByte hi mid lo).extractLsb' 3 3 = mid := by
  revert hi mid lo; decide

theorem fieldByte_lo (hi : BitVec 2) (mid lo : BitVec 3) : (fieldByte hi mid lo).extractLsb' 0 3 = lo := by
  revert hi mid lo; decide

theorem fieldByte_of (b : Byte) :
    fieldByte (b.extractLsb' 6 2) (b.extractLsb' 3 3) (b.extractLsb' 0 3) = b := by
  revert b; decide

theorem Disp.mod_ne (d : Disp) : ¬d.mod = 3#2 := by cases d <;> simp [Disp.mod]
theorem Disp16.mod_ne (d : Disp16) : ¬d.mod = 3#2 := by cases d <;> simp [Disp16.mod]

theorem Disp.mod_eq_zero (d : Disp) : d.mod = 0#2 ↔ d = .none := by
  cases d <;> simp [Disp.mod]

theorem Disp16.mod_eq_zero (d : Disp16) : d.mod = 0#2 ↔ d = .none := by
  cases d <;> simp [Disp16.mod]

/-- Reading the ModRM part of a well-formed instruction's bytes gives it back. -/
theorem parseModRM_bytes {cm : CodeMode} {pre : List PrefixItem} {m : ModRM} (rest : List Byte)
    (h : m.wf cm pre = true) : parseModRM (addrSize cm pre) (m.bytes ++ rest) = some (m, rest) := by
  rcases m with ⟨reg, rm⟩
  generalize ha : addrSize cm pre = a at *
  simp only [ModRM.wf, ha, Bool.and_eq_true] at h
  obtain ⟨hc, hf⟩ := h
  cases rm with
  | direct rm => simp [ModRM.bytes, parseModRM, parseRm, fieldByte_hi, fieldByte_mid, fieldByte_lo]
  | plain rm d =>
    simp [RmForm.canonical] at hc
    have h4 : ¬rm = 4#3 := hc.1
    have h5 : ¬(d = .none ∧ rm = 5#3) := by tauto
    simp [RmForm.fitsAddrSize] at hf
    simp [ModRM.bytes, parseModRM, parseRm, parseMem, fieldByte_hi, fieldByte_mid, fieldByte_lo, Disp.mod_ne, hf, h4,
      Disp.mod_eq_zero, h5, parseDisp_bytes]
  | disp32 d =>
    simp [RmForm.fitsAddrSize] at hf
    simp [ModRM.bytes, parseModRM, parseRm, parseMem, fieldByte_hi, fieldByte_mid, fieldByte_lo, hf,
      parseDisp32_bytes]
  | sib ss index base d =>
    simp [RmForm.canonical] at hc
    have h5 : ¬(d = .none ∧ base = 5#3) := by tauto
    simp [RmForm.fitsAddrSize] at hf
    simp [ModRM.bytes, parseModRM, parseRm, parseMem, parseSib, fieldByte_hi, fieldByte_mid, fieldByte_lo,
      Disp.mod_ne, hf, Disp.mod_eq_zero, h5, parseDisp_bytes]
  | sibNoBase ss index d =>
    simp [RmForm.fitsAddrSize] at hf
    simp [ModRM.bytes, parseModRM, parseRm, parseMem, parseSib, fieldByte_hi, fieldByte_mid, fieldByte_lo, hf,
      parseDisp32_bytes]
  | mem16 rm d =>
    simp [RmForm.canonical] at hc
    have h6 : ¬(d = .none ∧ rm = 6#3) := by tauto
    simp [RmForm.fitsAddrSize] at hf
    simp [ModRM.bytes, parseModRM, parseRm, parseMem16, fieldByte_hi, fieldByte_mid, fieldByte_lo, Disp16.mod_ne, hf,
      Disp16.mod_eq_zero, h6, parseDisp16_bytes]
  | abs16 d =>
    simp [RmForm.fitsAddrSize] at hf
    simp [ModRM.bytes, parseModRM, parseRm, parseMem16, fieldByte_hi, fieldByte_mid, fieldByte_lo, hf, bytes16,
      le16_bytes16]

/-- What is read as an r/m operand is well formed, and the bytes read are its bytes. -/
theorem parseRm_some {a : AddrSize} {mod : BitVec 2} {reg rm : BitVec 3} {bs rest : List Byte} {f : RmForm}
    (h : parseRm a mod rm bs = some (f, rest)) :
    (f.canonical = true ∧ f.fitsAddrSize a = true) ∧
      fieldByte mod reg rm :: bs = (ModRM.bytes ⟨reg, f⟩) ++ rest := by
  unfold parseRm at h
  split at h
  · next h3 => cases h; subst h3; exact ⟨⟨rfl, rfl⟩, rfl⟩
  next h3 =>
  split at h
  · next ha =>
    unfold parseMem16 at h
    split at h
    · next h6 =>
      obtain ⟨rfl, rfl⟩ := h6
      split at h
      · cases h
        exact ⟨⟨rfl, by simp [RmForm.fitsAddrSize, ha]⟩, by simp [ModRM.bytes, bytes16_le16]⟩
      · cases h
    · next h6 =>
      obtain ⟨⟨d, r⟩, hd, h⟩ := Option.map_eq_some_iff.mp h
      cases h
      obtain ⟨rfl, rfl⟩ := parseDisp16_some h3 hd
      rw [show d.mod = 0 ↔ d = .none from d.mod_eq_zero] at h6
      exact ⟨⟨by simp [RmForm.canonical]; tauto, by simp [RmForm.fitsAddrSize, ha]⟩, rfl⟩
  next ha =>
  unfold parseMem at h
  split at h
  · next h4 =>
    subst h4
    unfold parseSib at h
    split at h
    · cases h
    next s bs =>
    split at h
    · next h5 =>
      obtain ⟨⟨d, r⟩, hd, h⟩ := Option.map_eq_some_iff.mp h
      cases h
      obtain rfl := parseDisp32_some hd
      refine ⟨⟨rfl, by simp [RmForm.fitsAddrSize, ha]⟩, ?_⟩
      simp only [ModRM.bytes, h5.1]
      rw [show (5 : BitVec 3) = s.extractLsb' 0 3 from h5.2.symm, fieldByte_of]; rfl
    · next h5 =>
      obtain ⟨⟨d, r⟩, hd, h⟩ := Option.map_eq_some_iff.mp h
      cases h
      obtain ⟨rfl, rfl⟩ := parseDisp_some h3 hd
      rw [show d.mod = 0 ↔ d = .none from d.mod_eq_zero] at h5
      refine ⟨⟨by simp [RmForm.canonical]; tauto, by simp [RmForm.fitsAddrSize, ha]⟩, ?_⟩
      simp only [ModRM.bytes, fieldByte_of]; rfl
  next h4 =>
  split at h
  · next h5 =>
    obtain ⟨rfl, rfl⟩ := h5
    obtain ⟨⟨d, r⟩, hd, h⟩ := Option.map_eq_some_iff.mp h
    cases h
    obtain rfl := parseDisp32_some hd
    exact ⟨⟨rfl, by simp [RmForm.fitsAddrSize, ha]⟩, rfl⟩
  · next h5 =>
    obtain ⟨⟨d, r⟩, hd, h⟩ := Option.map_eq_some_iff.mp h
    cases h
    obtain ⟨rfl, rfl⟩ := parseDisp_some h3 hd
    rw [show d.mod = 0 ↔ d = .none from d.mod_eq_zero] at h5
    exact ⟨⟨by simp [RmForm.canonical]; tauto, by simp [RmForm.fitsAddrSize, ha]⟩, rfl⟩

/-- What is read as a ModRM part is well formed, and the bytes read are its bytes. -/
theorem parseModRM_some {cm : CodeMode} {pre : List PrefixItem} {m : ModRM} {bs rest : List Byte}
    (h : parseModRM (addrSize cm pre) bs = some (m, rest)) : m.wf cm pre = true ∧ bs = m.bytes ++ rest := by
  unfold parseModRM at h
  split at h
  · cases h
  next b bs =>
  obtain ⟨⟨f, r⟩, hf, h⟩ := Option.map_eq_some_iff.mp h
  cases h
  obtain ⟨⟨h1, h2⟩, h3⟩ := parseRm_some (reg := b.extractLsb' 3 3) hf
  rw [fieldByte_of] at h3
  exact ⟨by simp [ModRM.wf, h1, h2], h3⟩

/-! ## VEX and EVEX fields -/

theorem Vex2.ofByte_b1 (v : Vex2) : Vex2.ofByte v.b1 = v := by
  rcases v with ⟨r, q, l⟩
  revert r q l; decide

theorem Vex2.b1_ofByte (b : Byte) (h : b.extractLsb' 0 2 = 1#2) : (Vex2.ofByte b).b1 = b := by
  revert h; revert b; decide

theorem Vex2.b1_fields (v : Vex2) :
    v.b1.extractLsb' 0 2 = 1#2 ∧ v.b1.extractLsb' 6 2 = BitVec.ofBool (!v.r) ++ v.vvvv.extractLsb' 3 1 := by
  rcases v with ⟨r, q, l⟩
  revert r q l; decide

theorem Vex3.ofBytes_b (v : Vex3) : Vex3.ofBytes v.b1 v.b2 = v := by
  rcases v with ⟨r, x, b, w, q, l⟩
  have h1 : ∀ r x b : Bool, ∀ t : Byte, Vex3.ofBytes (Vex3.b1 ⟨r, x, b, false, 0, false⟩) t =
      ⟨r, x, b, t.getLsbD 7, t.extractLsb' 3 4, t.getLsbD 2⟩ := by
    intro r x b t; cases r <;> cases x <;> cases b <;> rfl
  have h2 : ∀ (w : Bool) (q : BitVec 4) (l : Bool),
      (Vex3.b2 ⟨false, false, false, w, q, l⟩).getLsbD 7 = w ∧
      (Vex3.b2 ⟨false, false, false, w, q, l⟩).extractLsb' 3 4 = q ∧
      (Vex3.b2 ⟨false, false, false, w, q, l⟩).getLsbD 2 = l := by decide
  obtain ⟨e1, e2, e3⟩ := h2 w q l
  rw [show Vex3.b1 ⟨r, x, b, w, q, l⟩ = Vex3.b1 ⟨r, x, b, false, 0, false⟩ from rfl,
    show Vex3.b2 ⟨r, x, b, w, q, l⟩ = Vex3.b2 ⟨false, false, false, w, q, l⟩ from rfl, h1, e1, e2, e3]

theorem Vex3.b1_fields (v : Vex3) :
    v.b1.extractLsb' 0 5 = 1#5 ∧ v.b1.extractLsb' 6 2 = BitVec.ofBool (!v.r) ++ BitVec.ofBool (!v.x) ∧
      v.b2.extractLsb' 0 2 = 1#2 := by
  rcases v with ⟨r, x, b, w, q, l⟩
  simp only [Vex3.b1, Vex3.b2]
  refine ⟨?_, ?_, ?_⟩
  · revert r x b; decide
  · revert r x b; decide
  · revert w q l; decide

theorem Vex3.b1_ofBytes (b1 b2 : Byte) (h : b1.extractLsb' 0 5 = 1#5) : (Vex3.ofBytes b1 b2).b1 = b1 := by
  simp only [Vex3.ofBytes, Vex3.b1]
  revert h; revert b1; decide

theorem Vex3.b2_ofBytes (b1 b2 : Byte) (h : b2.extractLsb' 0 2 = 1#2) : (Vex3.ofBytes b1 b2).b2 = b2 := by
  simp only [Vex3.ofBytes, Vex3.b2]
  revert h; revert b2; decide

theorem Evex.p0_fields (e : Evex) :
    (!e.p0.getLsbD 7) = e.r ∧ (!e.p0.getLsbD 6) = e.x ∧ (!e.p0.getLsbD 5) = e.b ∧ (!e.p0.getLsbD 4) = e.r' ∧
      e.p0.extractLsb' 0 4 = 1#4 ∧ e.p0.extractLsb' 6 2 = BitVec.ofBool (!e.r) ++ BitVec.ofBool (!e.x) := by
  rcases e with ⟨r, x, b, r', w, q, z, ll, bc, v', a⟩
  simp only [Evex.p0]
  revert r x b r'; decide

theorem Evex.p1_fields (e : Evex) :
    e.p1.getLsbD 7 = e.w ∧ e.p1.extractLsb' 3 4 = e.vvvv ∧ e.p1.getLsbD 2 = true ∧ e.p1.extractLsb' 0 2 = 1#2 := by
  rcases e with ⟨r, x, b, r', w, q, z, ll, bc, v', a⟩
  simp only [Evex.p1]
  revert w q; decide

theorem Evex.p2_fields (e : Evex) :
    e.p2.getLsbD 7 = e.z ∧ e.p2.extractLsb' 5 2 = e.ll ∧ e.p2.getLsbD 4 = e.bc ∧ e.p2.getLsbD 3 = e.vBar' ∧
      e.p2.extractLsb' 0 3 = e.aaa := by
  rcases e with ⟨r, x, b, r', w, q, z, ll, bc, v', a⟩
  simp only [Evex.p2]
  revert z ll bc v' a; decide

theorem Evex.ofBytes_p (e : Evex) : Evex.ofBytes e.p0 e.p1 e.p2 = e := by
  obtain ⟨h1, h2, h3, h4, -⟩ := e.p0_fields
  obtain ⟨h5, h6, -⟩ := e.p1_fields
  obtain ⟨h7, h8, h9, h10, h11⟩ := e.p2_fields
  simp only [Evex.ofBytes, h1, h2, h3, h4, h5, h6, h7, h8, h9, h10, h11]

theorem Evex.p0_ofBytes (p0 p1 p2 : Byte) (h : p0.extractLsb' 0 4 = 1#4) : (Evex.ofBytes p0 p1 p2).p0 = p0 := by
  simp only [Evex.ofBytes, Evex.p0]
  revert h; revert p0; decide

theorem Evex.p1_ofBytes (p0 p1 p2 : Byte) (h : p1.getLsbD 2 = true) (h' : p1.extractLsb' 0 2 = 1#2) :
    (Evex.ofBytes p0 p1 p2).p1 = p1 := by
  simp only [Evex.ofBytes, Evex.p1]
  revert h h'; revert p1; decide

theorem Evex.p2_ofBytes (p0 p1 p2 : Byte) : (Evex.ofBytes p0 p1 p2).p2 = p2 := by
  simp only [Evex.ofBytes, Evex.p2]
  revert p2; decide

/-- In M32 a two-byte VEX prefix is one only with R = 0 and the top bit of vvvv set (R96). -/
theorem opensVex_vex2 (v : Vex2) : opensVex .m32 v.b1 = (!v.r && v.vvvv.getLsbD 3) := by
  rw [show opensVex .m32 v.b1 = decide (v.b1.extractLsb' 6 2 = 3#2) from rfl]
  simp only [v.b1_fields.2]
  generalize v.r = r
  generalize v.vvvv = q
  revert r q; decide

/-- In M32 a three-byte VEX prefix is one only with R = X = 0 (R96). -/
theorem opensVex_vex3 (v : Vex3) : opensVex .m32 v.b1 = (!v.r && !v.x) := by
  rw [show opensVex .m32 v.b1 = decide (v.b1.extractLsb' 6 2 = 3#2) from rfl]
  simp only [v.b1_fields.2.1]
  cases v.r <;> cases v.x <;> rfl

/-- In M32 an EVEX prefix is one only with R = X = 0 (R98). -/
theorem opensVex_evex (e : Evex) : opensVex .m32 e.p0 = (!e.r && !e.x) := by
  rw [show opensVex .m32 e.p0 = decide (e.p0.extractLsb' 6 2 = 3#2) from rfl]
  simp only [e.p0_fields.2.2.2.2.2]
  cases e.r <;> cases e.x <;> rfl

end Sys2Proof
end

