-- ==== Sys2Proof/Laws/State.lean ====
section
/-! SUPPORT. One lemma per field of State for each of its updates, all by rfl, so that no proof unfolds a record
update. -/

namespace Sys2Proof

@[simp] theorem dword_bytes : Width.bytes .dword = 4 := rfl
@[simp] theorem qword_bytes : Width.bytes .qword = 8 := rfl

end Sys2Proof

namespace Sys2Proof.Machine

@[simp] theorem writeGpr_gpr (s : State) (n : BitVec 4) (v : Word64) : (writeGpr s n v).gpr = s.gpr.set n.toNat v n.isLt := rfl
@[simp] theorem writeGpr_x87 (s : State) (n : BitVec 4) (v : Word64) : (writeGpr s n v).x87 = s.x87 := rfl
@[simp] theorem writeGpr_x87Top (s : State) (n : BitVec 4) (v : Word64) : (writeGpr s n v).x87Top = s.x87Top := rfl
@[simp] theorem writeGpr_x87Tags (s : State) (n : BitVec 4) (v : Word64) : (writeGpr s n v).x87Tags = s.x87Tags := rfl
@[simp] theorem writeGpr_x87Pending (s : State) (n : BitVec 4) (v : Word64) : (writeGpr s n v).x87Pending = s.x87Pending := rfl
@[simp] theorem writeGpr_vec (s : State) (n : BitVec 4) (v : Word64) : (writeGpr s n v).vec = s.vec := rfl
@[simp] theorem writeGpr_mxcsr (s : State) (n : BitVec 4) (v : Word64) : (writeGpr s n v).mxcsr = s.mxcsr := rfl
@[simp] theorem writeGpr_eflags (s : State) (n : BitVec 4) (v : Word64) : (writeGpr s n v).eflags = s.eflags := rfl
@[simp] theorem writeGpr_rip (s : State) (n : BitVec 4) (v : Word64) : (writeGpr s n v).rip = s.rip := rfl
@[simp] theorem writeGpr_mode (s : State) (n : BitVec 4) (v : Word64) : (writeGpr s n v).mode = s.mode := rfl
@[simp] theorem writeGpr_realOrV86 (s : State) (n : BitVec 4) (v : Word64) : (writeGpr s n v).realOrV86 = s.realOrV86 := rfl
@[simp] theorem writeGpr_codeDefault16 (s : State) (n : BitVec 4) (v : Word64) : (writeGpr s n v).codeDefault16 = s.codeDefault16 := rfl
@[simp] theorem writeGpr_cr0 (s : State) (n : BitVec 4) (v : Word64) : (writeGpr s n v).cr0 = s.cr0 := rfl
@[simp] theorem writeGpr_cr4 (s : State) (n : BitVec 4) (v : Word64) : (writeGpr s n v).cr4 = s.cr4 := rfl
@[simp] theorem writeGpr_xcr0 (s : State) (n : BitVec 4) (v : Word64) : (writeGpr s n v).xcr0 = s.xcr0 := rfl
@[simp] theorem writeGpr_cpl (s : State) (n : BitVec 4) (v : Word64) : (writeGpr s n v).cpl = s.cpl := rfl
@[simp] theorem writeGpr_segs (s : State) (n : BitVec 4) (v : Word64) : (writeGpr s n v).segs = s.segs := rfl
@[simp] theorem writeGpr_mem (s : State) (n : BitVec 4) (v : Word64) : (writeGpr s n v).mem = s.mem := rfl
@[simp] theorem writeGpr_program (s : State) (n : BitVec 4) (v : Word64) : (writeGpr s n v).program = s.program := rfl
@[simp] theorem writeGpr_plat (s : State) (n : BitVec 4) (v : Word64) : (writeGpr s n v).plat = s.plat := rfl

@[simp] theorem writeMm_gpr (s : State) (n : BitVec 3) (v : Word64) : (writeMm s n v).gpr = s.gpr := rfl
@[simp] theorem writeMm_x87 (s : State) (n : BitVec 3) (v : Word64) : (writeMm s n v).x87 = s.x87.set n.toNat ((s.x87[n.toNat]'n.isLt).extractLsb' 64 16 ++ v) n.isLt := rfl
@[simp] theorem writeMm_x87Top (s : State) (n : BitVec 3) (v : Word64) : (writeMm s n v).x87Top = s.x87Top := rfl
@[simp] theorem writeMm_x87Tags (s : State) (n : BitVec 3) (v : Word64) : (writeMm s n v).x87Tags = s.x87Tags := rfl
@[simp] theorem writeMm_x87Pending (s : State) (n : BitVec 3) (v : Word64) : (writeMm s n v).x87Pending = s.x87Pending := rfl
@[simp] theorem writeMm_vec (s : State) (n : BitVec 3) (v : Word64) : (writeMm s n v).vec = s.vec := rfl
@[simp] theorem writeMm_mxcsr (s : State) (n : BitVec 3) (v : Word64) : (writeMm s n v).mxcsr = s.mxcsr := rfl
@[simp] theorem writeMm_eflags (s : State) (n : BitVec 3) (v : Word64) : (writeMm s n v).eflags = s.eflags := rfl
@[simp] theorem writeMm_rip (s : State) (n : BitVec 3) (v : Word64) : (writeMm s n v).rip = s.rip := rfl
@[simp] theorem writeMm_mode (s : State) (n : BitVec 3) (v : Word64) : (writeMm s n v).mode = s.mode := rfl
@[simp] theorem writeMm_realOrV86 (s : State) (n : BitVec 3) (v : Word64) : (writeMm s n v).realOrV86 = s.realOrV86 := rfl
@[simp] theorem writeMm_codeDefault16 (s : State) (n : BitVec 3) (v : Word64) : (writeMm s n v).codeDefault16 = s.codeDefault16 := rfl
@[simp] theorem writeMm_cr0 (s : State) (n : BitVec 3) (v : Word64) : (writeMm s n v).cr0 = s.cr0 := rfl
@[simp] theorem writeMm_cr4 (s : State) (n : BitVec 3) (v : Word64) : (writeMm s n v).cr4 = s.cr4 := rfl
@[simp] theorem writeMm_xcr0 (s : State) (n : BitVec 3) (v : Word64) : (writeMm s n v).xcr0 = s.xcr0 := rfl
@[simp] theorem writeMm_cpl (s : State) (n : BitVec 3) (v : Word64) : (writeMm s n v).cpl = s.cpl := rfl
@[simp] theorem writeMm_segs (s : State) (n : BitVec 3) (v : Word64) : (writeMm s n v).segs = s.segs := rfl
@[simp] theorem writeMm_mem (s : State) (n : BitVec 3) (v : Word64) : (writeMm s n v).mem = s.mem := rfl
@[simp] theorem writeMm_program (s : State) (n : BitVec 3) (v : Word64) : (writeMm s n v).program = s.program := rfl
@[simp] theorem writeMm_plat (s : State) (n : BitVec 3) (v : Word64) : (writeMm s n v).plat = s.plat := rfl

@[simp] theorem mmxWrite_gpr (s : State) (n : BitVec 3) : (mmxWrite s n).gpr = s.gpr := rfl
@[simp] theorem mmxWrite_x87 (s : State) (n : BitVec 3) : (mmxWrite s n).x87 = s.x87.set n.toNat (BitVec.allOnes 16 ++ readMm s n) n.isLt := rfl
@[simp] theorem mmxWrite_x87Top (s : State) (n : BitVec 3) : (mmxWrite s n).x87Top = s.x87Top := rfl
@[simp] theorem mmxWrite_x87Tags (s : State) (n : BitVec 3) : (mmxWrite s n).x87Tags = s.x87Tags := rfl
@[simp] theorem mmxWrite_x87Pending (s : State) (n : BitVec 3) : (mmxWrite s n).x87Pending = s.x87Pending := rfl
@[simp] theorem mmxWrite_vec (s : State) (n : BitVec 3) : (mmxWrite s n).vec = s.vec := rfl
@[simp] theorem mmxWrite_mxcsr (s : State) (n : BitVec 3) : (mmxWrite s n).mxcsr = s.mxcsr := rfl
@[simp] theorem mmxWrite_eflags (s : State) (n : BitVec 3) : (mmxWrite s n).eflags = s.eflags := rfl
@[simp] theorem mmxWrite_rip (s : State) (n : BitVec 3) : (mmxWrite s n).rip = s.rip := rfl
@[simp] theorem mmxWrite_mode (s : State) (n : BitVec 3) : (mmxWrite s n).mode = s.mode := rfl
@[simp] theorem mmxWrite_realOrV86 (s : State) (n : BitVec 3) : (mmxWrite s n).realOrV86 = s.realOrV86 := rfl
@[simp] theorem mmxWrite_codeDefault16 (s : State) (n : BitVec 3) : (mmxWrite s n).codeDefault16 = s.codeDefault16 := rfl
@[simp] theorem mmxWrite_cr0 (s : State) (n : BitVec 3) : (mmxWrite s n).cr0 = s.cr0 := rfl
@[simp] theorem mmxWrite_cr4 (s : State) (n : BitVec 3) : (mmxWrite s n).cr4 = s.cr4 := rfl
@[simp] theorem mmxWrite_xcr0 (s : State) (n : BitVec 3) : (mmxWrite s n).xcr0 = s.xcr0 := rfl
@[simp] theorem mmxWrite_cpl (s : State) (n : BitVec 3) : (mmxWrite s n).cpl = s.cpl := rfl
@[simp] theorem mmxWrite_segs (s : State) (n : BitVec 3) : (mmxWrite s n).segs = s.segs := rfl
@[simp] theorem mmxWrite_mem (s : State) (n : BitVec 3) : (mmxWrite s n).mem = s.mem := rfl
@[simp] theorem mmxWrite_program (s : State) (n : BitVec 3) : (mmxWrite s n).program = s.program := rfl
@[simp] theorem mmxWrite_plat (s : State) (n : BitVec 3) : (mmxWrite s n).plat = s.plat := rfl

@[simp] theorem mmxTouch_gpr (s : State) : (mmxTouch s).gpr = s.gpr := rfl
@[simp] theorem mmxTouch_x87 (s : State) : (mmxTouch s).x87 = s.x87 := rfl
@[simp] theorem mmxTouch_x87Top (s : State) : (mmxTouch s).x87Top = 0 := rfl
@[simp] theorem mmxTouch_x87Tags (s : State) : (mmxTouch s).x87Tags = 0 := rfl
@[simp] theorem mmxTouch_x87Pending (s : State) : (mmxTouch s).x87Pending = s.x87Pending := rfl
@[simp] theorem mmxTouch_vec (s : State) : (mmxTouch s).vec = s.vec := rfl
@[simp] theorem mmxTouch_mxcsr (s : State) : (mmxTouch s).mxcsr = s.mxcsr := rfl
@[simp] theorem mmxTouch_eflags (s : State) : (mmxTouch s).eflags = s.eflags := rfl
@[simp] theorem mmxTouch_rip (s : State) : (mmxTouch s).rip = s.rip := rfl
@[simp] theorem mmxTouch_mode (s : State) : (mmxTouch s).mode = s.mode := rfl
@[simp] theorem mmxTouch_realOrV86 (s : State) : (mmxTouch s).realOrV86 = s.realOrV86 := rfl
@[simp] theorem mmxTouch_codeDefault16 (s : State) : (mmxTouch s).codeDefault16 = s.codeDefault16 := rfl
@[simp] theorem mmxTouch_cr0 (s : State) : (mmxTouch s).cr0 = s.cr0 := rfl
@[simp] theorem mmxTouch_cr4 (s : State) : (mmxTouch s).cr4 = s.cr4 := rfl
@[simp] theorem mmxTouch_xcr0 (s : State) : (mmxTouch s).xcr0 = s.xcr0 := rfl
@[simp] theorem mmxTouch_cpl (s : State) : (mmxTouch s).cpl = s.cpl := rfl
@[simp] theorem mmxTouch_segs (s : State) : (mmxTouch s).segs = s.segs := rfl
@[simp] theorem mmxTouch_mem (s : State) : (mmxTouch s).mem = s.mem := rfl
@[simp] theorem mmxTouch_program (s : State) : (mmxTouch s).program = s.program := rfl
@[simp] theorem mmxTouch_plat (s : State) : (mmxTouch s).plat = s.plat := rfl

@[simp] theorem writeVec_gpr (s : State) (n : BitVec 5) (v : VecWord) : (writeVec s n v).gpr = s.gpr := rfl
@[simp] theorem writeVec_x87 (s : State) (n : BitVec 5) (v : VecWord) : (writeVec s n v).x87 = s.x87 := rfl
@[simp] theorem writeVec_x87Top (s : State) (n : BitVec 5) (v : VecWord) : (writeVec s n v).x87Top = s.x87Top := rfl
@[simp] theorem writeVec_x87Tags (s : State) (n : BitVec 5) (v : VecWord) : (writeVec s n v).x87Tags = s.x87Tags := rfl
@[simp] theorem writeVec_x87Pending (s : State) (n : BitVec 5) (v : VecWord) : (writeVec s n v).x87Pending = s.x87Pending := rfl
@[simp] theorem writeVec_vec (s : State) (n : BitVec 5) (v : VecWord) : (writeVec s n v).vec = s.vec.set n.toNat (maskVec s.plat.maxvl v) n.isLt := rfl
@[simp] theorem writeVec_mxcsr (s : State) (n : BitVec 5) (v : VecWord) : (writeVec s n v).mxcsr = s.mxcsr := rfl
@[simp] theorem writeVec_eflags (s : State) (n : BitVec 5) (v : VecWord) : (writeVec s n v).eflags = s.eflags := rfl
@[simp] theorem writeVec_rip (s : State) (n : BitVec 5) (v : VecWord) : (writeVec s n v).rip = s.rip := rfl
@[simp] theorem writeVec_mode (s : State) (n : BitVec 5) (v : VecWord) : (writeVec s n v).mode = s.mode := rfl
@[simp] theorem writeVec_realOrV86 (s : State) (n : BitVec 5) (v : VecWord) : (writeVec s n v).realOrV86 = s.realOrV86 := rfl
@[simp] theorem writeVec_codeDefault16 (s : State) (n : BitVec 5) (v : VecWord) : (writeVec s n v).codeDefault16 = s.codeDefault16 := rfl
@[simp] theorem writeVec_cr0 (s : State) (n : BitVec 5) (v : VecWord) : (writeVec s n v).cr0 = s.cr0 := rfl
@[simp] theorem writeVec_cr4 (s : State) (n : BitVec 5) (v : VecWord) : (writeVec s n v).cr4 = s.cr4 := rfl
@[simp] theorem writeVec_xcr0 (s : State) (n : BitVec 5) (v : VecWord) : (writeVec s n v).xcr0 = s.xcr0 := rfl
@[simp] theorem writeVec_cpl (s : State) (n : BitVec 5) (v : VecWord) : (writeVec s n v).cpl = s.cpl := rfl
@[simp] theorem writeVec_segs (s : State) (n : BitVec 5) (v : VecWord) : (writeVec s n v).segs = s.segs := rfl
@[simp] theorem writeVec_mem (s : State) (n : BitVec 5) (v : VecWord) : (writeVec s n v).mem = s.mem := rfl
@[simp] theorem writeVec_program (s : State) (n : BitVec 5) (v : VecWord) : (writeVec s n v).program = s.program := rfl
@[simp] theorem writeVec_plat (s : State) (n : BitVec 5) (v : VecWord) : (writeVec s n v).plat = s.plat := rfl

@[simp] theorem writeXmmKeep_gpr (s : State) (n : BitVec 5) (v : BitVec 128) : (writeXmmKeep s n v).gpr = s.gpr := rfl
@[simp] theorem writeXmmKeep_x87 (s : State) (n : BitVec 5) (v : BitVec 128) : (writeXmmKeep s n v).x87 = s.x87 := rfl
@[simp] theorem writeXmmKeep_x87Top (s : State) (n : BitVec 5) (v : BitVec 128) : (writeXmmKeep s n v).x87Top = s.x87Top := rfl
@[simp] theorem writeXmmKeep_x87Tags (s : State) (n : BitVec 5) (v : BitVec 128) : (writeXmmKeep s n v).x87Tags = s.x87Tags := rfl
@[simp] theorem writeXmmKeep_x87Pending (s : State) (n : BitVec 5) (v : BitVec 128) : (writeXmmKeep s n v).x87Pending = s.x87Pending := rfl
@[simp] theorem writeXmmKeep_vec (s : State) (n : BitVec 5) (v : BitVec 128) : (writeXmmKeep s n v).vec = s.vec.set n.toNat (maskVec s.plat.maxvl ((readVec s n).extractLsb' 128 384 ++ v)) n.isLt := rfl
@[simp] theorem writeXmmKeep_mxcsr (s : State) (n : BitVec 5) (v : BitVec 128) : (writeXmmKeep s n v).mxcsr = s.mxcsr := rfl
@[simp] theorem writeXmmKeep_eflags (s : State) (n : BitVec 5) (v : BitVec 128) : (writeXmmKeep s n v).eflags = s.eflags := rfl
@[simp] theorem writeXmmKeep_rip (s : State) (n : BitVec 5) (v : BitVec 128) : (writeXmmKeep s n v).rip = s.rip := rfl
@[simp] theorem writeXmmKeep_mode (s : State) (n : BitVec 5) (v : BitVec 128) : (writeXmmKeep s n v).mode = s.mode := rfl
@[simp] theorem writeXmmKeep_realOrV86 (s : State) (n : BitVec 5) (v : BitVec 128) : (writeXmmKeep s n v).realOrV86 = s.realOrV86 := rfl
@[simp] theorem writeXmmKeep_codeDefault16 (s : State) (n : BitVec 5) (v : BitVec 128) : (writeXmmKeep s n v).codeDefault16 = s.codeDefault16 := rfl
@[simp] theorem writeXmmKeep_cr0 (s : State) (n : BitVec 5) (v : BitVec 128) : (writeXmmKeep s n v).cr0 = s.cr0 := rfl
@[simp] theorem writeXmmKeep_cr4 (s : State) (n : BitVec 5) (v : BitVec 128) : (writeXmmKeep s n v).cr4 = s.cr4 := rfl
@[simp] theorem writeXmmKeep_xcr0 (s : State) (n : BitVec 5) (v : BitVec 128) : (writeXmmKeep s n v).xcr0 = s.xcr0 := rfl
@[simp] theorem writeXmmKeep_cpl (s : State) (n : BitVec 5) (v : BitVec 128) : (writeXmmKeep s n v).cpl = s.cpl := rfl
@[simp] theorem writeXmmKeep_segs (s : State) (n : BitVec 5) (v : BitVec 128) : (writeXmmKeep s n v).segs = s.segs := rfl
@[simp] theorem writeXmmKeep_mem (s : State) (n : BitVec 5) (v : BitVec 128) : (writeXmmKeep s n v).mem = s.mem := rfl
@[simp] theorem writeXmmKeep_program (s : State) (n : BitVec 5) (v : BitVec 128) : (writeXmmKeep s n v).program = s.program := rfl
@[simp] theorem writeXmmKeep_plat (s : State) (n : BitVec 5) (v : BitVec 128) : (writeXmmKeep s n v).plat = s.plat := rfl

@[simp] theorem writeXmmZero_gpr (s : State) (n : BitVec 5) (v : BitVec 128) : (writeXmmZero s n v).gpr = s.gpr := rfl
@[simp] theorem writeXmmZero_x87 (s : State) (n : BitVec 5) (v : BitVec 128) : (writeXmmZero s n v).x87 = s.x87 := rfl
@[simp] theorem writeXmmZero_x87Top (s : State) (n : BitVec 5) (v : BitVec 128) : (writeXmmZero s n v).x87Top = s.x87Top := rfl
@[simp] theorem writeXmmZero_x87Tags (s : State) (n : BitVec 5) (v : BitVec 128) : (writeXmmZero s n v).x87Tags = s.x87Tags := rfl
@[simp] theorem writeXmmZero_x87Pending (s : State) (n : BitVec 5) (v : BitVec 128) : (writeXmmZero s n v).x87Pending = s.x87Pending := rfl
@[simp] theorem writeXmmZero_vec (s : State) (n : BitVec 5) (v : BitVec 128) : (writeXmmZero s n v).vec = s.vec.set n.toNat (maskVec s.plat.maxvl (v.setWidth 512)) n.isLt := rfl
@[simp] theorem writeXmmZero_mxcsr (s : State) (n : BitVec 5) (v : BitVec 128) : (writeXmmZero s n v).mxcsr = s.mxcsr := rfl
@[simp] theorem writeXmmZero_eflags (s : State) (n : BitVec 5) (v : BitVec 128) : (writeXmmZero s n v).eflags = s.eflags := rfl
@[simp] theorem writeXmmZero_rip (s : State) (n : BitVec 5) (v : BitVec 128) : (writeXmmZero s n v).rip = s.rip := rfl
@[simp] theorem writeXmmZero_mode (s : State) (n : BitVec 5) (v : BitVec 128) : (writeXmmZero s n v).mode = s.mode := rfl
@[simp] theorem writeXmmZero_realOrV86 (s : State) (n : BitVec 5) (v : BitVec 128) : (writeXmmZero s n v).realOrV86 = s.realOrV86 := rfl
@[simp] theorem writeXmmZero_codeDefault16 (s : State) (n : BitVec 5) (v : BitVec 128) : (writeXmmZero s n v).codeDefault16 = s.codeDefault16 := rfl
@[simp] theorem writeXmmZero_cr0 (s : State) (n : BitVec 5) (v : BitVec 128) : (writeXmmZero s n v).cr0 = s.cr0 := rfl
@[simp] theorem writeXmmZero_cr4 (s : State) (n : BitVec 5) (v : BitVec 128) : (writeXmmZero s n v).cr4 = s.cr4 := rfl
@[simp] theorem writeXmmZero_xcr0 (s : State) (n : BitVec 5) (v : BitVec 128) : (writeXmmZero s n v).xcr0 = s.xcr0 := rfl
@[simp] theorem writeXmmZero_cpl (s : State) (n : BitVec 5) (v : BitVec 128) : (writeXmmZero s n v).cpl = s.cpl := rfl
@[simp] theorem writeXmmZero_segs (s : State) (n : BitVec 5) (v : BitVec 128) : (writeXmmZero s n v).segs = s.segs := rfl
@[simp] theorem writeXmmZero_mem (s : State) (n : BitVec 5) (v : BitVec 128) : (writeXmmZero s n v).mem = s.mem := rfl
@[simp] theorem writeXmmZero_program (s : State) (n : BitVec 5) (v : BitVec 128) : (writeXmmZero s n v).program = s.program := rfl
@[simp] theorem writeXmmZero_plat (s : State) (n : BitVec 5) (v : BitVec 128) : (writeXmmZero s n v).plat = s.plat := rfl

@[simp] theorem advance_gpr (s : State) (k : Nat) : (advance s k).gpr = s.gpr := rfl
@[simp] theorem advance_x87 (s : State) (k : Nat) : (advance s k).x87 = s.x87 := rfl
@[simp] theorem advance_x87Top (s : State) (k : Nat) : (advance s k).x87Top = s.x87Top := rfl
@[simp] theorem advance_x87Tags (s : State) (k : Nat) : (advance s k).x87Tags = s.x87Tags := rfl
@[simp] theorem advance_x87Pending (s : State) (k : Nat) : (advance s k).x87Pending = s.x87Pending := rfl
@[simp] theorem advance_vec (s : State) (k : Nat) : (advance s k).vec = s.vec := rfl
@[simp] theorem advance_mxcsr (s : State) (k : Nat) : (advance s k).mxcsr = s.mxcsr := rfl
@[simp] theorem advance_eflags (s : State) (k : Nat) : (advance s k).eflags = s.eflags := rfl
@[simp] theorem advance_rip (s : State) (k : Nat) : (advance s k).rip = s.rip + BitVec.ofNat 64 k := rfl
@[simp] theorem advance_mode (s : State) (k : Nat) : (advance s k).mode = s.mode := rfl
@[simp] theorem advance_realOrV86 (s : State) (k : Nat) : (advance s k).realOrV86 = s.realOrV86 := rfl
@[simp] theorem advance_codeDefault16 (s : State) (k : Nat) : (advance s k).codeDefault16 = s.codeDefault16 := rfl
@[simp] theorem advance_cr0 (s : State) (k : Nat) : (advance s k).cr0 = s.cr0 := rfl
@[simp] theorem advance_cr4 (s : State) (k : Nat) : (advance s k).cr4 = s.cr4 := rfl
@[simp] theorem advance_xcr0 (s : State) (k : Nat) : (advance s k).xcr0 = s.xcr0 := rfl
@[simp] theorem advance_cpl (s : State) (k : Nat) : (advance s k).cpl = s.cpl := rfl
@[simp] theorem advance_segs (s : State) (k : Nat) : (advance s k).segs = s.segs := rfl
@[simp] theorem advance_mem (s : State) (k : Nat) : (advance s k).mem = s.mem := rfl
@[simp] theorem advance_program (s : State) (k : Nat) : (advance s k).program = s.program := rfl
@[simp] theorem advance_plat (s : State) (k : Nat) : (advance s k).plat = s.plat := rfl

@[simp] theorem setMem_gpr (s : State) (m : Memory) : (setMem s m).gpr = s.gpr := rfl
@[simp] theorem setMem_x87 (s : State) (m : Memory) : (setMem s m).x87 = s.x87 := rfl
@[simp] theorem setMem_x87Top (s : State) (m : Memory) : (setMem s m).x87Top = s.x87Top := rfl
@[simp] theorem setMem_x87Tags (s : State) (m : Memory) : (setMem s m).x87Tags = s.x87Tags := rfl
@[simp] theorem setMem_x87Pending (s : State) (m : Memory) : (setMem s m).x87Pending = s.x87Pending := rfl
@[simp] theorem setMem_vec (s : State) (m : Memory) : (setMem s m).vec = s.vec := rfl
@[simp] theorem setMem_mxcsr (s : State) (m : Memory) : (setMem s m).mxcsr = s.mxcsr := rfl
@[simp] theorem setMem_eflags (s : State) (m : Memory) : (setMem s m).eflags = s.eflags := rfl
@[simp] theorem setMem_rip (s : State) (m : Memory) : (setMem s m).rip = s.rip := rfl
@[simp] theorem setMem_mode (s : State) (m : Memory) : (setMem s m).mode = s.mode := rfl
@[simp] theorem setMem_realOrV86 (s : State) (m : Memory) : (setMem s m).realOrV86 = s.realOrV86 := rfl
@[simp] theorem setMem_codeDefault16 (s : State) (m : Memory) : (setMem s m).codeDefault16 = s.codeDefault16 := rfl
@[simp] theorem setMem_cr0 (s : State) (m : Memory) : (setMem s m).cr0 = s.cr0 := rfl
@[simp] theorem setMem_cr4 (s : State) (m : Memory) : (setMem s m).cr4 = s.cr4 := rfl
@[simp] theorem setMem_xcr0 (s : State) (m : Memory) : (setMem s m).xcr0 = s.xcr0 := rfl
@[simp] theorem setMem_cpl (s : State) (m : Memory) : (setMem s m).cpl = s.cpl := rfl
@[simp] theorem setMem_segs (s : State) (m : Memory) : (setMem s m).segs = s.segs := rfl
@[simp] theorem setMem_mem (s : State) (m : Memory) : (setMem s m).mem = m := rfl
@[simp] theorem setMem_program (s : State) (m : Memory) : (setMem s m).program = s.program := rfl
@[simp] theorem setMem_plat (s : State) (m : Memory) : (setMem s m).plat = s.plat := rfl

end Sys2Proof.Machine
end

