-- ==== Sys2Proof/Laws/Memory.lean ====
section
/-! SUPPORT. Memory: read after write, and that every memory operation keeps the canonical form. -/

namespace Sys2Proof.Machine

@[simp] theorem Memory.read_nil (a : Nat) : Memory.read [] a = unlistedByte := rfl

theorem Memory.read_cons (c : Host.Cell) (r : Memory) (a : Nat) :
    Memory.read (c :: r) a = if c.1 = a then c.2 else Memory.read r a := rfl

theorem Memory.erase_cons (c : Host.Cell) (r : Memory) (a : Nat) :
    Memory.erase (c :: r) a = if c.1 = a then Memory.erase r a else c :: Memory.erase r a := by
  by_cases h : c.1 = a <;> simp [Memory.erase, h]

theorem Memory.read_erase (m : Memory) (a x : Nat) :
    (m.erase a).read x = if x = a then unlistedByte else m.read x := by
  induction m with
  | nil => simp [Memory.erase]
  | cons c r ih =>
    rw [Memory.erase_cons]
    by_cases hc : c.1 = a
    · rw [if_pos hc, ih, Memory.read_cons]
      by_cases hx : x = a
      · simp [hx]
      · rw [if_neg hx, if_neg hx, if_neg (by omega)]
    · rw [if_neg hc, Memory.read_cons, ih, Memory.read_cons]
      by_cases hx : x = a
      · subst hx; simp [hc]
      · simp [hx]

theorem Memory.read_insert (m : Memory) (a x : Nat) (b : Byte) (h : m.read a = unlistedByte ∧ ∀ c ∈ m, c.1 ≠ a) :
    (m.insert a b).read x = if x = a then b else m.read x := by
  induction m with
  | nil => simp [Memory.insert, Memory.read_cons, eq_comm]
  | cons c r ih =>
    have hc : c.1 ≠ a := h.2 c (by simp)
    have hr : Memory.read r a = unlistedByte ∧ ∀ d ∈ r, d.1 ≠ a :=
      ⟨by simpa [Memory.read_cons, hc] using h.1, fun d hd => h.2 d (by simp [hd])⟩
    simp only [Memory.insert]
    split
    · by_cases hx : x = a
      · simp [Memory.read_cons, hx]
      · rw [Memory.read_cons, if_neg (by simpa [eq_comm] using hx), if_neg hx]
    · rw [Memory.read_cons, ih hr, Memory.read_cons]
      by_cases hx : x = a
      · subst hx; simp [hc]
      · simp [hx]

theorem Memory.not_mem_erase (m : Memory) (a : Nat) : ∀ c ∈ m.erase a, c.1 ≠ a := by
  intro c hc
  simpa [Memory.erase] using (List.mem_filter.mp hc).2

/-- A read after a write: the written byte at its address, any other byte as before. -/
theorem Memory.read_write (m : Memory) (a x : Nat) (b : Byte) :
    (m.write a b).read x = if x = a then b else m.read x := by
  unfold Memory.write
  split
  · next hb => rw [Memory.read_erase, hb]
  · rw [Memory.read_insert _ _ _ _ ⟨by simp [Memory.read_erase], Memory.not_mem_erase m a⟩, Memory.read_erase]
    by_cases hx : x = a <;> simp [hx]

@[simp] theorem Memory.writeAll_nil (m : Memory) : m.writeAll [] = m := rfl

@[simp] theorem Memory.writeAll_cons (m : Memory) (c : Host.Cell) (cs : List Host.Cell) :
    m.writeAll (c :: cs) = (m.write c.1 c.2).writeAll cs := rfl

/-- A byte none of the writes names is as before. -/
theorem Memory.read_writeAll_other (m : Memory) (cells : List Host.Cell) (x : Nat) (h : ∀ c ∈ cells, c.1 ≠ x) :
    (m.writeAll cells).read x = m.read x := by
  induction cells generalizing m with
  | nil => rfl
  | cons c r ih =>
    rw [Memory.writeAll_cons, ih _ fun d hd => h d (by simp [hd]), Memory.read_write]
    rw [if_neg (fun e => h c (by simp) e.symm)]

/-- Where no two writes name one address, each written byte is read back. -/
theorem Memory.read_writeAll_mem (m : Memory) (cells : List Host.Cell) (hn : (cells.map Prod.fst).Nodup)
    (c : Host.Cell) (hc : c ∈ cells) : (m.writeAll cells).read c.1 = c.2 := by
  induction cells generalizing m with
  | nil => simp at hc
  | cons d r ih =>
    simp only [List.map_cons, List.nodup_cons] at hn
    rw [Memory.writeAll_cons]
    rcases List.mem_cons.mp hc with rfl | hr
    · rw [Memory.read_writeAll_other _ _ _ fun e he h => hn.1 (List.mem_map.mpr ⟨e, he, h⟩), Memory.read_write,
        if_pos rfl]
    · exact ih _ hn.2 hr

/-! ## The canonical form -/

/-- The canonical form, said as a property of lists. -/
theorem Memory.wf_iff (m : Memory) :
    m.wf = true ↔ (∀ c ∈ m, c.2 ≠ unlistedByte) ∧ m.Pairwise fun c d => c.1 < d.1 := by
  induction m with
  | nil => simp [Memory.wf]
  | cons c r ih =>
    cases r with
    | nil => simp [Memory.wf]
    | cons d r =>
      rw [Memory.wf]
      simp only [Bool.and_eq_true, decide_eq_true_eq, ih, List.pairwise_cons, List.mem_cons]
      constructor
      · rintro ⟨⟨h1, h2⟩, h3, h4, h5⟩
        refine ⟨?_, ?_, h4, h5⟩
        · rintro x (rfl | hx)
          · exact h1
          · exact h3 x hx
        · rintro x (rfl | hx)
          · exact h2
          · exact h2.trans (h4 x hx)
      · rintro ⟨h1, h2, h3, h4⟩
        exact ⟨⟨h1 c (by simp), h2 d (by simp)⟩, fun x hx => h1 x (by simp [hx]), h3, h4⟩

theorem Memory.erase_wf (m : Memory) (a : Nat) (h : m.wf) : (m.erase a).wf := by
  rw [Memory.wf_iff] at h ⊢
  exact ⟨fun c hc => h.1 c (List.mem_of_mem_filter hc), h.2.filter _⟩

theorem Memory.mem_insert (m : Memory) (a : Nat) (b : Byte) (c : Host.Cell) :
    c ∈ m.insert a b ↔ c = (a, b) ∨ c ∈ m := by
  induction m with
  | nil => simp [Memory.insert]
  | cons d r ih =>
    simp only [Memory.insert]
    split
    · simp
    · simp only [List.mem_cons, ih]
      tauto

theorem Memory.insert_wf (m : Memory) (a : Nat) (b : Byte) (hb : b ≠ unlistedByte) (hm : ∀ c ∈ m, c.1 ≠ a)
    (h : m.wf) : (m.insert a b).wf := by
  rw [Memory.wf_iff] at h ⊢
  refine ⟨?_, ?_⟩
  · intro c hc
    rcases (Memory.mem_insert m a b c).mp hc with rfl | hc
    · exact hb
    · exact h.1 c hc
  · have hp := h.2
    clear h
    induction m with
    | nil => simp [Memory.insert]
    | cons d r ih =>
      rw [List.pairwise_cons] at hp
      have hd : d.1 ≠ a := hm d (by simp)
      simp only [Memory.insert]
      split
      · next hlt =>
        rw [List.pairwise_cons]
        refine ⟨?_, List.pairwise_cons.mpr hp⟩
        intro c hc
        rcases List.mem_cons.mp hc with rfl | hc
        · exact hlt
        · exact hlt.trans (hp.1 c hc)
      · next hnlt =>
        rw [List.pairwise_cons]
        refine ⟨?_, ih (fun c hc => hm c (by simp [hc])) hp.2⟩
        intro c hc
        rcases (Memory.mem_insert r a b c).mp hc with rfl | hc
        · simp only
          omega
        · exact hp.1 c hc

/-- A write keeps the canonical form. -/
theorem Memory.write_wf (m : Memory) (a : Nat) (b : Byte) (h : m.wf) : (m.write a b).wf := by
  unfold Memory.write
  split
  · exact Memory.erase_wf m a h
  · next hb => exact Memory.insert_wf _ a b hb (Memory.not_mem_erase m a) (Memory.erase_wf m a h)

/-- Any list of writes keeps the canonical form. -/
theorem Memory.writeAll_wf (m : Memory) (cells : List Host.Cell) (h : m.wf) : (m.writeAll cells).wf := by
  induction cells generalizing m with
  | nil => exact h
  | cons c r ih => exact ih _ (Memory.write_wf m c.1 c.2 h)

theorem reset_mem_wf : State.reset.mem.wf := by decide

end Sys2Proof.Machine
end

