-- ==== Sys2Proof/Laws/Ops.lean ====
section
/-! SUPPORT. For each shared operation, one lemma that says all it can do; proofs cite it and do not unfold it. -/

namespace Sys2Proof.Machine

/-! ## Chaining -/

@[simp] theorem bind_next {α β : Type} (a : α) (f : α → Res β) : Res.bind (.next a) f = f a := rfl
@[simp] theorem bind_fault {α β : Type} (r : Fault) (f : α → Res β) : Res.bind (.fault r) f = .fault r := rfl
@[simp] theorem bind_refused {α β : Type} (r : Refusal) (f : α → Res β) : Res.bind (.refused r) f = .refused r := rfl

theorem bind_eq_next {α β : Type} {x : Res α} {f : α → Res β} {b : β} :
    x.bind f = .next b ↔ ∃ a, x = .next a ∧ f a = .next b := by
  cases x <;> simp

theorem bind_eq_fault {α β : Type} {x : Res α} {f : α → Res β} {r : Fault} :
    x.bind f = .fault r ↔ x = .fault r ∨ ∃ a, x = .next a ∧ f a = .fault r := by
  cases x <;> simp

/-! ## The gate -/

/-- A gate passes exactly when nothing it checks applies. -/
theorem gate_eq_next {s : State} {n : Nat} {ud nm mf : Bool} {no : Option Refusal} {u : Unit} :
    gate s n ud nm mf no = .next u ↔
      IpFits s n ∧ ud = false ∧ nm = false ∧ mf = false ∧ no = none := by
  unfold gate IpFits raise
  cases hip : ipOk s n <;> simp
  by_cases hl : maxIlen < n
  · simp [hl]
  · have : n ≤ maxIlen := by omega
    cases ud <;> cases nm <;> cases mf <;> cases no <;> simp [hl, this]

/-- Past the instruction pointer and the length, a #UD condition decides. -/
theorem gate_ud {s : State} {n : Nat} {nm mf : Bool} {no : Option Refusal} (h : IpFits s n) :
    gate s n true nm mf no = .fault (.ud s.rip) := by
  simp [gate, raise, h.1, Nat.not_lt.mpr h.2]

theorem gate_nm {s : State} {n : Nat} {mf : Bool} {no : Option Refusal} (h : IpFits s n) :
    gate s n false true mf no = .fault (.nm s.rip) := by
  simp [gate, raise, h.1, Nat.not_lt.mpr h.2]

theorem gate_mf {s : State} {n : Nat} {no : Option Refusal} (h : IpFits s n) :
    gate s n false false true no = .fault (.mf s.rip) := by
  simp [gate, raise, h.1, Nat.not_lt.mpr h.2]

theorem gate_no {s : State} {n : Nat} {no : Option Refusal} (h : IpFits s n) :
    gate s n false false false no = match no with | some r => .refused r | none => .next () := by
  cases no <;> simp [gate, h.1, Nat.not_lt.mpr h.2]

theorem gate_wrap {s : State} {n : Nat} {ud nm mf : Bool} {no : Option Refusal} (h : ipOk s n = false) :
    gate s n ud nm mf no = .refused .ipWrap := by
  simp [gate, h]

theorem gate_long {s : State} {n : Nat} {ud nm mf : Bool} {no : Option Refusal} (h : ipOk s n = true)
    (hl : maxIlen < n) : gate s n ud nm mf no = .fault (.gp s.rip) := by
  simp [gate, raise, h, hl]

/-- The faults a gate can raise. -/
theorem gate_eq_fault {s : State} {n : Nat} {ud nm mf : Bool} {no : Option Refusal} {f : Fault}
    (h : gate s n ud nm mf no = .fault f) :
    (maxIlen < n ∧ f = .gp s.rip) ∨ f = .ud s.rip ∨ f = .nm s.rip ∨ f = .mf s.rip := by
  unfold gate raise at h
  split at h
  · cases h
  · split at h
    · next hl => cases h; exact .inl ⟨hl, rfl⟩
    · split at h
      · cases h; exact .inr (.inl rfl)
      · split at h
        · cases h; exact .inr (.inr (.inl rfl))
        · split at h
          · cases h; exact .inr (.inr (.inr rfl))
          · split at h <;> cases h

/-! ## Translate and the data accesses -/

/-- Translate admits an access exactly when no segment, platform, page or alignment fault applies; it answers the linear
address. -/
theorem translate_eq_next {s : State} {seg : Seg} {off la : Word64} {n : Nat} {k : Access} :
    translate s seg off n k = .next la ↔
      segAdmits s seg off n k = true ∧ accessException s seg off n k = none ∧
        pageFault s (linear s seg off) n k = none ∧ alignFault s (linear s seg off) n = false ∧ la = linear s seg off := by
  unfold translate raise
  cases segAdmits s seg off n k <;> simp
  cases accessException s seg off n k with
  | some x => simp
  | none =>
  cases pageFault s (linear s seg off) n k with
  | some p => simp
  | none => cases alignFault s (linear s seg off) n <;> simp [eq_comm]

theorem segFault_savedIp (s : State) (seg : Seg) : (segFault s seg s.rip).savedIp = s.rip := by
  unfold segFault
  split <;> rfl

theorem ruleFault_savedIp (x : AccessException) (ip : Word64) : (ruleFault x ip).savedIp = ip := by
  cases x <;> rfl

/-- Every fault of Translate saves the instruction's address. -/
theorem translate_fault_savedIp {s : State} {seg : Seg} {off : Word64} {n : Nat} {k : Access} {f : Fault}
    (h : translate s seg off n k = .fault f) : f.savedIp = s.rip := by
  unfold translate raise at h
  split at h
  · split at h
    · cases h; exact ruleFault_savedIp _ s.rip
    · split at h
      · cases h; rfl
      · split at h
        · cases h; rfl
        · cases h
  · cases h; exact segFault_savedIp s seg

/-- A read answers exactly when the access is admitted, with the little-endian value. -/
theorem memRead_eq_next {w : Width} {s : State} {seg : Seg} {off : Word64} {v : BitVec w.bits} :
    memRead w s seg off = .next v ↔ Admits s seg off w .read ∧ v = loadLE s (linear s seg off) w := by
  unfold memRead
  rw [bind_eq_next]
  constructor
  · rintro ⟨la, ht, h⟩
    obtain ⟨h1, hp, h2, h3, rfl⟩ := translate_eq_next.mp ht
    split at h
    · cases h
    · next hd => cases h; exact ⟨⟨h1, hp, h2, h3, by simpa using hd, by simp⟩, rfl⟩
  · rintro ⟨⟨h1, hp, h2, h3, h4, -⟩, rfl⟩
    exact ⟨_, translate_eq_next.mpr ⟨h1, hp, h2, h3, rfl⟩, by simp [h4]⟩

/-- A write answers exactly when the access is admitted; it changes memory only, and there the operand's bytes. -/
theorem memWrite_eq_next {w : Width} {s t : State} {seg : Seg} {off : Word64} {v : BitVec w.bits} :
    memWrite w s seg off v = .next t ↔
      Admits s seg off w .write ∧
        t = setMem s (s.mem.writeAll (operandCells s.mode (linear s seg off) w v)) := by
  unfold memWrite
  rw [bind_eq_next]
  constructor
  · rintro ⟨la, ht, h⟩
    obtain ⟨h1, hp, h2, h3, rfl⟩ := translate_eq_next.mp ht
    split at h
    · cases h
    · split at h
      · cases h
      · next hd hn => cases h; exact ⟨⟨h1, hp, h2, h3, by simpa using hd, fun _ => by simpa using hn⟩, rfl⟩
  · rintro ⟨⟨h1, hp, h2, h3, h4, h5⟩, rfl⟩
    exact ⟨_, translate_eq_next.mpr ⟨h1, hp, h2, h3, rfl⟩, by simp [h4, h5 rfl]⟩

theorem memRead_fault {w : Width} {s : State} {seg : Seg} {off : Word64} {f : Fault}
    (h : memRead w s seg off = .fault f) : translate s seg off w.bytes .read = .fault f := by
  unfold memRead at h
  rcases bind_eq_fault.mp h with h | ⟨la, -, h⟩
  · exact h
  · split at h <;> cases h

theorem memWrite_fault {w : Width} {s : State} {seg : Seg} {off : Word64} {v : BitVec w.bits} {f : Fault}
    (h : memWrite w s seg off v = .fault f) : translate s seg off w.bytes .write = .fault f := by
  unfold memWrite at h
  rcases bind_eq_fault.mp h with h | ⟨la, -, h⟩
  · exact h
  · split at h
    · cases h
    · split at h <;> cases h

/-! ## Bytes of an operand -/

theorem ofBytesLE_byte (l : List Byte) (k : Nat) (h : k < l.length) : ofBytesLE l / 256 ^ k % 256 = (l[k]).toNat := by
  induction l generalizing k with
  | nil => simp at h
  | cons b r ih =>
    cases k with
    | zero =>
      have := b.isLt
      simp [ofBytesLE]; omega
    | succ k =>
      have hk : k < r.length := by simpa using h
      have hb := b.isLt
      rw [List.getElem_cons_succ, ← ih k hk, Nat.pow_succ', ← Nat.div_div_eq_div_mul]
      congr 2
      simp only [ofBytesLE]; omega

/-- Byte `k` of a loaded value is the byte of memory at its address. -/
theorem loadLE_byte (s : State) (la : Word64) (w : Width) (k : Nat) (h : k < w.bytes) :
    (loadLE s la w).extractLsb' (8 * k) 8 = s.mem.read (byteAddr s.mode la k) := by
  have hl := ofBytesLE_byte ((List.range w.bytes).map fun k => s.mem.read (byteAddr s.mode la k)) k (by simpa using h)
  apply BitVec.eq_of_toNat_eq
  rw [List.getElem_map, List.getElem_range] at hl
  rw [← hl, BitVec.extractLsb'_toNat, loadLE, BitVec.toNat_ofNat, Nat.shiftRight_eq_div_pow, Nat.pow_mul]
  have hw : 2 ^ w.bits = 256 ^ w.bytes := by cases w <;> rfl
  rw [hw]
  obtain ⟨j, hj⟩ : ∃ j, w.bytes = k + 1 + j := ⟨w.bytes - (k + 1), by omega⟩
  generalize ofBytesLE _ = x
  rw [hj]
  show x % 256 ^ (k + 1 + j) / 256 ^ k % 256 = x / 256 ^ k % 256
  rw [show k + 1 + j = k + (1 + j) by omega, Nat.pow_add, Nat.mod_mul_right_div_self, Nat.pow_add, Nat.pow_one,
    Nat.mod_mul_right_mod]

/-- A value is its bytes. -/
theorem eq_of_bytes {w : Width} {x y : BitVec w.bits}
    (h : ∀ k, k < w.bytes → x.extractLsb' (8 * k) 8 = y.extractLsb' (8 * k) 8) : x = y := by
  apply BitVec.eq_of_getLsbD_eq
  intro i hi
  have hb : w.bits = 8 * w.bytes := by cases w <;> rfl
  have hk := congrArg (fun v => v.getLsbD (i % 8)) (h (i / 8) (by omega))
  simp only [BitVec.getLsbD_extractLsb'] at hk
  rw [show 8 * (i / 8) + i % 8 = i by omega] at hk
  simpa [Nat.mod_lt] using hk

theorem byteAddr_inj {mode : Mode} {la : Word64} {j k : Nat} (hj : j < 2 ^ 32) (hk : k < 2 ^ 32)
    (h : byteAddr mode la j = byteAddr mode la k) : j = k := by
  cases mode <;> simp only [byteAddr] at h <;> omega

theorem operandCells_nodup (mode : Mode) (la : Word64) (w : Width) (v : BitVec w.bits) :
    ((operandCells mode la w v).map Prod.fst).Nodup := by
  have hw : w.bytes ≤ 8 := by cases w <;> decide
  rw [operandCells, List.map_map]
  refine List.Nodup.map_on ?_ List.nodup_range
  intro j hj k hk h
  rw [List.mem_range] at hj hk
  exact byteAddr_inj (by omega) (by omega) h

/-- A store leaves the value's bytes at the operand's addresses, every other byte as it was. -/
theorem storedAt_writeAll (w : Width) (s : State) (la : Word64) (v : BitVec w.bits) :
    StoredAt w s la v (s.mem.writeAll (operandCells s.mode la w v)) := by
  constructor
  · intro k hk
    exact Memory.read_writeAll_mem _ _ (operandCells_nodup _ _ _ _) (byteAddr s.mode la k, v.extractLsb' (8 * k) 8)
      (List.mem_map.mpr ⟨k, List.mem_range.mpr hk, rfl⟩)
  · intro x hx
    refine Memory.read_writeAll_other _ _ _ fun c hc h => hx ?_
    obtain ⟨k, hk, rfl⟩ := List.mem_map.mp hc
    exact ⟨k, List.mem_range.mp hk, h.symm⟩

/-! ## Registers: a read after a write -/

theorem readGpr_writeGpr (s : State) (n k : BitVec 4) (v : Word64) :
    readGpr (writeGpr s n v) k = if k = n then v else readGpr s k := by
  simp only [readGpr, writeGpr_gpr]
  by_cases h : k = n
  · subst h; simp
  · rw [if_neg h, Vector.getElem_set_ne]
    exact fun e => h (BitVec.eq_of_toNat_eq e.symm)

theorem readVec_writeVec (s : State) (n k : BitVec 5) (v : VecWord) :
    readVec (writeVec s n v) k = if k = n then maskVec s.plat.maxvl v else readVec s k := by
  simp only [readVec, writeVec_vec]
  by_cases h : k = n
  · subst h; simp
  · rw [if_neg h, Vector.getElem_set_ne]
    exact fun e => h (BitVec.eq_of_toNat_eq e.symm)

theorem low64_append (h : BitVec 16) (v : Word64) : (h ++ v : BitVec (16 + 64)).extractLsb' 0 64 = v := by
  apply BitVec.eq_of_getLsbD_eq
  intro i hi
  rw [BitVec.getLsbD_extractLsb', Nat.zero_add, BitVec.getLsbD_append]
  simp [hi]

theorem readMm_writeMm (s : State) (n k : BitVec 3) (v : Word64) :
    readMm (writeMm s n v) k = if k = n then v else readMm s k := by
  simp only [readMm, writeMm_x87]
  by_cases h : k = n
  · subst h
    rw [if_pos rfl, Vector.getElem_set_self]
    exact low64_append _ v
  · rw [if_neg h, Vector.getElem_set_ne]
    exact fun e => h (BitVec.eq_of_toNat_eq e.symm)

/-- MmxWrite keeps what the MMX registers hold. -/
theorem readMm_mmxWrite (s : State) (n k : BitVec 3) : readMm (mmxWrite s n) k = readMm s k := by
  simp only [readMm, mmxWrite_x87]
  by_cases h : k = n
  · subst h
    rw [Vector.getElem_set_self]
    exact low64_append _ (readMm s k)
  · rw [Vector.getElem_set_ne]
    exact fun e => h (BitVec.eq_of_toNat_eq e.symm)

/-- A vector register keeps the bits below MAXVL and has none above. -/
theorem getLsbD_maskVec (l : VecLen) (v : VecWord) (j : Nat) :
    (maskVec l v).getLsbD j = (decide (j < l.bits) && v.getLsbD j) := by
  have hl : l.bits ≤ 512 := by cases l <;> decide
  simp only [maskVec, BitVec.getLsbD_setWidth]
  by_cases h : j < l.bits
  · simp [h, show j < 512 by omega]
  · simp [h]

/-- A value of at most 128 bits fits every vector register. -/
theorem maskVec_setWidth (l : VecLen) (v : BitVec 128) : maskVec l (v.setWidth 512) = v.setWidth 512 := by
  apply BitVec.eq_of_getLsbD_eq
  intro j hj
  rw [getLsbD_maskVec, BitVec.getLsbD_setWidth]
  by_cases h : j < l.bits
  · simp [h]
  · have : 128 ≤ j := by cases l <;> simp [VecLen.bits] at h <;> omega
    simp [h, BitVec.getLsbD_of_ge _ _ this]

/-! ## The ModRM:r/m operand -/

theorem readRM_mem {w : Width} {s : State} {a : RmArgs} (h : rmIsReg a.rm = false) :
    readRM w s a = memRead w s (operandSeg s.mode a) (effAddr s a) := by
  unfold readRM
  cases ha : a.rm <;> simp_all [rmIsReg]

theorem writeRM_mem {w : Width} {s : State} {a : RmArgs} {v : BitVec w.bits} (h : rmIsReg a.rm = false) :
    writeRM w s a v = memWrite w s (operandSeg s.mode a) (effAddr s a) v := by
  unfold writeRM
  cases ha : a.rm <;> simp_all [rmIsReg]

theorem readRM_direct {w : Width} {s : State} {a : RmArgs} {r : BitVec 3} (h : a.rm = .direct r) :
    readRM w s a = .next ((readGpr s (regNum s.mode a.b r)).setWidth w.bits) := by
  simp [readRM, h]

theorem writeRM_direct {w : Width} {s : State} {a : RmArgs} {r : BitVec 3} {v : BitVec w.bits}
    (h : a.rm = .direct r) :
    writeRM w s a v = .next (writeGpr s (regNum s.mode a.b r) (v.setWidth 64)) := by
  simp [writeRM, h]

/-- Reading the r/m operand answers its value, and only that. -/
theorem readRM_eq_next {w : Width} {s : State} {a : RmArgs} {v : BitVec w.bits} :
    readRM w s a = .next v ↔ RmReads w s a v := by
  cases hr : rmIsReg a.rm with
  | true =>
    obtain ⟨r, hd⟩ : ∃ r, a.rm = .direct r := by cases ha : a.rm <;> simp_all [rmIsReg]
    rw [readRM_direct hd, RmReads, hd]
    simp [eq_comm]
  | false =>
    rw [readRM_mem hr, memRead_eq_next]
    have : RmReads w s a v ↔ Admits s (operandSeg s.mode a) (effAddr s a) w .read ∧
        ∀ k, k < w.bytes → v.extractLsb' (8 * k) 8 = s.mem.read (operandByte s (operandAddr s a) k) := by
      unfold RmReads
      cases ha : a.rm <;> simp_all [rmIsReg]
    rw [this]
    refine and_congr_right fun _ => ⟨?_, ?_⟩
    · rintro rfl k hk
      exact loadLE_byte s _ w k hk
    · intro h
      exact eq_of_bytes fun k hk => (h k hk).trans (loadLE_byte s _ w k hk).symm

/-- Writing the r/m operand writes one general register, or the operand's bytes of memory. -/
theorem writeRM_eq_next {w : Width} {s t : State} {a : RmArgs} {v : BitVec w.bits} (h : writeRM w s a v = .next t) :
    (∃ r, a.rm = .direct r ∧ t = writeGpr s (regNum s.mode a.b r) (v.setWidth 64)) ∨
    (rmIsReg a.rm = false ∧ Admits s (operandSeg s.mode a) (effAddr s a) w .write ∧
      t = setMem s (s.mem.writeAll (operandCells s.mode (operandAddr s a) w v))) := by
  cases hr : rmIsReg a.rm with
  | true =>
    obtain ⟨r, hd⟩ : ∃ r, a.rm = .direct r := by cases ha : a.rm <;> simp_all [rmIsReg]
    rw [writeRM_direct hd] at h
    cases h
    exact .inl ⟨r, hd, rfl⟩
  | false =>
    rw [writeRM_mem hr] at h
    exact .inr ⟨rfl, memWrite_eq_next.mp h⟩

/-- A fault of reading the r/m operand is a fault of Translate on a memory operand. -/
theorem readRM_fault {w : Width} {s : State} {a : RmArgs} {f : Fault} (h : readRM w s a = .fault f) :
    rmIsReg a.rm = false ∧ translate s (operandSeg s.mode a) (effAddr s a) w.bytes .read = .fault f := by
  cases hr : rmIsReg a.rm with
  | true =>
    obtain ⟨r, hd⟩ : ∃ r, a.rm = .direct r := by cases ha : a.rm <;> simp_all [rmIsReg]
    rw [readRM_direct hd] at h
    cases h
  | false => rw [readRM_mem hr] at h; exact ⟨rfl, memRead_fault h⟩

/-- A fault of writing the r/m operand is a fault of Translate on a memory operand. -/
theorem writeRM_fault {w : Width} {s : State} {a : RmArgs} {v : BitVec w.bits} {f : Fault}
    (h : writeRM w s a v = .fault f) :
    rmIsReg a.rm = false ∧ translate s (operandSeg s.mode a) (effAddr s a) w.bytes .write = .fault f := by
  cases hr : rmIsReg a.rm with
  | true =>
    obtain ⟨r, hd⟩ : ∃ r, a.rm = .direct r := by cases ha : a.rm <;> simp_all [rmIsReg]
    rw [writeRM_direct hd] at h
    cases h
  | false => rw [writeRM_mem hr] at h; exact ⟨rfl, memWrite_fault h⟩

/-! ## The moves -/

/-- A move into an MMX register: the gate passes, the operand reads as `v`, and the state is this one. -/
theorem mmxLoad_eq_next {w : Width} {pre : List PrefixItem} {m : ModRM} {s t : State} :
    mmxLoad w pre m s = .next t ↔
      gateMmx w s pre m = .next () ∧ ∃ v, RmReads w s (legArgs pre m) v ∧
        t = advance (mmxWrite (mmxTouch (writeMm s m.reg (v.setWidth 64))) m.reg) (legLen pre m) := by
  simp only [mmxLoad, bind_eq_next, readRM_eq_next, Host.Outcome.next.injEq]
  constructor
  · rintro ⟨_, hg, v, hv, rfl⟩; exact ⟨hg, v, hv, rfl⟩
  · rintro ⟨hg, v, hv, rfl⟩; exact ⟨_, hg, v, hv, rfl⟩

/-- A move out of an MMX register. -/
theorem mmxStore_eq_next {w : Width} {pre : List PrefixItem} {m : ModRM} {s t : State} :
    mmxStore w pre m s = .next t ↔
      gateMmx w s pre m = .next () ∧
        ∃ u, writeRM w s (legArgs pre m) ((readMm s m.reg).setWidth w.bits) = .next u ∧
          t = advance (mmxTouch u) (legLen pre m) := by
  simp only [mmxStore, bind_eq_next, Host.Outcome.next.injEq]
  constructor
  · rintro ⟨_, hg, u, hu, rfl⟩; exact ⟨hg, u, hu, rfl⟩
  · rintro ⟨hg, u, hu, rfl⟩; exact ⟨_, hg, u, hu, rfl⟩

/-- A move into an XMM register, legacy SSE. -/
theorem sseLoad_eq_next {w : Width} {pre : List PrefixItem} {m : ModRM} {s t : State} :
    sseLoad w pre m s = .next t ↔
      gateSse2 w s pre m = .next () ∧ ∃ v, RmReads w s (legArgs pre m) v ∧
        t = advance (writeXmmKeep s (legVec s pre m) (v.setWidth 128)) (legLen pre m) := by
  simp only [sseLoad, bind_eq_next, readRM_eq_next, Host.Outcome.next.injEq]
  constructor
  · rintro ⟨_, hg, v, hv, rfl⟩; exact ⟨hg, v, hv, rfl⟩
  · rintro ⟨hg, v, hv, rfl⟩; exact ⟨_, hg, v, hv, rfl⟩

/-- A move out of an XMM register, legacy SSE. -/
theorem sseStore_eq_next {w : Width} {pre : List PrefixItem} {m : ModRM} {s t : State} :
    sseStore w pre m s = .next t ↔
      gateSse2 w s pre m = .next () ∧
        ∃ u, writeRM w s (legArgs pre m) ((readVec s (legVec s pre m)).setWidth w.bits) = .next u ∧
          t = advance u (legLen pre m) := by
  simp only [sseStore, bind_eq_next, Host.Outcome.next.injEq]
  constructor
  · rintro ⟨_, hg, u, hu, rfl⟩; exact ⟨hg, u, hu, rfl⟩
  · rintro ⟨hg, u, hu, rfl⟩; exact ⟨_, hg, u, hu, rfl⟩

/-- A move into an XMM register, VEX or EVEX. -/
theorem vexLoad_eq_next {w : Width} {g : Res Unit} {a : RmArgs} {n : BitVec 5} {s t : State} :
    vexLoad w g a n s = .next t ↔
      g = .next () ∧ ∃ v, RmReads w s a v ∧ t = advance (writeXmmZero s n (v.setWidth 128)) a.ilen := by
  simp only [vexLoad, bind_eq_next, readRM_eq_next, Host.Outcome.next.injEq]
  constructor
  · rintro ⟨_, hg, v, hv, rfl⟩; exact ⟨hg, v, hv, rfl⟩
  · rintro ⟨hg, v, hv, rfl⟩; exact ⟨_, hg, v, hv, rfl⟩

/-- A move out of an XMM register, VEX or EVEX. -/
theorem vexStore_eq_next {w : Width} {g : Res Unit} {a : RmArgs} {n : BitVec 5} {s t : State} :
    vexStore w g a n s = .next t ↔
      g = .next () ∧ ∃ u, writeRM w s a ((readVec s n).setWidth w.bits) = .next u ∧ t = advance u a.ilen := by
  simp only [vexStore, bind_eq_next, Host.Outcome.next.injEq]
  constructor
  · rintro ⟨_, hg, u, hu, rfl⟩; exact ⟨hg, u, hu, rfl⟩
  · rintro ⟨hg, u, hu, rfl⟩; exact ⟨_, hg, u, hu, rfl⟩

end Sys2Proof.Machine
end

