-- ==== Sys2Proof/Laws/Exec.lean ====
section
/-! SUPPORT. Every instruction is one gate and then one move: `exec_eq` says so once, and the lemmas after it say when
an instruction stops at the gate and what it has done when it completes. -/

namespace Sys2Proof.Machine

/-- The #UD conditions of the instruction's row. -/
def udOf (s : State) : Instr → Bool
  | .movdMmRm32 pre _ | .movqMmRm64 pre _ | .movdRm32Mm pre _ | .movqRm64Mm pre _ => udMmx s pre
  | .movdXmmRm32 pre _ | .movqXmmRm64 pre _ | .movdRm32Xmm pre _ | .movqRm64Xmm pre _ => udSse2 s pre
  | .vmovdXmmRm32C4 pre v _ | .vmovqXmmRm64Vex pre v _ | .vmovdRm32XmmC4 pre v _ | .vmovqRm64XmmVex pre v _ =>
    udVex s pre v.l v.vvvv
  | .vmovdXmmRm32C5 pre v _ | .vmovdRm32XmmC5 pre v _ => udVex s pre v.l v.vvvv
  | .vmovdXmmRm32Evex pre e _ | .vmovqXmmRm64Evex pre e _ | .vmovdRm32XmmEvex pre e _ | .vmovqRm64XmmEvex pre e _ =>
    udEvex s pre e

/-- The #MF condition of the instruction's row. -/
def mfOf (s : State) (i : Instr) : Bool := isMmxRow i && s.x87Pending

/-- The refusal of the instruction's encoding. -/
def noOf (s : State) : Instr → Option Refusal
  | .movdMmRm32 _ _ | .movdRm32Mm _ _ | .movdXmmRm32 _ _ | .movdRm32Xmm _ _ => refuseQuadInM32 .dword s
  | .movqMmRm64 _ _ | .movqRm64Mm _ _ | .movqXmmRm64 _ _ | .movqRm64Xmm _ _ => refuseQuadInM32 .qword s
  | .vmovdXmmRm32C4 pre v _ | .vmovqXmmRm64Vex pre v _ | .vmovdRm32XmmC4 pre v _ | .vmovqRm64XmmVex pre v _ =>
    refuseVex3 s pre v
  | .vmovdXmmRm32C5 pre _ _ | .vmovdRm32XmmC5 pre _ _ => refuseVex2 s pre
  | .vmovdXmmRm32Evex pre e m | .vmovqXmmRm64Evex pre e m | .vmovdRm32XmmEvex pre e m | .vmovqRm64XmmEvex pre e m =>
    refuseEvex s pre e m

/-- The width the instruction moves. -/
def widthOf (s : State) : Instr → Width
  | .movdMmRm32 _ _ | .movdRm32Mm _ _ | .movdXmmRm32 _ _ | .movdRm32Xmm _ _ => .dword
  | .movqMmRm64 _ _ | .movqRm64Mm _ _ | .movqXmmRm64 _ _ | .movqRm64Xmm _ _ => .qword
  | .vmovdXmmRm32C4 _ _ _ | .vmovdRm32XmmC4 _ _ _ | .vmovdXmmRm32C5 _ _ _ | .vmovdRm32XmmC5 _ _ _ => .dword
  | .vmovdXmmRm32Evex _ _ _ | .vmovdRm32XmmEvex _ _ _ => .dword
  | .vmovqXmmRm64Vex _ _ _ | .vmovqRm64XmmVex _ _ _ => w1Width s.mode
  | .vmovqXmmRm64Evex _ _ _ | .vmovqRm64XmmEvex _ _ _ => w1Width s.mode

/-- What the instruction's r/m operand is formed from. -/
def argsOf (s : State) (i : Instr) : RmArgs :=
  match i with
  | .movdMmRm32 pre m | .movqMmRm64 pre m | .movdRm32Mm pre m | .movqRm64Mm pre m => legArgs pre m
  | .movdXmmRm32 pre m | .movqXmmRm64 pre m | .movdRm32Xmm pre m | .movqRm64Xmm pre m => legArgs pre m
  | .vmovdXmmRm32C4 pre v m | .vmovqXmmRm64Vex pre v m | .vmovdRm32XmmC4 pre v m | .vmovqRm64XmmVex pre v m =>
    vex3Args pre v m
  | .vmovdXmmRm32C5 pre _ m | .vmovdRm32XmmC5 pre _ m => vex2Args pre m
  | .vmovdXmmRm32Evex pre e m | .vmovdRm32XmmEvex pre e m => evexArgs pre e m .dword
  | .vmovqXmmRm64Evex pre e m | .vmovqRm64XmmEvex pre e m => evexArgs pre e m (w1Width s.mode)

/-- The vector register the instruction names. -/
def vecOf (s : State) : Instr → BitVec 5
  | .movdMmRm32 pre m | .movqMmRm64 pre m | .movdRm32Mm pre m | .movqRm64Mm pre m => legVec s pre m
  | .movdXmmRm32 pre m | .movqXmmRm64 pre m | .movdRm32Xmm pre m | .movqRm64Xmm pre m => legVec s pre m
  | .vmovdXmmRm32C4 _ v m | .vmovqXmmRm64Vex _ v m | .vmovdRm32XmmC4 _ v m | .vmovqRm64XmmVex _ v m =>
    vecNum s.mode v.r m.reg
  | .vmovdXmmRm32C5 _ v m | .vmovdRm32XmmC5 _ v m => vecNum s.mode v.r m.reg
  | .vmovdXmmRm32Evex _ e m | .vmovqXmmRm64Evex _ e m | .vmovdRm32XmmEvex _ e m | .vmovqRm64XmmEvex _ e m =>
    vecNumEvex s.mode e.r' e.r m.reg

/-- The direction of the move: to the MMX or vector register, or from it. -/
def dirOf : Instr → Dir
  | .movdMmRm32 _ _ | .movqMmRm64 _ _ | .movdXmmRm32 _ _ | .movqXmmRm64 _ _ => .toReg
  | .vmovdXmmRm32C4 _ _ _ | .vmovdXmmRm32C5 _ _ _ | .vmovqXmmRm64Vex _ _ _ => .toReg
  | .vmovdXmmRm32Evex _ _ _ | .vmovqXmmRm64Evex _ _ _ => .toReg
  | .movdRm32Mm _ _ | .movqRm64Mm _ _ | .movdRm32Xmm _ _ | .movqRm64Xmm _ _ => .toRm
  | .vmovdRm32XmmC4 _ _ _ | .vmovdRm32XmmC5 _ _ _ | .vmovqRm64XmmVex _ _ _ => .toRm
  | .vmovdRm32XmmEvex _ _ _ | .vmovqRm64XmmEvex _ _ _ => .toRm

/-- The instruction's gate. -/
def gateOf (s : State) (i : Instr) : Res Unit := gate s i.ilen (udOf s i) s.cr0TS (mfOf s i) (noOf s i)

/-- The move into the MMX or vector register, once the operand is read. -/
def loadInto (s : State) (i : Instr) (v : BitVec (widthOf s i).bits) : State :=
  if isMmxRow i then mmxWrite (mmxTouch (writeMm s i.modrm.reg (v.setWidth 64))) i.modrm.reg
  else if isSse2Row i then writeXmmKeep s (vecOf s i) (v.setWidth 128)
  else writeXmmZero s (vecOf s i) (v.setWidth 128)

/-- The value a storing instruction moves. -/
def storedValue (s : State) (i : Instr) : BitVec (widthOf s i).bits :=
  if isMmxRow i then (readMm s i.modrm.reg).setWidth _ else (readVec s (vecOf s i)).setWidth _

/-- What a storing instruction does besides its store. -/
def afterStore (i : Instr) (t : State) : State := if isMmxRow i then mmxTouch t else t

/-- Past the gate: the move, and the instruction pointer moved on. -/
def moveOf (s : State) (i : Instr) : Res State :=
  match dirOf i with
  | .toReg => (readRM (widthOf s i) s (argsOf s i)).bind fun v => .next (advance (loadInto s i v) i.ilen)
  | .toRm =>
    (writeRM (widthOf s i) s (argsOf s i) (storedValue s i)).bind fun t => .next (advance (afterStore i t) i.ilen)

/-- Every instruction is its gate and then its move. -/
theorem exec_eq (i : Instr) (s : State) : exec i s = (gateOf s i).bind fun _ => moveOf s i := by
  cases i <;> rfl

/-! ## Stopping at the gate -/

theorem exec_wrap {i : Instr} {s : State} (h : ipOk s i.ilen = false) : exec i s = .refused .ipWrap := by
  rw [exec_eq, gateOf, gate_wrap h]; rfl

theorem exec_long {i : Instr} {s : State} (h : ipOk s i.ilen = true) (hl : maxIlen < i.ilen) :
    exec i s = .fault (.gp s.rip) := by
  rw [exec_eq, gateOf, gate_long h hl]; rfl

theorem exec_ud {i : Instr} {s : State} (h : IpFits s i.ilen) (hu : udOf s i = true) :
    exec i s = .fault (.ud s.rip) := by
  rw [exec_eq, gateOf, hu, gate_ud h]; rfl

theorem exec_nm {i : Instr} {s : State} (h : IpFits s i.ilen) (hu : udOf s i = false) (ht : s.cr0TS = true) :
    exec i s = .fault (.nm s.rip) := by
  rw [exec_eq, gateOf, hu, ht, gate_nm h]; rfl

theorem exec_mf {i : Instr} {s : State} (h : IpFits s i.ilen) (hu : udOf s i = false) (ht : s.cr0TS = false)
    (hm : mfOf s i = true) : exec i s = .fault (.mf s.rip) := by
  rw [exec_eq, gateOf, hu, ht, hm, gate_mf h]; rfl

theorem exec_no {i : Instr} {s : State} {r : Refusal} (h : IpFits s i.ilen) (hu : udOf s i = false)
    (ht : s.cr0TS = false) (hm : mfOf s i = false) (hr : noOf s i = some r) : exec i s = .refused r := by
  rw [exec_eq, gateOf, hu, ht, hm, hr, gate_no h]; rfl

/-- Past the gate only the move is left. -/
theorem exec_move {i : Instr} {s : State} (h : IpFits s i.ilen) (hu : udOf s i = false)
    (ht : s.cr0TS = false) (hm : mfOf s i = false) (hr : noOf s i = none) : exec i s = moveOf s i := by
  rw [exec_eq, gateOf, hu, ht, hm, hr, gate_no h]; rfl

/-! ## Completing -/

/-- What a completed instruction was and did. -/
theorem exec_eq_next {i : Instr} {s t : State} :
    exec i s = .next t ↔
      (IpFits s i.ilen ∧ udOf s i = false ∧ s.cr0TS = false ∧ mfOf s i = false ∧ noOf s i = none) ∧
        moveOf s i = .next t := by
  rw [exec_eq, bind_eq_next]
  constructor
  · rintro ⟨u, hg, hm⟩; exact ⟨gate_eq_next.mp hg, hm⟩
  · rintro ⟨hg, hm⟩; exact ⟨(), gate_eq_next.mpr hg, hm⟩

/-- The two ways a move completes. -/
theorem moveOf_eq_next {i : Instr} {s t : State} (h : moveOf s i = .next t) :
    (dirOf i = .toReg ∧ ∃ v, RmReads (widthOf s i) s (argsOf s i) v ∧ t = advance (loadInto s i v) i.ilen) ∨
    (dirOf i = .toRm ∧ ∃ u, writeRM (widthOf s i) s (argsOf s i) (storedValue s i) = .next u ∧
      t = advance (afterStore i u) i.ilen) := by
  unfold moveOf at h
  split at h
  · next hd =>
    obtain ⟨v, hv, h⟩ := bind_eq_next.mp h
    exact .inl ⟨hd, v, readRM_eq_next.mp hv, by simpa [eq_comm] using h⟩
  · next hd =>
    obtain ⟨u, hu, h⟩ := bind_eq_next.mp h
    exact .inr ⟨hd, u, hu, by simpa [eq_comm] using h⟩

/-- The faults of an instruction: at the gate, or of Translate for a memory operand. -/
theorem exec_eq_fault {i : Instr} {s : State} {f : Fault} (h : exec i s = .fault f) :
    ((maxIlen < i.ilen ∧ f = .gp s.rip) ∨ f = .ud s.rip ∨ f = .nm s.rip ∨ f = .mf s.rip) ∨
      (rmIsReg i.modrm.rm = false ∧ ∃ k, translate s (operandSeg s.mode (argsOf s i)) (effAddr s (argsOf s i))
        (widthOf s i).bytes k = .fault f) := by
  have hrm : (argsOf s i).rm = i.modrm.rm := by cases i <;> rfl
  rw [exec_eq] at h
  rcases bind_eq_fault.mp h with h | ⟨u, -, h⟩
  · exact .inl (gate_eq_fault h)
  · right
    unfold moveOf at h
    split at h
    · rcases bind_eq_fault.mp h with h | ⟨v, -, h⟩
      · exact ⟨hrm ▸ (readRM_fault h).1, _, (readRM_fault h).2⟩
      · cases h
    · rcases bind_eq_fault.mp h with h | ⟨v, -, h⟩
      · exact ⟨hrm ▸ (writeRM_fault h).1, _, (writeRM_fault h).2⟩
      · cases h

end Sys2Proof.Machine
end

