-- ==== Sys2Proof/Laws/PerInstr.lean ====
section
/-! SUPPORT. Statements about every instruction as syntax, one lemma per constructor. -/

namespace Sys2Proof.Laws

/-- 30_encoding.md R84: the length of an instruction is the count of all its bytes. -/
def EncodeLength.Statement (i : Instr) : Prop := (encode i).length = i.ilen

theorem modrm_bytes_length (m : ModRM) : m.bytes.length = m.size := by
  rcases m with ⟨reg, rm⟩
  cases rm with
  | direct rm => rfl
  | plain rm d => cases d <;> rfl
  | disp32 d => rfl
  | sib ss index base d => cases d <;> rfl
  | sibNoBase ss index d => rfl
  | mem16 rm d => cases d <;> rfl
  | abs16 d => rfl

theorem encodeLegacy_length (pre : List PrefixItem) (op : Byte) (m : ModRM) :
    (encodeLegacy pre op m).length = legLen pre m := by
  simp [encodeLegacy, prefixBytes, legLen, modrm_bytes_length]
  omega

theorem encodeVex2_length (pre : List PrefixItem) (v : Vex2) (op : Byte) (m : ModRM) :
    (encodeVex2 pre v op m).length = vex2Len pre m := by
  simp [encodeVex2, prefixBytes, vex2Len, modrm_bytes_length]
  omega

theorem encodeVex3_length (pre : List PrefixItem) (v : Vex3) (op : Byte) (m : ModRM) :
    (encodeVex3 pre v op m).length = vex3Len pre m := by
  simp [encodeVex3, prefixBytes, vex3Len, modrm_bytes_length]
  omega

theorem encodeEvex_length (pre : List PrefixItem) (e : Evex) (op : Byte) (m : ModRM) :
    (encodeEvex pre e op m).length = evexLen pre m := by
  simp [encodeEvex, prefixBytes, evexLen, modrm_bytes_length]
  omega

theorem EncodeLength.movdMmRm32 (pre : List PrefixItem) (m : ModRM) :
    EncodeLength.Statement (.movdMmRm32 pre m) :=
  encodeLegacy_length pre _ m

theorem EncodeLength.movqMmRm64 (pre : List PrefixItem) (m : ModRM) :
    EncodeLength.Statement (.movqMmRm64 pre m) :=
  encodeLegacy_length pre _ m

theorem EncodeLength.movdRm32Mm (pre : List PrefixItem) (m : ModRM) :
    EncodeLength.Statement (.movdRm32Mm pre m) :=
  encodeLegacy_length pre _ m

theorem EncodeLength.movqRm64Mm (pre : List PrefixItem) (m : ModRM) :
    EncodeLength.Statement (.movqRm64Mm pre m) :=
  encodeLegacy_length pre _ m

theorem EncodeLength.movdXmmRm32 (pre : List PrefixItem) (m : ModRM) :
    EncodeLength.Statement (.movdXmmRm32 pre m) :=
  encodeLegacy_length pre _ m

theorem EncodeLength.movqXmmRm64 (pre : List PrefixItem) (m : ModRM) :
    EncodeLength.Statement (.movqXmmRm64 pre m) :=
  encodeLegacy_length pre _ m

theorem EncodeLength.movdRm32Xmm (pre : List PrefixItem) (m : ModRM) :
    EncodeLength.Statement (.movdRm32Xmm pre m) :=
  encodeLegacy_length pre _ m

theorem EncodeLength.movqRm64Xmm (pre : List PrefixItem) (m : ModRM) :
    EncodeLength.Statement (.movqRm64Xmm pre m) :=
  encodeLegacy_length pre _ m

theorem EncodeLength.vmovdXmmRm32C4 (pre : List PrefixItem) (v : Vex3) (m : ModRM) :
    EncodeLength.Statement (.vmovdXmmRm32C4 pre v m) :=
  encodeVex3_length pre v _ m

theorem EncodeLength.vmovdXmmRm32C5 (pre : List PrefixItem) (v : Vex2) (m : ModRM) :
    EncodeLength.Statement (.vmovdXmmRm32C5 pre v m) :=
  encodeVex2_length pre v _ m

theorem EncodeLength.vmovqXmmRm64Vex (pre : List PrefixItem) (v : Vex3) (m : ModRM) :
    EncodeLength.Statement (.vmovqXmmRm64Vex pre v m) :=
  encodeVex3_length pre v _ m

theorem EncodeLength.vmovdRm32XmmC4 (pre : List PrefixItem) (v : Vex3) (m : ModRM) :
    EncodeLength.Statement (.vmovdRm32XmmC4 pre v m) :=
  encodeVex3_length pre v _ m

theorem EncodeLength.vmovdRm32XmmC5 (pre : List PrefixItem) (v : Vex2) (m : ModRM) :
    EncodeLength.Statement (.vmovdRm32XmmC5 pre v m) :=
  encodeVex2_length pre v _ m

theorem EncodeLength.vmovqRm64XmmVex (pre : List PrefixItem) (v : Vex3) (m : ModRM) :
    EncodeLength.Statement (.vmovqRm64XmmVex pre v m) :=
  encodeVex3_length pre v _ m

theorem EncodeLength.vmovdXmmRm32Evex (pre : List PrefixItem) (e : Evex) (m : ModRM) :
    EncodeLength.Statement (.vmovdXmmRm32Evex pre e m) :=
  encodeEvex_length pre e _ m

theorem EncodeLength.vmovqXmmRm64Evex (pre : List PrefixItem) (e : Evex) (m : ModRM) :
    EncodeLength.Statement (.vmovqXmmRm64Evex pre e m) :=
  encodeEvex_length pre e _ m

theorem EncodeLength.vmovdRm32XmmEvex (pre : List PrefixItem) (e : Evex) (m : ModRM) :
    EncodeLength.Statement (.vmovdRm32XmmEvex pre e m) :=
  encodeEvex_length pre e _ m

theorem EncodeLength.vmovqRm64XmmEvex (pre : List PrefixItem) (e : Evex) (m : ModRM) :
    EncodeLength.Statement (.vmovqRm64XmmEvex pre e m) :=
  encodeEvex_length pre e _ m

end Sys2Proof.Laws
end

