-- ==== Sys2Proof/Tests/Slice0.lean ====
section
/-! SUPPORT. Tests: the well-formedness checks, the decoding of words written out from the spec's encodings, single
steps with the results of 95_test_vectors.md (ids A, B, C, D), and for each statement with hypotheses a witness that
meets them. -/

namespace Sys2Proof.Tests

open Sys2Proof.Machine

/-! ## States -/

/-- A flat segment register: base 0, limit FFFFFFFFH, all rights. -/
def flat : SegCache := ⟨0, 0xFFFFFFFF, true, true⟩

/-- The launch state of 95_test_vectors.md: M64, MAXVL 256, all features and gating bits on, rip 400000H; a program of
64 bytes from rip on. -/
def t64 : State :=
  { State.reset with
    mode := .m64, realOrV86 := false, codeDefault16 := false, cr4 := 0x40200, xcr0 := 0xE7, rip := 0x400000
    segs := ⟨flat, flat, flat, flat, flat, flat⟩, plat := ⟨true, true, true, true, .v256, .va48, [], []⟩
    program := ⟨0x400000, 64⟩ }

/-- The same in M32, protected mode, 32-bit code. -/
def t32 : State := { t64 with mode := .m32 }

/-- The same in real-address mode, 16-bit code. -/
def tReal : State := { t32 with realOrV86 := true, codeDefault16 := true }

/-- The general register `n` holds `v`. -/
def gp (n : BitVec 4) (v : Word64) (s : State) : State := writeGpr s n v

/-- Bytes from an address on. -/
def at' (a : Nat) (bs : List Byte) (s : State) : State :=
  setMem s (s.mem.writeAll (bs.zipIdx.map fun p => (a + p.2, p.1)))

/-- Ones in every bit. -/
def ones : VecWord := BitVec.allOnes 512

/-- The answer is a next state with a property. -/
def nextHas (o : Res State) (p : State → Bool) : Bool :=
  match o with
  | .next t => p t
  | _ => false

/-- The answer is this fault. -/
def faultIs (o : Res State) (f : Fault) : Bool :=
  match o with
  | .fault g => g = f
  | _ => false

/-- The answer is this refusal. -/
def refusalIs (o : Res State) (r : Refusal) : Bool :=
  match o with
  | .refused q => q = r
  | _ => false

/-- The step of a program that is these bytes. -/
def run (bs : List Byte) (s : State) : Res State := step (loadProgram s bs)

theorem next_of {o : Res State} {p : State → Bool} (h : nextHas o p = true) : ∃ t, o = .next t := by
  cases o with
  | next t => exact ⟨t, rfl⟩
  | fault r => cases h
  | refused r => cases h

theorem fault_of {o : Res State} {f : Fault} (h : faultIs o f = true) : o = .fault f := by
  cases o with
  | next t => cases h
  | fault r => simpa [faultIs] using h
  | refused r => cases h

theorem refused_of {o : Res State} {r : Refusal} (h : refusalIs o r = true) : o = .refused r := by
  cases o with
  | next t => cases h
  | fault q => cases h
  | refused q => simpa [refusalIs] using h

/-! ## Well-formedness: one ill-formed term for each check -/

def m64 : CodeMode := ⟨.m64, false⟩
def m32 : CodeMode := ⟨.m32, false⟩
def rexW : PrefixItem := .rex ⟨true, false, false, false⟩
def reg0 : ModRM := ⟨0, .direct 0⟩
def v3 (r x b w : Bool) : Vex3 := ⟨r, x, b, w, 15, false⟩
def ev (r x b r' w : Bool) : Evex := ⟨r, x, b, r', w, 15, false, 0, false, true, 0⟩

theorem test_wf_rex_in_m32 : (Instr.movdMmRm32 [.rex ⟨false, false, false, false⟩] reg0).wf m32 = false := by decide
theorem test_wf_rep : (Instr.movdMmRm32 [.rep] reg0).wf m64 = false := by decide
theorem test_wf_repne : (Instr.movdXmmRm32 [.opSize, .repne] reg0).wf m64 = false := by decide
theorem test_wf_66_on_mmx : (Instr.movdMmRm32 [.opSize] reg0).wf m64 = false := by decide
theorem test_wf_no_66_on_sse : (Instr.movdXmmRm32 [] reg0).wf m64 = false := by decide
theorem test_wf_rexw_on_movd : (Instr.movdRm32Mm [rexW] reg0).wf m64 = false := by decide
theorem test_wf_no_rexw_on_movq : (Instr.movqRm64Mm [] reg0).wf m64 = false := by decide
theorem test_wf_stale_rexw_on_movq : (Instr.movqXmmRm64 [rexW, .opSize] reg0).wf m64 = false := by decide
theorem test_wf_form16_in_32 : (Instr.movdMmRm32 [] ⟨0, .mem16 0 .none⟩).wf m32 = false := by decide
theorem test_wf_abs16_in_64 : (Instr.movdMmRm32 [] ⟨0, .abs16 0⟩).wf m64 = false := by decide
theorem test_wf_form32_in_16 : (Instr.movdMmRm32 [.addrSize] ⟨0, .plain 0 .none⟩).wf m32 = false := by decide
theorem test_wf_plain_4 : (Instr.movdMmRm32 [] ⟨0, .plain 4 (.d8 0)⟩).wf m64 = false := by decide
theorem test_wf_plain_5_no_disp : (Instr.movdMmRm32 [] ⟨0, .plain 5 .none⟩).wf m64 = false := by decide
theorem test_wf_sib_5_no_disp : (Instr.movdMmRm32 [] ⟨0, .sib 0 0 5 .none⟩).wf m64 = false := by decide
theorem test_wf_mem16_6_no_disp : (Instr.movdMmRm32 [.addrSize] ⟨0, .mem16 6 .none⟩).wf m32 = false := by decide
theorem test_wf_vex2_r_m32 : (Instr.vmovdXmmRm32C5 [] ⟨true, 15, false⟩ reg0).wf m32 = false := by decide
theorem test_wf_vex2_vvvv_m32 : (Instr.vmovdXmmRm32C5 [] ⟨false, 7, false⟩ reg0).wf m32 = false := by decide
theorem test_wf_vex3_r_m32 : (Instr.vmovdXmmRm32C4 [] (v3 true false false false) reg0).wf m32 = false := by decide
theorem test_wf_vex3_x_m32 : (Instr.vmovdRm32XmmC4 [] (v3 false true false false) reg0).wf m32 = false := by decide
theorem test_wf_vex3_w_row9 : (Instr.vmovdXmmRm32C4 [] (v3 false false false true) reg0).wf m64 = false := by decide
theorem test_wf_vex3_w0_row10 : (Instr.vmovqXmmRm64Vex [] (v3 false false false false) reg0).wf m64 = false := by
  decide
theorem test_wf_vex3_row12_m32 : (Instr.vmovqRm64XmmVex [] (v3 false false false true) reg0).wf m32 = false := by
  decide
theorem test_wf_evex_r_m32 : (Instr.vmovdXmmRm32Evex [] (ev true false false false false) reg0).wf m32 = false := by
  decide
theorem test_wf_evex_x_m32 : (Instr.vmovdRm32XmmEvex [] (ev false true false false false) reg0).wf m32 = false := by
  decide
theorem test_wf_evex_w_row13 : (Instr.vmovdXmmRm32Evex [] (ev false false false false true) reg0).wf m64 = false := by
  decide
theorem test_wf_evex_row16_m32 : (Instr.vmovqRm64XmmEvex [] (ev false false false false true) reg0).wf m32 = false := by
  decide

/-! ## Decoding: one word of each constructor, written out from 30_encoding.md and 95_test_vectors.md -/

theorem test_decode_row1 : decode m64 [0x0F, 0x6E, 0xC8] = .ok (.movdMmRm32 [] ⟨1, .direct 0⟩) [] := by decide
theorem test_decode_row2 : decode m64 [0x48, 0x0F, 0x6E, 0x04, 0x24] =
    .ok (.movqMmRm64 [rexW] ⟨0, .sib 0 4 4 .none⟩) [] := by decide
theorem test_decode_row3 : decode m64 [0x0F, 0x7E, 0xCB] = .ok (.movdRm32Mm [] ⟨1, .direct 3⟩) [] := by decide
theorem test_decode_row4 : decode m64 [0x48, 0x0F, 0x7E, 0x45, 0xF8] =
    .ok (.movqRm64Mm [rexW] ⟨0, .plain 5 (.d8 0xF8)⟩) [] := by decide
theorem test_decode_row5 : decode m64 [0x66, 0x0F, 0x6E, 0x44, 0x8B, 0x04] =
    .ok (.movdXmmRm32 [.opSize] ⟨0, .sib 2 1 3 (.d8 4)⟩) [] := by decide
theorem test_decode_row6 : decode m64 [0x66, 0x4C, 0x0F, 0x6E, 0xC0] =
    .ok (.movqXmmRm64 [.opSize, .rex ⟨true, true, false, false⟩] ⟨0, .direct 0⟩) [] := by decide
theorem test_decode_row7 : decode m64 [0x66, 0x0F, 0x7E, 0x0B] = .ok (.movdRm32Xmm [.opSize] ⟨1, .plain 3 .none⟩) [] := by
  decide
theorem test_decode_row8 : decode m64 [0x66, 0x48, 0x0F, 0x7E, 0xC0] =
    .ok (.movqRm64Xmm [.opSize, rexW] ⟨0, .direct 0⟩) [] := by decide
theorem test_decode_row9_c5 : decode m64 [0xC5, 0x79, 0x6E, 0xC0] =
    .ok (.vmovdXmmRm32C5 [] ⟨true, 15, false⟩ ⟨0, .direct 0⟩) [] := by decide
theorem test_decode_row9_c4 : decode m64 [0xC4, 0xC1, 0x79, 0x6E, 0xC0] =
    .ok (.vmovdXmmRm32C4 [] (v3 false false true false) ⟨0, .direct 0⟩) [] := by decide
theorem test_decode_row10 : decode m64 [0xC4, 0xE1, 0xF9, 0x6E, 0xC0] =
    .ok (.vmovqXmmRm64Vex [] (v3 false false false true) ⟨0, .direct 0⟩) [] := by decide
theorem test_decode_row10_in_m32 : decode m32 [0xC4, 0xE1, 0xF9, 0x6E, 0xC0] =
    .ok (.vmovdXmmRm32C4 [] (v3 false false false true) ⟨0, .direct 0⟩) [] := by decide
theorem test_decode_row11_c5 : decode m64 [0xC5, 0xF9, 0x7E, 0x05, 0x00, 0x01, 0x00, 0x00] =
    .ok (.vmovdRm32XmmC5 [] ⟨false, 15, false⟩ ⟨0, .disp32 0x100⟩) [] := by decide
theorem test_decode_row11_c4 : decode m64 [0xC4, 0xE1, 0x79, 0x7E, 0xC1] =
    .ok (.vmovdRm32XmmC4 [] (v3 false false false false) ⟨0, .direct 1⟩) [] := by decide
theorem test_decode_row12 : decode m64 [0xC4, 0xC1, 0xF9, 0x7E, 0xC0] =
    .ok (.vmovqRm64XmmVex [] (v3 false false true true) ⟨0, .direct 0⟩) [] := by decide
theorem test_decode_row13 : decode m64 [0x62, 0xB1, 0x7D, 0x08, 0x6E, 0x04, 0x08] =
    .ok (.vmovdXmmRm32Evex [] (ev false true false false false) ⟨0, .sib 0 1 0 .none⟩) [] := by decide
theorem test_decode_row14 : decode m64 [0x62, 0xF1, 0xFD, 0x08, 0x6E, 0x40, 0x02] =
    .ok (.vmovqXmmRm64Evex [] (ev false false false false true) ⟨0, .plain 0 (.d8 2)⟩) [] := by decide
theorem test_decode_row15 : decode m64 [0x62, 0xE1, 0x7D, 0x08, 0x7E, 0xCA] =
    .ok (.vmovdRm32XmmEvex [] (ev false false false true false) ⟨1, .direct 2⟩) [] := by decide
theorem test_decode_row16 : decode m64 [0x62, 0xE1, 0xFD, 0x08, 0x7E, 0x48, 0x01] =
    .ok (.vmovqRm64XmmEvex [] (ev false false false true true) ⟨1, .plain 0 (.d8 1)⟩) [] := by decide
theorem test_decode_rex_not_last : decode m64 [0x48, 0x66, 0x0F, 0x6E, 0xC0] =
    .ok (.movdXmmRm32 [rexW, .opSize] ⟨0, .direct 0⟩) [] := by decide
theorem test_decode_a8 : decode m32 [0x67, 0x0F, 0x6E, 0x07] = .ok (.movdMmRm32 [.addrSize] ⟨0, .mem16 7 .none⟩) [] := by
  decide
theorem test_decode_b23 : decode m64 [0xF3, 0x0F, 0x7E, 0xC0] = .reject .repPrefix := by decide
theorem test_decode_c21 : decode m64 [0xC5, 0xFA, 0x7E, 0xC0] = .reject .otherInstruction := by decide
theorem test_decode_les_in_m32 : decode m32 [0xC5, 0x39, 0x6E, 0xC0] = .reject .otherInstruction := by decide
theorem test_decode_table_word : decodeTableWord 32 0x6E8101C4 =
    some (.vmovqXmmRm64Vex [] ⟨true, true, true, true, 0, false⟩ ⟨0, .plain 0 .none⟩) := by decide

/-! ## Single steps -/

/-- A1 -/
theorem test_a1 : nextHas (run [0x0F, 0x6E, 0xC8] (gp 0 0xFFFFFFFF89ABCDEF t64)) (fun t =>
    readMm t 1 = 0x89ABCDEF && t.rip = 0x400003 && t.x87Tags = 0) = true := by decide
/-- A6: a memory source -/
theorem test_a6 : nextHas (run [0x0F, 0x6E, 0x13] (at' 0x1000 [0x88, 0x77, 0x66, 0x55, 0x44] (gp 3 0x1000 t64)))
    (fun t => readMm t 2 = 0x55667788) = true := by decide
/-- A9 -/
theorem test_a9 : nextHas (run [0x48, 0x0F, 0x6E, 0xC0] (gp 0 0x1122334455667788 t64))
    (fun t => readMm t 0 = 0x1122334455667788) = true := by decide
/-- A11: the upper half of the general register is cleared -/
theorem test_a11 : nextHas (run [0x0F, 0x7E, 0xCB] (writeMm (gp 3 0xAAAAAAAAAAAAAAAA t64) 1 0xFEDCBA9876543210))
    (fun t => readGpr t 3 = 0x76543210 && t.x87Top = 0) = true := by decide
/-- A16 -/
theorem test_a16 : nextHas (run [0x48, 0x0F, 0x7E, 0x45, 0xF8] (writeMm (gp 5 0x8000 t64) 0 0x0102030405060708))
    (fun t => t.mem.read 0x7FF8 = 8 && t.mem.read 0x7FFF = 1) = true := by decide
/-- A19 -/
theorem test_a19 : run [0x0F, 0x6E, 0xC8] { t64 with x87Pending := true } = .fault (.mf 0x400000) :=
  fault_of (by decide)
/-- B1: bits 255:128 are kept -/
theorem test_b1 : nextHas (run [0x66, 0x0F, 0x6E, 0xC0] (writeVec (gp 0 0x11111111DEADBEEF t64) 0 ones)) (fun t =>
    readVec t 0 = (BitVec.allOnes 256).setWidth 512 - (BitVec.allOnes 128).setWidth 512 + 0xDEADBEEF) = true := by
  decide +kernel
/-- B4 -/
theorem test_b4 : nextHas (run [0x66, 0x48, 0x0F, 0x6E, 0xC8] (gp 0 0x1122334455667788 t64))
    (fun t => readVec t 1 = 0x1122334455667788) = true := by decide +kernel
/-- B7 -/
theorem test_b7 : nextHas (run [0x66, 0x0F, 0x7E, 0x0B] (writeVec (gp 3 0x1000 t64) 1 0xFFFFFFFF55667788))
    (fun t => t.mem = (at' 0x1000 [0x88, 0x77, 0x66, 0x55] (loadProgram t64 [0x66, 0x0F, 0x7E, 0x0B])).mem) = true := by
  decide +kernel
/-- B9 -/
theorem test_b9 : nextHas (run [0x66, 0x48, 0x0F, 0x7E, 0xC0] (writeVec t64 0 0x70123456789ABCDEF))
    (fun t => readGpr t 0 = 0x0123456789ABCDEF) = true := by decide +kernel
/-- B17: a non-canonical address through SS -/
theorem test_b17 : run [0x66, 0x0F, 0x6E, 0x04, 0x24] (gp 4 0x0000800000000000 t64) = .fault (.ss 0x400000) :=
  fault_of (by decide)
/-- B25: sixteen bytes -/
theorem test_b25 : run [0x26, 0x26, 0x26, 0x26, 0x26, 0x26, 0x26, 0x26, 0x66, 0x0F, 0x6E, 0x80, 0, 0, 0, 0] t64 =
    .fault (.gp 0x400000) := fault_of (by decide)
/-- C1: bits 255:32 are cleared -/
theorem test_c1 : nextHas (run [0xC5, 0xF9, 0x6E, 0xC0] (writeVec (gp 0 0x11111111DEADBEEF t64) 0 ones))
    (fun t => readVec t 0 = 0xDEADBEEF) = true := by decide +kernel
/-- C4 -/
theorem test_c4 : nextHas (run [0xC4, 0xC1, 0x79, 0x6E, 0xC0] (gp 8 0x22222222CAFEF00D t64))
    (fun t => readVec t 0 = 0xCAFEF00D) = true := by decide +kernel
/-- C5 -/
theorem test_c5 : nextHas (run [0xC4, 0xE1, 0xF9, 0x6E, 0xC0] (writeVec (gp 0 0x11111111DEADBEEF t64) 0 ones))
    (fun t => readVec t 0 = 0x11111111DEADBEEF) = true := by decide +kernel
/-- C8 -/
theorem test_c8 : nextHas (run [0xC5, 0xF9, 0x7E, 0xC1] (writeVec (gp 1 (BitVec.allOnes 64) t64) 0 0x0123456789ABCDEF))
    (fun t => readGpr t 1 = 0x89ABCDEF) = true := by decide +kernel
/-- C8 with a three-byte prefix -/
theorem test_c8_c4 : nextHas (run [0xC4, 0xE1, 0x79, 0x7E, 0xC1]
    (writeVec (gp 1 (BitVec.allOnes 64) t64) 0 0x0123456789ABCDEF)) (fun t => readGpr t 1 = 0x89ABCDEF) = true := by
  decide +kernel
/-- C9 -/
theorem test_c9 : nextHas (run [0xC4, 0xC1, 0xF9, 0x7E, 0xC0] (writeVec t64 0 0x0123456789ABCDEF))
    (fun t => readGpr t 8 = 0x0123456789ABCDEF) = true := by decide +kernel
/-- C22 -/
theorem test_c22 : run [0x67, 0xC5, 0xF9, 0x6E, 0x00] t32 = .refused .vexAddr16 :=
  refused_of (by decide)
/-- D2v: R' names vector register 16 -/
theorem test_d2v : nextHas (run [0x62, 0xE1, 0x7D, 0x08, 0x6E, 0xC0] (gp 0 0xFFFFFFFF00000001 t64))
    (fun t => readVec t 16 = 1) = true := by decide +kernel
/-- D8v: disp8 = 2 counts eights -/
theorem test_d8v : nextHas (run [0x62, 0xF1, 0xFD, 0x08, 0x6E, 0x40, 0x02] (at' 0x3010 [0x20, 0x21] (gp 0 0x3000 t64)))
    (fun t => readVec t 0 = 0x2120) = true := by decide +kernel
/-- D14v -/
theorem test_d14v : nextHas (run [0x62, 0xE1, 0x7D, 0x08, 0x7E, 0xCA] (writeVec t64 17 0x51122334455667788))
    (fun t => readGpr t 2 = 0x55667788) = true := by decide +kernel
/-- D15v -/
theorem test_d15v : nextHas (run [0x62, 0xE1, 0xFD, 0x08, 0x7E, 0x48, 0x01]
    (writeVec (gp 0 0x3000 t64) 17 0x51122334455667788)) (fun t => t.mem.read 0x3008 = 0x88 && t.mem.read 0x300F = 0x11) =
    true := by decide +kernel
/-- D16v -/
theorem test_d16v : run [0x62, 0xF1, 0x75, 0x08, 0x6E, 0xC0] t64 = .fault (.ud 0x400000) :=
  fault_of (by decide)
/-- 70_reset_and_hazards.md R212: right after reset row 1 runs, row 5 raises #UD. -/
theorem test_reset_row1 : nextHas (step (State.reset.withFetchWord 24 0xC06E0F)) (fun t => t.rip = 0xFFF3) = true := by
  decide
theorem test_reset_row5 : step (State.reset.withFetchWord 32 0xC06E0F66) = .fault (.ud 0xFFF0) :=
  fault_of (by decide)

/-- R34 before R174: eighteen bytes at FFF0H under limit FFFFH pass the top. -/
theorem test_long_wrap : run (List.replicate 15 0x26 ++ [0x0F, 0x6E, 0xC0]) State.reset = .refused .ipWrap :=
  refused_of (by decide)
/-- R174 -/
theorem test_long_gp : run (List.replicate 15 0x26 ++ [0x0F, 0x6E, 0xC0]) t64 = .fault (.gp 0x400000) :=
  fault_of (by decide)
/-- D13 (e) whatever the length: P0 bits 3:0 are not 0001b in an encoding that would have seventeen bytes. -/
theorem test_bad_p0_long : run (List.replicate 11 0x26 ++ [0x62, 0xF0, 0x7D, 0x08, 0x6E, 0xC0]) t64 =
    .refused (.decode .evexForm) :=
  refused_of (by decide)

/-! ## Witnesses: states and operands that meet the hypotheses of each statement that has some -/

/-- An instruction of each family, with a register operand and with a memory operand. -/
def iMmx : Instr := .movdMmRm32 [] ⟨1, .direct 0⟩
def iMmxMem : Instr := .movdMmRm32 [] ⟨1, .plain 3 .none⟩
def iSse : Instr := .movdXmmRm32 [.opSize] ⟨1, .direct 0⟩
def iVex : Instr := .vmovdXmmRm32C5 [] ⟨false, 15, false⟩ ⟨1, .direct 0⟩
def iEvex : Instr := .vmovdRm32XmmEvex [] (ev false false false false false) ⟨1, .direct 0⟩

/-- A memory operand `[reg 3]`, and the states in which it is at 1000H, at 1001H (misaligned) and non-canonical. -/
def mrm : ModRM := ⟨1, .plain 3 .none⟩
def tMem : State := at' 0x1000 [0x88, 0x77, 0x66, 0x55, 0x44, 0x33, 0x22, 0x11] (gp 3 0x1000 t64)
def tMem32 : State := { tMem with mode := .m32 }

/-- The alignment check is in force. -/
def tAlign (s : State) : State := { s with cr0 := 0x40000, eflags := 0x40002, cpl := 3 }

/-- The platform faults reads at 1000H to 1FFFH with code 0 and writes with code 2; 2000H on is a device. -/
def tPaged : State :=
  { tMem with plat := { t64.plat with memMap :=
      [⟨0x1000, 0x1000, .faulting (some 0) (some 2)⟩, ⟨0x2000, 0x1000, .notWriteBack⟩] } }

/-- An expand-down data segment as the platform's table: doubleword reads through DS at offsets 0 to 0FFFH are #GP(0),
the read at 1000H passes; and through SS and FS the table has the other exceptions. -/
def tTable : State :=
  { t32 with plat := { t32.plat with accessRules :=
      [⟨.ds, .read, 4, 0, 0xFFF, .gp⟩, ⟨.ss, .read, 4, 0, 0xFFFFFFFF, .ss⟩, ⟨.fs, .write, 4, 8, 8, .pf 6 0x1234⟩] } }

/-- A program in memory at rip: sixteen bytes, thirteen of them 67 prefixes. -/
def tLong : State := at' 0x400000 (List.replicate 13 0x67 ++ [0x0F, 0x6E, 0xC8]) t64

/-- A program in memory at rip: A1, then A11. -/
def tProg : State := at' 0x400000 [0x0F, 0x6E, 0xC8, 0x0F, 0x7E, 0xCB] (gp 0 5 t64)

theorem wit_ResetRaisesUDOutsideMmxRows : isMmxRow iSse = false ∧ IpFits State.reset iSse.ilen := by
  unfold IpFits; decide

theorem wit_DecodeOfEncode : iSse.wf m64 = true ∧ iMmxMem.wf m32 = true := by decide

theorem wit_EncodeOfDecode : decode m64 [0x66, 0x0F, 0x6E, 0xC8, 0x90] = .ok iSse [0x90] := by decide

theorem wit_RepPrefixIsNotOfTheGroup : prefixesWf m64.mode [.rep, rexW] = true ∧ hasRep [.rep, rexW] = true := by decide

theorem wit_W1BytesDecodeToW0RowsInM32 :
    prefixesWf .m32 [.seg .fs] = true ∧ mrm.wf m32 [.seg .fs] = true ∧ (v3 false false true true).r = false ∧
      (v3 false false true true).x = false ∧ (ev false false true true true).r = false ∧
      (ev false false true true true).x = false := by decide

theorem wit_StepRunsDecodedInstruction :
    ∃ rest, decode tProg.codeMode (fetch tProg) = .ok iMmx rest := ⟨_, rfl⟩

theorem wit_StepRunsInstructionInMemory : iMmx.wf tProg.codeMode = true ∧ IpFits tProg iMmx.ilen ∧
    ∀ k, k < iMmx.ilen →
      inProgram tProg k = true ∧ (encode iMmx)[k]? = some (tProg.mem.read (codeAddr tProg k)) := by
  unfold IpFits; decide

theorem wit_vecFit : VecFit tProg := by
  intro n j _
  rw [show readVec tProg n = (Vector.replicate 32 (0 : VecWord))[n.toNat]'n.isLt from rfl, Vector.getElem_replicate]
  simp

/-- A state that steps, with a byte of its program, for the statements about `step`. -/
theorem wit_steps : (∃ t, step tProg = .next t) ∧ isProgramByte tProg 0x400000 = true :=
  ⟨next_of (p := fun _ => true) (by decide), by decide⟩

theorem wit_StepKeepsInv : Inv tProg ∧ ∃ t, step tProg = .next t :=
  ⟨⟨by decide, (fun h => nomatch h), wit_vecFit⟩, wit_steps.1⟩

theorem wit_CompletionAdvancesIp : (∃ t, exec iMmx t64 = .next t) ∧
    ipOk { t64 with rip := 0xFFFFFFFFFFFFFFFD } iMmx.ilen = false :=
  ⟨next_of (p := fun _ => true) (by decide), by decide⟩

theorem wit_FaultsSaveInstructionAddress : step { tProg with cr0 := 4 } = .fault (.ud 0x400000) :=
  fault_of (by decide)

theorem wit_RegisterFormsRaiseNoMemoryFault : iMmx.modrm.rm = .direct 0 ∧ iMmx.ilen ≤ maxIlen ∧
    exec iMmx { t64 with cr0 := 8 } = .fault (.nm 0x400000) :=
  ⟨rfl, by decide, fault_of (by decide)⟩

/-- Sixteen bytes, the least length that is too long. -/
theorem wit_LongInstructionsRaiseGP :
    (Instr.movdMmRm32 (List.replicate 13 (.seg .es)) ⟨1, .direct 0⟩).ilen = 16 ∧ ipOk t64 16 = true := by
  decide

/-- The second clause, at its boundary of sixteen bytes. -/
theorem wit_LongInstructionsRaiseGP_step :
    (Instr.movdMmRm32 (List.replicate 13 .addrSize) ⟨1, .direct 0⟩).wf tLong.codeMode = true ∧
    ipOk tLong (Instr.movdMmRm32 (List.replicate 13 .addrSize) ⟨1, .direct 0⟩).ilen = true ∧
    15 < (Instr.movdMmRm32 (List.replicate 13 .addrSize) ⟨1, .direct 0⟩).ilen ∧
    ∀ k, k < (Instr.movdMmRm32 (List.replicate 13 .addrSize) ⟨1, .direct 0⟩).ilen →
      inProgram tLong k = true ∧
        (encode (.movdMmRm32 (List.replicate 13 .addrSize) ⟨1, .direct 0⟩))[k]? =
          some (tLong.mem.read (codeAddr tLong k)) := by
  decide

theorem wit_LockPrefixRaisesUD : IpFits t64 (Instr.movdMmRm32 [.lock] ⟨1, .direct 0⟩).ilen ∧
    hasLock (Instr.movdMmRm32 [.lock] ⟨1, .direct 0⟩).prefixes = true := by
  unfold IpFits; decide

def noFeatures (s : State) : State := { s with plat := { s.plat with hasMMX := false, hasAVX := false } }

theorem wit_MissingFeatureRaisesUD : IpFits (noFeatures t64) iVex.ilen ∧ hasFeature (noFeatures t64).plat iVex = false ∧
    hasFeature (noFeatures t64).plat iMmx = false := by
  unfold IpFits; decide

/-- CR0.EM set; CR0.TS set; an x87 exception pending. -/
def tEM : State := { t64 with cr0 := 4 }
def tTS : State := { t64 with cr0 := 8 }
def tMF : State := { t64 with x87Pending := true }

theorem wit_MmxRowsGate : isMmxRow iMmx = true ∧ hasLock iMmx.prefixes = false ∧
    (IpFits tEM iMmx.ilen ∧ tEM.plat.hasMMX = true ∧ tEM.cr0EM = true) ∧
    (IpFits tTS iMmx.ilen ∧ tTS.plat.hasMMX = true ∧ tTS.cr0EM = false ∧ tTS.cr0TS = true) ∧
    (IpFits tMF iMmx.ilen ∧ tMF.plat.hasMMX = true ∧ tMF.cr0EM = false ∧ tMF.cr0TS = false ∧
      tMF.x87Pending = true) := by
  unfold IpFits; decide

theorem wit_SseRowsGate : isSse2Row iSse = true ∧ hasLock iSse.prefixes = false ∧
    (IpFits tEM iSse.ilen ∧ tEM.cr0EM = true) ∧
    (IpFits { t64 with cr4 := 0x40000 } iSse.ilen ∧ State.cr4OSFXSR { t64 with cr4 := 0x40000 } = false) ∧
    (IpFits tTS iSse.ilen ∧ tTS.cr0EM = false ∧ tTS.cr4OSFXSR = true ∧ tTS.plat.hasSSE2 = true ∧
      tTS.cr0TS = true) := by
  unfold IpFits; decide

theorem wit_VexRowsGate : isVexRow iVex = true ∧ IpFits tReal iVex.ilen ∧ tReal.inRealOrV86 = true ∧
    (IpFits { t64 with cr4 := 0x200 } iVex.ilen ∧ State.cr4OSXSAVE { t64 with cr4 := 0x200 } = false) ∧
    (IpFits { t64 with xcr0 := 3 } iVex.ilen ∧ State.xcr0Avx { t64 with xcr0 := 3 } = false) ∧
    (IpFits tTS (vex3Len [.seg .gs] reg0) ∧ IpFits tTS (vex2Len [.seg .gs] reg0) ∧
      badVexPrefix [.seg .gs] = false ∧ tTS.plat.hasAVX = true ∧ tTS.inRealOrV86 = false ∧ tTS.cr4OSXSAVE = true ∧
      tTS.xcr0Avx = true ∧ (v3 true true true true).l = false ∧ (v3 true true true true).vvvv = 15 ∧
      (Vex2.mk true 15 false).l = false ∧ (Vex2.mk true 15 false).vvvv = 15 ∧ tTS.cr0TS = true) ∧
    (BitVec.getLsbD (4 : Word32) 3 = t64.cr0.getLsbD 3 ∧ BitVec.getLsbD (4 : Word32) 18 = t64.cr0.getLsbD 18 ∧
      BitVec.getLsbD (0x40000 : Word32) 18 = t64.cr4.getLsbD 18) := by
  unfold IpFits; decide

theorem wit_EvexRowsGate : isEvexRow iEvex = true ∧ IpFits tReal iEvex.ilen ∧ tReal.inRealOrV86 = true ∧
    (IpFits { t64 with xcr0 := 0x67 } iEvex.ilen ∧ State.xcr0Avx512 { t64 with xcr0 := 0x67 } = false) ∧
    (IpFits tTS (evexLen [] reg0) ∧ badVexPrefix [] = false ∧ tTS.plat.hasAVX512F = true ∧
      tTS.inRealOrV86 = false ∧ tTS.cr4OSXSAVE = true ∧ tTS.xcr0Avx = true ∧ tTS.xcr0Avx512 = true ∧
      evexFieldsOk (ev true true true true true) = true ∧ tTS.cr0TS = true) := by
  unfold IpFits; decide

theorem wit_VexReservedFieldsRaiseUD : IpFits t64 (vex3Len [] reg0) ∧ IpFits t64 (vex2Len [] reg0) ∧
    (Vex3.mk false false false false 15 true).l = true ∧ (Vex3.mk false false false false 14 false).vvvv ≠ 15 ∧
    (Vex2.mk false 15 true).l = true ∧ (Vex2.mk false 0 false).vvvv ≠ 15 := by
  unfold IpFits; decide

theorem wit_EvexReservedFieldsRaiseUD : IpFits t64 (evexLen [] reg0) ∧
    { ev false false false false false with vvvv := 14 }.vvvv ≠ 15 ∧
    { ev false false false false false with ll := 1 }.ll ≠ 0 ∧
    { ev false false false false false with aaa := 1 }.aaa ≠ 0 ∧
    { ev false false false false false with z := true }.z = true ∧
    { ev false false false false false with bc := true }.bc = true ∧
    { ev false false false false false with vBar' := false }.vBar' = false := by
  unfold IpFits; decide

theorem wit_ForbiddenByteBeforeVexRaisesUD :
    isVexRow (.vmovdXmmRm32C5 [.opSize, .repne, .rep, .lock, rexW] ⟨false, 15, false⟩ reg0) = true ∧
    IpFits t64 (vex2Len [.opSize, .repne, .rep, .lock, rexW] reg0) ∧ rexW.isRex = true := by
  unfold IpFits; decide

theorem wit_UnvouchedVexFormsAreRefused : t32.cr0TS = false ∧ t64.cr0TS = false ∧ t32.mode = .m32 ∧
    addrSize t32.codeMode [.addrSize] = .a16 ∧
    (IpFits t32 (vex3Len [] reg0) ∧ udVex t32 [] (v3 false false true true).l (v3 false false true true).vvvv = false) ∧
    (IpFits t32 (vex3Len [.addrSize] reg0) ∧ (v3 false false false false).b = false ∧
      udVex t32 [.addrSize] (v3 false false false false).l (v3 false false false false).vvvv = false) ∧
    (IpFits t32 (vex2Len [.addrSize] reg0) ∧ udVex t32 [.addrSize] false 15 = false) ∧
    (IpFits t32 (evexLen [] reg0) ∧ udEvex t32 [] (ev false false true false false) = false ∧
      udEvex t32 [] (ev false false false true false) = false) ∧
    (IpFits t32 (evexLen [.addrSize] reg0) ∧ udEvex t32 [.addrSize] (ev false false false false false) = false) ∧
    (IpFits t64 (evexLen [] reg0) ∧ udEvex t64 [] (ev false true false false false) = false ∧ t64.mode = .m64 ∧
      rmIsReg reg0.rm = true) ∧
    (IpFits t32 (evexLen [] ⟨0, .plain 0 (.d8 2)⟩) ∧ udEvex t32 [] (ev false false false false true) = false ∧
      addrSize t32.codeMode [] = .a32 ∧ rmIsDisp8 (.plain 0 (.d8 2)) = true) := by
  unfold IpFits; decide

theorem wit_AlignmentCheckRaisesAC : (tAlign t64).alignCheck = true ∧ t64.alignCheck = false ∧
    segAdmits (tAlign t64) .ds 0x1001 4 .read = true ∧ accessException (tAlign t64) .ds 0x1001 4 .read = none ∧
    pageFault (tAlign t64) (linear (tAlign t64) .ds 0x1001) 4 .read = none ∧
    (linear (tAlign t64) .ds 0x1001).toNat % 4 ≠ 0 ∧ (linear (tAlign t64) .ds 0x1004).toNat % 4 = 0 := by
  decide

/-- Each clause at its boundary: the last byte only is non-canonical, past FFFFH, past the limit. -/
theorem wit_IllegalAddressesRaiseSSOrGP :
    canonical t64.plat.vaBits (linear t64 .ds 0x00007FFFFFFFFFFD + BitVec.ofNat 64 3) = false ∧
    tReal.mode = .m32 ∧ tReal.realOrV86 = true ∧ 0xFFFF < (0xFFFD : Word64).toNat + (Width.bytes .dword - 1) ∧
    t32.mode = .m32 ∧ t32.realOrV86 = false ∧
    (t32.segs.get .ds).limit.toNat < (0xFFFFFFFD : Word64).toNat + (Width.bytes .dword - 1) ∧
    (SegFile.get { t32.segs with ds := { flat with readable := false } } .ds).readable = false ∧
    (SegFile.get { t32.segs with cs := { flat with writable := false } } .cs).writable = false := by
  decide

theorem wit_AccessesRaiseWhatTranslateRaises : rmIsReg (legArgs [] mrm).rm = false ∧
    (translate (gp 3 0x0000800000000000 t64) .ds 0x0000800000000000 4 .read = .fault (.gp 0x400000)) ∧
    (translate (gp 3 0x0000800000000000 t64) .ds 0x0000800000000000 4 .write = .fault (.gp 0x400000)) ∧
    segAdmits tPaged .ds 0x1000 4 .write = true ∧
    pageFault tPaged (operandAddr tPaged (legArgs [] mrm)) 4 .write = some (2, 0x1000) :=
  ⟨rfl, by rfl, by rfl, by decide, by decide⟩

/-- The platform's table: the last offset of a row, the first past it, and each exception it can have. -/
theorem wit_AccessesRaiseWhatTranslateRaises_table : segAdmits tTable .ds 0xFFF 4 .read = true ∧
    accessException tTable .ds 0xFFF 4 .read = some .gp ∧ accessException tTable .ds 0x1000 4 .read = none ∧
    segAdmits tTable .ss 0x10 4 .read = true ∧ accessException tTable .ss 0x10 4 .read = some .ss ∧
    segAdmits tTable .fs 8 4 .write = true ∧ accessException tTable .fs 8 4 .write = some (.pf 6 0x1234) ∧
    accessException tPaged (operandSeg .m64 (legArgs [] mrm)) 0x1000 4 .write = none := by
  decide

/-- tMem with the operand's address non-canonical, and tPaged with it in the device. -/
def tNonCanonical : State := gp 3 0x0000800000000000 tMem
def tDevice : State := gp 3 0x2000 tPaged

/-- In every family the gate passes in both states (the `Ready` terms look at no general register), the operand faults in
the one and is refused in the other. -/
theorem wit_rows_stop (w : Width) (k : Access) :
    (IpFits tNonCanonical (legLen [.opSize] mrm) ∧ MmxReady tNonCanonical [] ∧ Sse2Ready tNonCanonical [.opSize] ∧
      Vex3Ready tNonCanonical [] (v3 true true false true) ∧ VexReady tNonCanonical [] false 15 ∧
      EvexReady tNonCanonical [] (ev true true false true true) mrm) ∧
    (IpFits tDevice (legLen [.opSize] mrm) ∧ MmxReady tDevice [] ∧ Sse2Ready tDevice [.opSize] ∧
      Vex3Ready tDevice [] (v3 true true false true) ∧ VexReady tDevice [] false 15 ∧
      EvexReady tDevice [] (ev true true false true true) mrm) ∧
    (OperandFaults w tNonCanonical (legArgs [.opSize] mrm) k (.gp 0x400000) ∧
      OperandFaults w tNonCanonical (vex3Args [] (v3 true true false true) mrm) k (.gp 0x400000) ∧
      OperandFaults w tNonCanonical (evexArgs [] (ev true true false true true) mrm w) k (.gp 0x400000)) ∧
    OperandRefused w tDevice (legArgs [.opSize] mrm) k .notWriteBack ∧
      OperandRefused w tDevice (vex3Args [] (v3 true true false true) mrm) k .notWriteBack ∧
      OperandRefused w tDevice (evexArgs [] (ev true true false true true) mrm w) k .notWriteBack := by
  refine ⟨?_, ?_, ?_, ?_, ?_, ?_⟩
  · unfold IpFits MmxReady Sse2Ready Vex3Ready VexReady EvexReady
    refine ⟨?_, ?_, ?_, ?_, ?_, ?_⟩ <;> decide
  · unfold IpFits MmxReady Sse2Ready Vex3Ready VexReady EvexReady
    refine ⟨?_, ?_, ?_, ?_, ?_, ?_⟩ <;> decide
  · cases w <;> cases k <;> exact ⟨⟨rfl, by rfl⟩, ⟨rfl, by rfl⟩, rfl, by rfl⟩
  all_goals cases w <;> cases k <;> exact ⟨rfl, 0x2000, by rfl, .inl ⟨by decide, rfl⟩⟩

/-- The store that is refused for the program's sake, at its boundary: one byte inside. -/
theorem wit_store_to_program :
    OperandRefused .dword (gp 3 0x3FFFFD tPaged) (legArgs [] mrm) .write .storeToProgram :=
  ⟨rfl, 0x3FFFFD, by rfl, .inr ⟨by decide, rfl, by decide, rfl⟩⟩

theorem wit_StoresToProgramAndDevicesAreRefused : rmIsReg (legArgs [] mrm).rm = false ∧
    translate (gp 3 0x2000 tPaged) .ds 0x2000 4 .write = .next 0x2000 ∧
    touchesDevice (gp 3 0x2000 tPaged) 0x2000 4 = true ∧
    translate (gp 3 0x3FFFFD tPaged) .ds 0x3FFFFD 4 .write = .next 0x3FFFFD ∧
    touchesDevice (gp 3 0x3FFFFD tPaged) 0x3FFFFD 4 = false ∧
    touchesProgram (gp 3 0x3FFFFD tPaged) 0x3FFFFD 4 = true :=
  ⟨rfl, by rfl, by decide, by rfl, by decide, by decide⟩

theorem wit_addresses : t64.mode = .m64 ∧ t32.mode = .m32 ∧ (legArgs [] mrm).rm = .plain 3 .none ∧
    [PrefixItem.opSize, .lock].any isSegOverride = false ∧ lastOverride [.seg .fs, .seg .ds] = some .ds ∧
    lastOverride [.seg .ds, .seg .fs] = some .fs ∧ lastOverride [.opSize] = none := by decide

theorem wit_admits (k : Access) :
    Admits tMem (operandSeg .m64 (legArgs [] mrm)) (effAddr tMem (legArgs [] mrm)) .qword k ∧
      Admits tMem (operandSeg .m64 (legArgs [] mrm)) (effAddr tMem (legArgs [] mrm)) .dword k := by
  cases k <;>
    exact ⟨⟨by decide, by decide, by decide, by decide, by decide, fun _ => by decide⟩,
      ⟨by decide, by decide, by decide, by decide, by decide, fun _ => by decide⟩⟩

/-- The operand of a memory source reads as the bytes of tMem, the operand of a register source as the register. -/
theorem wit_reads : RmReads .dword tMem (legArgs [] mrm) 0x55667788 ∧
    RmReads .qword tMem (legArgs [] mrm) 0x1122334455667788 ∧
    RmReads .dword t64 (legArgs [] reg0) 0 ∧ RmReads .qword t64 (legArgs [] reg0) 0 :=
  ⟨⟨(wit_admits .read).2, by decide⟩, ⟨(wit_admits .read).1, by decide⟩, rfl, rfl⟩

theorem wit_MmxComplete : IpFits tMem (legLen [] mrm) ∧ MmxReady tMem [] ∧ tMem.mode = .m64 ∧
    rmIsReg mrm.rm = false ∧ IpFits t64 (legLen [] reg0) ∧ MmxReady t64 [] ∧ reg0.rm = .direct 0 := by
  unfold IpFits MmxReady; decide

theorem wit_SseComplete : IpFits tMem (legLen [.opSize] mrm) ∧ Sse2Ready tMem [.opSize] ∧
    IpFits t64 (legLen [.opSize] reg0) ∧ Sse2Ready t64 [.opSize] := by
  unfold IpFits Sse2Ready; decide

theorem wit_sse_reads : RmReads .dword tMem (legArgs [.opSize] mrm) 0x55667788 ∧
    RmReads .qword tMem (legArgs [.opSize] mrm) 0x1122334455667788 :=
  ⟨⟨(wit_admits .read).2, by decide⟩, ⟨(wit_admits .read).1, by decide⟩⟩

theorem wit_VexComplete : IpFits tMem (vex3Len [] mrm) ∧ Vex3Ready tMem [] (v3 true true false true) ∧
    IpFits tMem (vex2Len [] mrm) ∧ VexReady tMem [] false 15 ∧ IpFits t64 (vex3Len [] reg0) ∧
    Vex3Ready t64 [] (v3 true true true true) ∧ Vex3Ready t32 [] (v3 false false false true) := by
  unfold IpFits Vex3Ready VexReady; decide

theorem wit_vex_reads : RmReads .dword tMem (vex3Args [] (v3 true true false true) mrm) 0x55667788 ∧
    RmReads .qword tMem (vex3Args [] (v3 true true false true) mrm) 0x1122334455667788 ∧
    RmReads .dword tMem (vex2Args [] mrm) 0x55667788 :=
  ⟨⟨(wit_admits .read).2, by decide⟩, ⟨(wit_admits .read).1, by decide⟩,
    ⟨(wit_admits .read).2, by decide⟩⟩

theorem wit_EvexComplete : IpFits tMem (evexLen [] mrm) ∧ EvexReady tMem [] (ev true true false true true) mrm ∧
    IpFits t64 (evexLen [] reg0) ∧ EvexReady t64 [] (ev true false true true false) reg0 ∧
    EvexReady t32 [] (ev false false false false true) mrm := by
  unfold IpFits EvexReady
  refine ⟨?_, ?_, ?_, ?_, ?_⟩ <;> decide

theorem wit_evex_reads : RmReads .dword tMem (evexArgs [] (ev true true false true true) mrm .dword) 0x55667788 ∧
    RmReads .qword tMem (evexArgs [] (ev true true false true true) mrm .qword) 0x1122334455667788 :=
  ⟨⟨(wit_admits .read).2, by decide⟩, ⟨(wit_admits .read).1, by decide⟩⟩

theorem wit_QuadwordRowsInM32 : t32.mode = .m32 ∧ IpFits t32 (legLen [] mrm) ∧ MmxReady t32 [] ∧ Sse2Ready t32 [] := by
  unfold IpFits MmxReady Sse2Ready; decide

/-- The loading rows complete, which the frames ask for. -/
theorem wit_loads_frames : (∃ t, exec (.movdMmRm32 [] mrm) tMem = .next t) ∧
    (∃ t, exec (.movqMmRm64 [] mrm) tMem = .next t) ∧ (∃ t, exec (.movdXmmRm32 [.opSize] mrm) tMem = .next t) ∧
    (∃ t, exec (.movqXmmRm64 [.opSize] mrm) tMem = .next t) ∧
    (∃ t, exec (.vmovdXmmRm32C4 [] (v3 false false false false) mrm) tMem = .next t) ∧
    (∃ t, exec (.vmovqXmmRm64Vex [] (v3 false false false true) mrm) tMem = .next t) ∧
    (∃ t, exec (.vmovdXmmRm32C5 [] ⟨false, 15, false⟩ mrm) tMem = .next t) ∧
    (∃ t, exec (.vmovdXmmRm32Evex [] (ev false false false false false) mrm) tMem = .next t) ∧
    (∃ t, exec (.vmovqXmmRm64Evex [] (ev false false false false true) mrm) tMem = .next t) := by
  refine ⟨?_, ?_, ?_, ?_, ?_, ?_, ?_, ?_, ?_⟩ <;> exact next_of (p := fun _ => true) (by decide)

/-- The storing rows complete with a register destination (`m` is reg0) and with a memory destination (`m` is mrm). -/
theorem wit_stores_frames (m : ModRM) (h : m = reg0 ∨ m = mrm) : (∃ t, exec (.movdRm32Mm [] m) tMem = .next t) ∧
    (∃ t, exec (.movqRm64Mm [] m) tMem = .next t) ∧ (∃ t, exec (.movdRm32Xmm [.opSize] m) tMem = .next t) ∧
    (∃ t, exec (.movqRm64Xmm [.opSize] m) tMem = .next t) ∧
    (∃ t, exec (.vmovdRm32XmmC4 [] (v3 false false false false) m) tMem = .next t) ∧
    (∃ t, exec (.vmovqRm64XmmVex [] (v3 false false false true) m) tMem = .next t) ∧
    (∃ t, exec (.vmovdRm32XmmC5 [] ⟨false, 15, false⟩ m) tMem = .next t) ∧
    (∃ t, exec (.vmovdRm32XmmEvex [] (ev false false false false false) m) tMem = .next t) ∧
    (∃ t, exec (.vmovqRm64XmmEvex [] (ev false false false false true) m) tMem = .next t) := by
  rcases h with rfl | rfl <;> refine ⟨?_, ?_, ?_, ?_, ?_, ?_, ?_, ?_, ?_⟩ <;>
    exact next_of (p := fun _ => true) (by decide)

theorem wit_ResultsDoNotDependOnFlags : (0xCD7 : Word32).getLsbD 18 = t64.eflags.getLsbD 18 ∧
    ∃ t, exec iMmx t64 = .next t :=
  ⟨by decide, next_of (p := fun _ => true) (by decide)⟩

end Sys2Proof.Tests
end

section
/-! SUPPORT. The invariant under each update of the state, and the frame of a move: what stays until the instruction
pointer moves. -/

namespace Sys2Proof.Machine

/-! ## One step -/

/-- The step executes what the fetched bytes decode to, and adds nothing around it. -/
theorem step_of_decode {s : State} {i : Instr} {rest : List Byte} (h : decode s.codeMode (fetch s) = .ok i rest) :
    step s = exec i s := by
  rw [step, h]

/-- A step completes exactly when the fetched bytes decode to an instruction that completes. -/
theorem step_eq_next {s t : State} :
    step s = .next t ↔ ∃ i rest, decode s.codeMode (fetch s) = .ok i rest ∧ exec i s = .next t := by
  unfold step
  cases decode s.codeMode (fetch s) <;> simp

/-- Where the instruction pointer's check passes in M32, the pointer after the instruction has 32 bits: a segment limit
has no more (10_state.md R34). -/
theorem rip_add_lt_of_ipOk {s : State} {n : Nat} (hip : ipOk s n = true) (hm : s.mode = .m32) :
    s.rip.toNat + n < 2 ^ 32 := by
  have hl := s.segs.cs.limit.isLt
  simp only [ipOk, ipTop, hm, decide_true, Bool.true_or, Bool.and_true, decide_eq_true_eq] at hip
  omega

/-! ## The invariant under each update -/

theorem Inv.mmxTouch {s : State} (h : Inv s) : Inv (mmxTouch s) := ⟨h.mem, h.regs, h.vecs⟩

theorem Inv.writeMm {s : State} (h : Inv s) (n : BitVec 3) (v : Word64) : Inv (writeMm s n v) :=
  ⟨h.mem, h.regs, h.vecs⟩

theorem Inv.mmxWrite {s : State} (h : Inv s) (n : BitVec 3) : Inv (mmxWrite s n) := ⟨h.mem, h.regs, h.vecs⟩

theorem Inv.setMem {s : State} (h : Inv s) {m : Memory} (hm : m.wf = true) : Inv (setMem s m) :=
  ⟨hm, h.regs, h.vecs⟩

/-- A vector write masks its value to MAXVL bits. -/
theorem Inv.writeVec {s : State} (h : Inv s) (n : BitVec 5) (v : VecWord) : Inv (writeVec s n v) := by
  refine ⟨h.mem, h.regs, fun k j hj => ?_⟩
  rw [readVec_writeVec]
  split
  · have hge : ¬j < s.plat.maxvl.bits := Nat.not_lt.mpr hj
    rw [getLsbD_maskVec, decide_eq_false hge, Bool.false_and]
  · exact h.vecs k j hj

theorem Inv.writeXmmKeep {s : State} (h : Inv s) (n : BitVec 5) (v : BitVec 128) : Inv (writeXmmKeep s n v) :=
  h.writeVec n _

theorem Inv.writeXmmZero {s : State} (h : Inv s) (n : BitVec 5) (v : BitVec 128) : Inv (writeXmmZero s n v) :=
  h.writeVec n _

/-- A general-register write keeps the invariant when, in M32, it names one of the eight registers and its value has
32 bits. -/
theorem Inv.writeGpr {s : State} (h : Inv s) {n : BitVec 4} {v : Word64}
    (hfit : s.mode = .m32 → n < 8 ∧ v < 2 ^ 32) : Inv (writeGpr s n v) := by
  refine ⟨h.mem, fun hm => ?_, h.vecs⟩
  obtain ⟨hrip, hregs⟩ := h.regs hm
  obtain ⟨hn, hv⟩ := hfit hm
  refine ⟨hrip, fun k => ?_⟩
  rw [readGpr_writeGpr]
  split
  · next hk => exact ⟨hv, fun h8 => absurd (hk ▸ hn) (BitVec.not_lt.mpr h8)⟩
  · exact hregs k

/-- Moving the instruction pointer keeps the invariant when, in M32, it stays a 32-bit value. -/
theorem Inv.advance {s : State} (h : Inv s) {n : Nat} (hfit : s.mode = .m32 → s.rip.toNat + n < 2 ^ 32) :
    Inv (advance s n) := by
  refine ⟨h.mem, fun hm => ⟨?_, (h.regs hm).2⟩, h.vecs⟩
  have hlt := hfit hm
  rw [advance_rip, BitVec.toNat_add, BitVec.toNat_ofNat]
  omega

/-! ## The r/m operand -/

/-- In M32 an extension bit counts for nothing: a register number is below eight (30_encoding.md R106). -/
theorem regNum_m32_lt (e : Bool) (r : BitVec 3) : regNum .m32 e r < 8 := by
  revert e r; decide

/-- A doubleword zero-extended has 32 bits. -/
theorem setWidth_dword_lt {w : Width} (hw : w = .dword) (v : BitVec w.bits) : v.setWidth 64 < (2 ^ 32 : Word64) := by
  subst hw
  have hv : v.toNat < 2 ^ 32 := v.isLt
  rw [BitVec.lt_def, BitVec.toNat_setWidth]
  exact (Nat.mod_le _ _).trans_lt hv

/-- A write of the r/m operand keeps the invariant, if in M32 it is of a doubleword. -/
theorem Inv.writeRM {w : Width} {s t : State} {a : RmArgs} {v : BitVec w.bits} (h : Inv s)
    (hw : s.mode = .m32 → w = .dword) (ht : writeRM w s a v = .next t) : Inv t := by
  obtain ⟨r, -, rfl⟩ | ⟨-, -, rfl⟩ := writeRM_eq_next ht
  · exact h.writeGpr fun hm => ⟨hm ▸ regNum_m32_lt a.b r, setWidth_dword_lt (hw hm) v⟩
  · exact h.setMem (Memory.writeAll_wf _ _ h.mem)

/-- A write of the r/m operand leaves the mode and the instruction pointer. -/
theorem writeRM_keeps_mode_rip {w : Width} {s t : State} {a : RmArgs} {v : BitVec w.bits}
    (ht : writeRM w s a v = .next t) : t.mode = s.mode ∧ t.rip = s.rip := by
  obtain ⟨r, -, rfl⟩ | ⟨-, -, rfl⟩ := writeRM_eq_next ht <;> exact ⟨rfl, rfl⟩

/-! ## The move -/

/-- No instruction that its gate lets through in M32 moves a quadword: rows 2, 4, 6 and 8 are refused there, and the
other W1 rows move a doubleword (30_encoding.md R118). -/
theorem widthOf_m32 {s : State} {i : Instr} (hno : noOf s i = none) (hm : s.mode = .m32) : widthOf s i = .dword := by
  cases i with
  | movqMmRm64 | movqRm64Mm | movqXmmRm64 | movqRm64Xmm => simp [noOf, refuseQuadInM32, hm] at hno
  | vmovqXmmRm64Vex | vmovqRm64XmmVex | vmovqXmmRm64Evex | vmovqRm64XmmEvex => simp only [widthOf, hm, w1Width]
  | _ => rfl

theorem Inv.loadInto {s : State} (h : Inv s) (i : Instr) (v : BitVec (widthOf s i).bits) : Inv (loadInto s i v) := by
  unfold Machine.loadInto
  split
  · exact ((h.writeMm _ _).mmxTouch).mmxWrite _
  · split
    · exact h.writeXmmKeep _ _
    · exact h.writeXmmZero _ _

/-- A load leaves the mode and the instruction pointer until it completes. -/
theorem loadInto_keeps_mode_rip (s : State) (i : Instr) (v : BitVec (widthOf s i).bits) :
    (loadInto s i v).mode = s.mode ∧ (loadInto s i v).rip = s.rip := by
  unfold loadInto
  split
  · exact ⟨rfl, rfl⟩
  · split <;> exact ⟨rfl, rfl⟩

theorem Inv.afterStore {s : State} (h : Inv s) (i : Instr) : Inv (afterStore i s) := by
  unfold Machine.afterStore
  split
  · exact h.mmxTouch
  · exact h

theorem afterStore_keeps_mode_rip (i : Instr) (t : State) :
    (afterStore i t).mode = t.mode ∧ (afterStore i t).rip = t.rip := by
  unfold afterStore
  split <;> exact ⟨rfl, rfl⟩

/-- An instruction that completes keeps the invariant. -/
theorem Inv.exec {i : Instr} {s t : State} (h : Inv s) (ht : exec i s = .next t) : Inv t := by
  obtain ⟨⟨⟨hip, -⟩, -, -, -, hno⟩, hmove⟩ := exec_eq_next.mp ht
  have hfit (u : State) (hu : u.mode = s.mode ∧ u.rip = s.rip) (hm : u.mode = .m32) :
      u.rip.toNat + i.ilen < 2 ^ 32 := hu.2 ▸ rip_add_lt_of_ipOk hip (hu.1 ▸ hm)
  obtain ⟨-, v, -, rfl⟩ | ⟨-, u, hu, rfl⟩ := moveOf_eq_next hmove
  · exact (h.loadInto i v).advance (hfit _ (loadInto_keeps_mode_rip s i v))
  · obtain ⟨hmode, hrip⟩ := writeRM_keeps_mode_rip hu
    obtain ⟨hmode', hrip'⟩ := afterStore_keeps_mode_rip i u
    have hinv : Inv u := h.writeRM (widthOf_m32 hno) hu
    exact (hinv.afterStore i).advance (hfit _ ⟨hmode'.trans hmode, hrip'.trans hrip⟩)

/-- Settles O13: the invariant passes each update of a completed instruction. -/
theorem stepKeepsInv : Obligations.StepKeepsInv := by
  intro s t h hs
  obtain ⟨i, _, -, ht⟩ := step_eq_next.mp hs
  exact h.exec ht

end Sys2Proof.Machine
end

section
/-! SUPPORT. The decoder on the encoder's bytes: one lemma per format, and from them `decode_encode` for every
instruction. -/

namespace Sys2Proof

/-! ## Each format -/

/-- Past the prefixes the decoder sees the first byte that is none. -/
theorem decode_prefixBytes {cm : CodeMode} {pre : List PrefixItem} {b : Byte} {rest : List Byte}
    (hp : prefixesWf cm.mode pre = true) (hb : prefixOf cm.mode b = none) :
    decode cm (prefixBytes pre ++ b :: rest) = decodeBody cm pre (b :: rest) := by
  rw [decode, splitPrefixes_bytes hp hb]

theorem finish_bytes {cm : CodeMode} {pre : List PrefixItem} {m : ModRM} (rest : List Byte) (k : ModRM → Instr)
    (hm : m.wf cm pre = true) : finish cm pre (m.bytes ++ rest) k = .ok (k m) rest := by
  rw [finish, parseModRM_bytes rest hm]

/-- Format LEG (30_encoding.md R84, R86). -/
theorem decode_encodeLegacy {cm : CodeMode} {pre : List PrefixItem} {op : Byte} {dir : Dir} {m : ModRM}
    (rest : List Byte) (hp : prefixesWf cm.mode pre = true) (hrep : hasRep pre = false) (ho : opcodeDir op = some dir)
    (hm : m.wf cm pre = true) :
    decode cm (encodeLegacy pre op m ++ rest) = .ok (legacyRow pre dir m) rest := by
  rw [encodeLegacy, List.append_assoc, List.cons_append, List.cons_append,
    decode_prefixBytes hp (prefixOf_openers cm.mode).1]
  simp [decodeBody, decodeLegacy, ho, hrep, finish_bytes rest _ hm]

/-- Format VEX, opened by C5 (30_encoding.md R84, R94). -/
theorem decode_encodeVex2 {cm : CodeMode} {pre : List PrefixItem} {v : Vex2} {op : Byte} {dir : Dir} {m : ModRM}
    (rest : List Byte) (hp : prefixesWf cm.mode pre = true) (hv : opensVex cm.mode v.b1 = true)
    (ho : opcodeDir op = some dir) (hm : m.wf cm pre = true) :
    decode cm (encodeVex2 pre v op m ++ rest) = .ok (vex2Row pre v dir m) rest := by
  rw [encodeVex2, List.append_assoc, List.cons_append, List.cons_append, List.cons_append,
    decode_prefixBytes hp (prefixOf_openers cm.mode).2.1]
  simp [decodeBody, decodeVex2, hv, v.b1_fields.1, v.ofByte_b1, ho, finish_bytes rest _ hm]

/-- Format VEX, opened by C4 (30_encoding.md R84, R95). -/
theorem decode_encodeVex3 {cm : CodeMode} {pre : List PrefixItem} {v : Vex3} {op : Byte} {dir : Dir} {m : ModRM}
    (rest : List Byte) (hp : prefixesWf cm.mode pre = true) (hv : opensVex cm.mode v.b1 = true)
    (ho : opcodeDir op = some dir) (hm : m.wf cm pre = true) :
    decode cm (encodeVex3 pre v op m ++ rest) = .ok (vex3Row cm.mode pre v dir m) rest := by
  obtain ⟨-, -, hC4, -⟩ := prefixOf_openers cm.mode
  obtain ⟨hmap, -, hpp⟩ := v.b1_fields
  rw [encodeVex3, List.append_assoc, List.cons_append, List.cons_append, List.cons_append, List.cons_append,
    decode_prefixBytes hp hC4]
  simp [decodeBody, decodeVex3, hv, hmap, hpp, v.ofBytes_b, ho, finish_bytes rest _ hm]

/-- Format EVEX (30_encoding.md R84, R97). -/
theorem decode_encodeEvex {cm : CodeMode} {pre : List PrefixItem} {e : Evex} {op : Byte} {dir : Dir} {m : ModRM}
    (rest : List Byte) (hp : prefixesWf cm.mode pre = true) (he : opensVex cm.mode e.p0 = true)
    (ho : opcodeDir op = some dir) (hm : m.wf cm pre = true) :
    decode cm (encodeEvex pre e op m ++ rest) = .ok (evexRow cm.mode pre e dir m) rest := by
  obtain ⟨-, -, -, h62⟩ := prefixOf_openers cm.mode
  obtain ⟨-, -, -, -, hmap, -⟩ := e.p0_fields
  obtain ⟨-, -, hone, hpp⟩ := e.p1_fields
  rw [encodeEvex, List.append_assoc, List.cons_append, List.cons_append, List.cons_append, List.cons_append,
    List.cons_append, decode_prefixBytes hp h62]
  simp [decodeBody, decodeEvex, he, hmap, hone, hpp, e.ofBytes_p, ho, finish_bytes rest _ hm]

/-! ## What well-formedness gives each format -/

theorem legWf_iff {cm : CodeMode} {sse w : Bool} {pre : List PrefixItem} {m : ModRM} :
    legWf cm sse w pre m = true ↔
      prefixesWf cm.mode pre = true ∧ hasRep pre = false ∧ hasOpSize pre = sse ∧ (effectiveRex pre).w = w ∧
        m.wf cm pre = true := by
  simp [legWf, and_assoc]

/-! The mode-dependent part of each well-formedness check is that the bytes begin VEX or EVEX at all
(30_encoding.md R96, R98). -/

theorem vex2Wf_iff {cm : CodeMode} {pre : List PrefixItem} {v : Vex2} {m : ModRM} :
    vex2Wf cm pre v m = true ↔
      prefixesWf cm.mode pre = true ∧ opensVex cm.mode v.b1 = true ∧ m.wf cm pre = true := by
  rcases cm with ⟨mode, d⟩
  cases mode
  · simp [vex2Wf, opensVex]
  · simp [vex2Wf, opensVex_vex2, and_assoc]

theorem vex3Wf_iff {cm : CodeMode} {quad : Bool} {pre : List PrefixItem} {v : Vex3} {m : ModRM} :
    vex3Wf cm quad pre v m = true ↔
      prefixesWf cm.mode pre = true ∧ opensVex cm.mode v.b1 = true ∧ (decide (cm.mode = .m64) && v.w) = quad ∧
        m.wf cm pre = true := by
  rcases cm with ⟨mode, d⟩
  cases mode
  · simp [vex3Wf, opensVex, and_assoc]
  · simp [vex3Wf, opensVex_vex3, and_assoc]

theorem evexWf_iff {cm : CodeMode} {quad : Bool} {pre : List PrefixItem} {e : Evex} {m : ModRM} :
    evexWf cm quad pre e m = true ↔
      prefixesWf cm.mode pre = true ∧ opensVex cm.mode e.p0 = true ∧ (decide (cm.mode = .m64) && e.w) = quad ∧
        m.wf cm pre = true := by
  rcases cm with ⟨mode, d⟩
  cases mode
  · simp [evexWf, opensVex, and_assoc]
  · simp [evexWf, opensVex_evex, and_assoc]

/-! ## The rows selected -/

/-- The row that three-byte VEX selects, by whether W counts and is set (30_encoding.md R112, R118). -/
theorem vex3Row_eq (mode : Mode) (pre : List PrefixItem) (v : Vex3) (dir : Dir) :
    vex3Row mode pre v dir = match decide (mode = .m64) && v.w, dir with
      | true, .toReg => .vmovqXmmRm64Vex pre v
      | true, .toRm => .vmovqRm64XmmVex pre v
      | false, .toReg => .vmovdXmmRm32C4 pre v
      | false, .toRm => .vmovdRm32XmmC4 pre v := by
  unfold vex3Row
  cases mode <;> cases v.w <;> cases dir <;> rfl

/-- The row that EVEX selects, by whether W counts and is set (30_encoding.md R113, R118). -/
theorem evexRow_eq (mode : Mode) (pre : List PrefixItem) (e : Evex) (dir : Dir) :
    evexRow mode pre e dir = match decide (mode = .m64) && e.w, dir with
      | true, .toReg => .vmovqXmmRm64Evex pre e
      | true, .toRm => .vmovqRm64XmmEvex pre e
      | false, .toReg => .vmovdXmmRm32Evex pre e
      | false, .toRm => .vmovdRm32XmmEvex pre e := by
  unfold evexRow
  cases mode <;> cases e.w <;> cases dir <;> rfl

/-- Decoding the bytes of a well-formed instruction gives the instruction, and leaves the bytes that follow. -/
theorem decode_encode {cm : CodeMode} {i : Instr} (rest : List Byte) (h : i.wf cm = true) :
    decode cm (encode i ++ rest) = .ok i rest := by
  cases i with
  | movdMmRm32 pre m | movqMmRm64 pre m | movdRm32Mm pre m | movqRm64Mm pre m
  | movdXmmRm32 pre m | movqXmmRm64 pre m | movdRm32Xmm pre m | movqRm64Xmm pre m =>
    obtain ⟨hp, hrep, hsse, hw, hm⟩ := legWf_iff.mp h
    rw [encode, decode_encodeLegacy rest hp hrep rfl hm]
    simp only [legacyRow, hsse, hw]
  | vmovdXmmRm32C5 pre v m | vmovdRm32XmmC5 pre v m =>
    obtain ⟨hp, hv, hm⟩ := vex2Wf_iff.mp h
    rw [encode, decode_encodeVex2 rest hp hv rfl hm, vex2Row]
  | vmovdXmmRm32C4 pre v m | vmovqXmmRm64Vex pre v m | vmovdRm32XmmC4 pre v m | vmovqRm64XmmVex pre v m =>
    obtain ⟨hp, hv, hw, hm⟩ := vex3Wf_iff.mp h
    rw [encode, decode_encodeVex3 rest hp hv rfl hm, vex3Row_eq, hw]
  | vmovdXmmRm32Evex pre e m | vmovqXmmRm64Evex pre e m | vmovdRm32XmmEvex pre e m | vmovqRm64XmmEvex pre e m =>
    obtain ⟨hp, he, hw, hm⟩ := evexWf_iff.mp h
    rw [encode, decode_encodeEvex rest hp he rfl hm, evexRow_eq, hw]

/-- The length of an instruction is the count of its bytes (30_encoding.md R84). -/
theorem encode_length (i : Instr) : (encode i).length = i.ilen := by
  cases i with
  | movdMmRm32 pre m | movqMmRm64 pre m | movdRm32Mm pre m | movqRm64Mm pre m
  | movdXmmRm32 pre m | movqXmmRm64 pre m | movdRm32Xmm pre m | movqRm64Xmm pre m =>
    exact Laws.encodeLegacy_length pre _ m
  | vmovdXmmRm32C5 pre v m | vmovdRm32XmmC5 pre v m => exact Laws.encodeVex2_length pre v _ m
  | vmovdXmmRm32C4 pre v m | vmovqXmmRm64Vex pre v m | vmovdRm32XmmC4 pre v m | vmovqRm64XmmVex pre v m =>
    exact Laws.encodeVex3_length pre v _ m
  | vmovdXmmRm32Evex pre e m | vmovqXmmRm64Evex pre e m | vmovdRm32XmmEvex pre e m | vmovqRm64XmmEvex pre e m =>
    exact Laws.encodeEvex_length pre e _ m

end Sys2Proof
end

section
/-! SUPPORT. Fetching: an instruction whose bytes stand in the program at the instruction pointer is fetched whole, so
the step decodes and executes it. -/

namespace Sys2Proof.Machine

/-- A shorter instruction at the same place passes the pointer's check too (10_state.md R34). -/
theorem ipOk_of_le {s : State} {m n : Nat} (hmn : m ≤ n) (h : ipOk s n = true) : ipOk s m = true := by
  simp only [ipOk, Bool.and_eq_true, Bool.or_eq_true, decide_eq_true_eq, canonicalSpan, List.all_eq_true,
    List.mem_range] at h ⊢
  obtain ⟨htop, hspan⟩ := h
  exact ⟨by omega, hspan.imp_right fun hc k hk => hc k (by omega)⟩

/-- Bytes that can all be fetched, and are in memory at their code addresses, begin what is fetched. -/
theorem fetchFrom_eq_append {s : State} {bs : List Byte} {k n : Nat} (hn : bs.length ≤ n)
    (hbs : ∀ j, j < bs.length → fetchable s (k + j) = true ∧ bs[j]? = some (s.mem.read (codeAddr s (k + j)))) :
    ∃ rest, fetchFrom s k n = bs ++ rest := by
  induction bs generalizing k n with
  | nil => exact ⟨_, rfl⟩
  | cons b bs ih =>
    obtain ⟨n, rfl⟩ : ∃ n', n = n' + 1 := ⟨n - 1, by simp only [List.length_cons] at hn; omega⟩
    obtain ⟨hf, hb⟩ := hbs 0 (by simp)
    obtain ⟨rest, hrest⟩ := ih (k := k + 1) (n := n) (by simpa using hn) fun j hj => by
      simpa [Nat.add_assoc, Nat.add_comm 1 j] using hbs (j + 1) (by simpa using hj)
    refine ⟨rest, ?_⟩
    simp only [Nat.add_zero, List.getElem?_cons_zero, Option.some.injEq] at hf hb
    rw [fetchFrom, if_pos hf, ← hb, hrest, List.cons_append]

/-- A run of program addresses from the instruction pointer on is no longer than the program. -/
theorem le_program_size {s : State} {n : Nat} (h : ∀ k, k < n → inProgram s k = true) : n ≤ s.program.size := by
  cases n with
  | zero => exact Nat.zero_le _
  | succ n =>
    have hfirst := h 0 (by omega)
    have hlast := h n (by omega)
    simp only [inProgram, Bool.and_eq_true, decide_eq_true_eq] at hfirst hlast
    omega

/-- An instruction whose bytes stand in the program at the instruction pointer, and whose end does not pass the top of
the address space, is fetched whole. -/
theorem fetch_eq_encode_append {s : State} {i : Instr} (hip : ipOk s i.ilen = true)
    (hbytes : ∀ k, k < i.ilen → inProgram s k = true ∧ (encode i)[k]? = some (s.mem.read (codeAddr s k))) :
    ∃ rest, fetch s = encode i ++ rest := by
  have hsize : i.ilen ≤ s.program.size := le_program_size fun k hk => (hbytes k hk).1
  refine fetchFrom_eq_append (encode_length i ▸ hsize) fun k hk => ?_
  rw [encode_length] at hk
  obtain ⟨hprog, hbyte⟩ := hbytes k hk
  have hend : ipOk s (k + 1) = true := ipOk_of_le hk hip
  rw [Nat.zero_add, fetchable, hprog, hend]
  exact ⟨rfl, hbyte⟩

/-- A well-formed instruction of any length that stands in the program at the instruction pointer is the one that the
step executes. -/
theorem step_eq_exec_of_inProgram {s : State} {i : Instr} (hwf : i.wf s.codeMode = true) (hip : ipOk s i.ilen = true)
    (hbytes : ∀ k, k < i.ilen → inProgram s k = true ∧ (encode i)[k]? = some (s.mem.read (codeAddr s k))) :
    step s = exec i s := by
  obtain ⟨rest, hfetch⟩ := fetch_eq_encode_append hip hbytes
  exact step_of_decode (hfetch ▸ decode_encode rest hwf)

/-- Settles O11. -/
theorem stepRunsDecodedInstruction : Obligations.StepRunsDecodedInstruction :=
  fun _ _ _ hdec => step_of_decode hdec

/-- Settles O12: the bytes are fetched whole, and decode to the instruction they encode. -/
theorem stepRunsInstructionInMemory : Obligations.StepRunsInstructionInMemory :=
  fun _ _ hwf hfits hbytes => step_eq_exec_of_inProgram hwf hfits.1 hbytes

end Sys2Proof.Machine
end

section
/-! SUPPORT. The states after reset and after an INIT (10_state.md R40, R41). -/

namespace Sys2Proof.Machine

/-! ## The register files after reset -/

theorem readGpr_reset (n : BitVec 4) : readGpr State.reset n = if n = 2 then 0x600 else 0 := by
  have hn : (2 = n.toNat) ↔ n = 2 := by rw [BitVec.toNat_eq]; exact eq_comm
  simp only [readGpr, State.reset, Vector.getElem_set, Vector.getElem_replicate, hn]

theorem x87_reset (n : BitVec 3) : State.reset.x87[n.toNat]'n.isLt = 0 := Vector.getElem_replicate _

theorem readMm_reset (n : BitVec 3) : readMm State.reset n = 0 := by
  rw [readMm, x87_reset]
  rfl

theorem readVec_reset (n : BitVec 5) : readVec State.reset n = 0 := Vector.getElem_replicate _

theorem reset_segBase {g : Seg} (hg : g ≠ .cs) : (State.reset.segs.get g).base = 0 := by
  cases g with
  | cs => exact absurd rfl hg
  | es | ss | ds | fs | gs => rfl

/-- Settles O2: the register files by their reads, and every other value by the definition of the reset state. -/
theorem resetHasTabulatedValues : Obligations.ResetHasTabulatedValues := by
  refine ⟨fun n hn => ?_, ?_, fun n => ⟨x87_reset n, readMm_reset n⟩, rfl, rfl, readVec_reset, rfl, rfl, rfl, rfl,
    rfl, rfl, rfl, rfl, rfl, rfl, rfl, rfl, rfl, fun _ => reset_segBase⟩
  · rw [readGpr_reset, if_neg hn]
  · rw [readGpr_reset]
    decide

/-- Settles O4: each register file is one that `afterInit` names, or one of the reset state. -/
theorem initKeepsRegisterFiles : Obligations.InitKeepsRegisterFiles := fun _ =>
  ⟨rfl, rfl, rfl, ⟨rfl, rfl, rfl, rfl, rfl, rfl⟩, rfl, rfl, rfl, rfl, rfl, rfl, rfl, rfl, rfl, rfl, rfl⟩

/-! ## The invariant after reset -/

/-- After reset only EDX is not zero, so that every register has its width in M32. -/
theorem regsFit_reset : RegsFit State.reset := fun _ => ⟨by decide, fun n => by
  rw [readGpr_reset]
  split
  · next hn =>
    subst hn
    decide
  · exact ⟨by decide, fun _ => rfl⟩⟩

theorem vecFit_reset : VecFit State.reset := fun n j _ => by
  rw [readVec_reset]
  exact BitVec.getLsbD_zero

/-- Settles O5: memory is empty, and no register exceeds its width. -/
theorem resetMeetsInv : Obligations.ResetMeetsInv := ⟨reset_mem_wf, regsFit_reset, vecFit_reset⟩

/-! ## #UD after reset -/

/-- Rows 5 to 8 raise #UD where CR4.OSFXSR is clear (60_exceptions.md R178). -/
theorem udSse2_of_osfxsr {s : State} (pre : List PrefixItem) (h : s.cr4OSFXSR = false) : udSse2 s pre = true := by
  simp [udSse2, h]

/-- Rows 9 to 12 raise #UD in real-address and virtual-8086 mode (60_exceptions.md R179). -/
theorem udVex_of_real {s : State} (pre : List PrefixItem) (l : Bool) (vvvv : BitVec 4) (h : s.inRealOrV86 = true) :
    udVex s pre l vvvv = true := by
  simp [udVex, h]

/-- Rows 13 to 16 raise #UD in real-address and virtual-8086 mode (60_exceptions.md R180). -/
theorem udEvex_of_real {s : State} (pre : List PrefixItem) (e : Evex) (h : s.inRealOrV86 = true) :
    udEvex s pre e = true := by
  simp [udEvex, h]

/-- Outside rows 1 to 4 an instruction has a #UD condition when CR4.OSFXSR is clear and the mode is real-address or
virtual-8086. -/
theorem udOf_eq_true {s : State} {i : Instr} (hi : isMmxRow i = false) (hfx : s.cr4OSFXSR = false)
    (hreal : s.inRealOrV86 = true) : udOf s i = true := by
  cases i with
  | movdMmRm32 | movqMmRm64 | movdRm32Mm | movqRm64Mm => cases hi
  | movdXmmRm32 pre | movqXmmRm64 pre | movdRm32Xmm pre | movqRm64Xmm pre => exact udSse2_of_osfxsr pre hfx
  | vmovdXmmRm32C4 pre v | vmovdXmmRm32C5 pre v | vmovqXmmRm64Vex pre v
  | vmovdRm32XmmC4 pre v | vmovdRm32XmmC5 pre v | vmovqRm64XmmVex pre v => exact udVex_of_real pre v.l v.vvvv hreal
  | vmovdXmmRm32Evex pre e | vmovqXmmRm64Evex pre e | vmovdRm32XmmEvex pre e | vmovqRm64XmmEvex pre e =>
    exact udEvex_of_real pre e hreal

/-- Settles O3: after reset CR4 is zero and the mode is real-address mode. -/
theorem resetRaisesUDOutsideMmxRows : Obligations.ResetRaisesUDOutsideMmxRows :=
  fun _ hi hfits => exec_ud hfits (udOf_eq_true hi rfl rfl)

end Sys2Proof.Machine
end

section
/-! SUPPORT. What every completed instruction leaves as it was: the control state, and the instruction pointer until it
moves on (10_state.md R32 to R35, R37). -/

namespace Sys2Proof.Machine

/-! ## The control state under each update -/

theorem SameControl.refl (s : State) : SameControl s s :=
  ⟨rfl, rfl, rfl, rfl, rfl, rfl, rfl, rfl, rfl, rfl, rfl, rfl, rfl⟩

theorem SameControl.trans {s t u : State} (hst : SameControl s t) (htu : SameControl t u) : SameControl s u := by
  unfold SameControl at *
  simp_all

theorem sameControl_writeRM {w : Width} {s t : State} {a : RmArgs} {v : BitVec w.bits}
    (ht : writeRM w s a v = .next t) : SameControl s t := by
  obtain ⟨r, -, rfl⟩ | ⟨-, -, rfl⟩ := writeRM_eq_next ht <;> exact SameControl.refl s

theorem sameControl_loadInto (s : State) (i : Instr) (v : BitVec (widthOf s i).bits) :
    SameControl s (loadInto s i v) := by
  unfold loadInto
  split
  · exact SameControl.refl s
  · split <;> exact SameControl.refl s

theorem sameControl_afterStore (i : Instr) (t : State) : SameControl t (afterStore i t) := by
  unfold afterStore
  split <;> exact SameControl.refl t

theorem sameControl_advance (s : State) (n : Nat) : SameControl s (advance s n) := SameControl.refl s

/-! ## A completed instruction -/

/-- A completed instruction has moved the instruction pointer on from a state that has the pointer and the control state
of the state before. -/
theorem exec_eq_advance {i : Instr} {s t : State} (h : exec i s = .next t) :
    ∃ u, SameControl s u ∧ u.rip = s.rip ∧ t = advance u i.ilen := by
  obtain ⟨-, hmove⟩ := exec_eq_next.mp h
  obtain ⟨-, v, -, rfl⟩ | ⟨-, u, hu, rfl⟩ := moveOf_eq_next hmove
  · exact ⟨_, sameControl_loadInto s i v, (loadInto_keeps_mode_rip s i v).2, rfl⟩
  · have hrip : (afterStore i u).rip = s.rip := (afterStore_keeps_mode_rip i u).2.trans (writeRM_keeps_mode_rip hu).2
    exact ⟨_, (sameControl_writeRM hu).trans (sameControl_afterStore i u), hrip, rfl⟩

theorem exec_sameControl {i : Instr} {s t : State} (h : exec i s = .next t) : SameControl s t := by
  obtain ⟨u, hsu, -, rfl⟩ := exec_eq_advance h
  exact hsu.trans (sameControl_advance u _)

theorem exec_rip {i : Instr} {s t : State} (h : exec i s = .next t) : t.rip = s.rip + BitVec.ofNat 64 i.ilen := by
  obtain ⟨u, -, hrip, rfl⟩ := exec_eq_advance h
  rw [advance_rip, hrip]

/-- Settles O14: a completed step is a completed instruction, which keeps the control state. -/
theorem stepKeepsControlState : Obligations.StepKeepsControlState := by
  intro s t hs
  obtain ⟨i, _, -, ht⟩ := step_eq_next.mp hs
  exact exec_sameControl ht

/-! ## The instruction pointer -/

/-- The instruction pointer's top is a 64-bit value in either mode (10_state.md R34). -/
theorem ipTop_lt (s : State) : ipTop s < 2 ^ 64 := by
  unfold ipTop
  split
  · decide
  · exact s.segs.cs.limit.isLt.trans (by decide)

/-- Where the pointer's check passes, the pointer after the instruction does not wrap. -/
theorem toNat_rip_add_of_ipOk {s : State} {n : Nat} (h : ipOk s n = true) :
    (s.rip + BitVec.ofNat 64 n).toNat = s.rip.toNat + n := by
  have hle : s.rip.toNat + n ≤ ipTop s := of_decide_eq_true (Bool.and_elim_left h)
  have htop := ipTop_lt s
  rw [BitVec.toNat_add, BitVec.toNat_ofNat]
  omega

/-- Settles O16: the pointer's check is the gate's first, and past it the sum does not wrap. -/
theorem completionAdvancesIp : Obligations.CompletionAdvancesIp := by
  refine fun i s => ⟨fun t ht => ?_, exec_wrap⟩
  obtain ⟨⟨⟨hip, -⟩, -⟩, -⟩ := exec_eq_next.mp ht
  rw [exec_rip ht, toNat_rip_add_of_ipOk hip]

end Sys2Proof.Machine
end

section
/-! SUPPORT. The x87 side effects of the MMX rows (10_state.md R31). -/

namespace Sys2Proof.Machine

theorem loadInto_of_mmxRow {s : State} {i : Instr} (hi : isMmxRow i = true) (v : BitVec (widthOf s i).bits) :
    loadInto s i v = mmxWrite (mmxTouch (writeMm s i.modrm.reg (v.setWidth 64))) i.modrm.reg := by
  rw [loadInto, if_pos hi]

theorem afterStore_of_mmxRow {i : Instr} (hi : isMmxRow i = true) (t : State) : afterStore i t = mmxTouch t := by
  rw [afterStore, if_pos hi]

/-- A completed MMX row leaves top of stack 0 and all tags valid. -/
theorem exec_touches_x87 {i : Instr} {s t : State} (hi : isMmxRow i = true) (h : exec i s = .next t) :
    t.x87Top = 0 ∧ t.x87Tags = 0 := by
  obtain ⟨-, hmove⟩ := exec_eq_next.mp h
  obtain ⟨-, v, -, rfl⟩ | ⟨-, u, -, rfl⟩ := moveOf_eq_next hmove
  · rw [loadInto_of_mmxRow hi]
    exact ⟨rfl, rfl⟩
  · rw [afterStore_of_mmxRow hi]
    exact ⟨rfl, rfl⟩

/-- MmxWrite leaves ones in bits 79:64 of the x87 register. -/
theorem mmxWrite_high (s : State) (n : BitVec 3) :
    ((mmxWrite s n).x87[n.toNat]'n.isLt).extractLsb' 64 16 = BitVec.allOnes 16 := by
  simp only [mmxWrite_x87, Vector.getElem_set_self]
  exact BitVec.extractLsb'_append_eq_left

theorem mmxLoad_high {w : Width} {pre : List PrefixItem} {m : ModRM} {s t : State} (h : mmxLoad w pre m s = .next t) :
    (t.x87[m.reg.toNat]'m.reg.isLt).extractLsb' 64 16 = BitVec.allOnes 16 := by
  obtain ⟨-, v, -, rfl⟩ := mmxLoad_eq_next.mp h
  exact mmxWrite_high _ m.reg

/-- Settles O59: each MMX row ends in MmxTouch, and rows 1 and 2 in MmxWrite too. -/
theorem mmxRowsTouchX87 : Obligations.MmxRowsTouchX87 := by
  refine ⟨fun i s t hi h => exec_touches_x87 hi h, fun pre m s t h => ?_⟩
  rcases h with hd | hq
  · exact mmxLoad_high (w := .dword) hd
  · exact mmxLoad_high (w := .qword) hq

end Sys2Proof.Machine
end

section
/-! SUPPORT. Noninterference: of the flags register an instruction reads AC alone, in the alignment check, and of MXCSR
nothing, so it commutes with a change of the rest (10_state.md R32, R35). -/

namespace Sys2Proof.Machine

/-! ## Chaining -/

theorem mapNext_bind {α : Type} (f : State → State) (x : Res α) (g : α → Res State) :
    mapNext f (x.bind g) = x.bind fun a => mapNext f (g a) := by
  cases x <;> rfl

theorem bind_mapNext {β : Type} (f : State → State) (x : Res State) (g : State → Res β) :
    (mapNext f x).bind g = x.bind fun t => g (f t) := by
  cases x <;> rfl

/-! ## The form of the r/m operand -/

theorem exists_direct_of_rmIsReg {f : RmForm} (h : rmIsReg f = true) : ∃ r, f = .direct r := by
  cases f with
  | direct r => exact ⟨r, rfl⟩
  | plain | disp32 | sib | sibNoBase | mem16 | abs16 => cases h

/-! ## Another flags register and MXCSR -/

/-- The state with another flags register and MXCSR. -/
def setFlags (fl mx : Word32) (s : State) : State := { s with eflags := fl, mxcsr := mx }

/-- The alignment check reads AC alone. -/
theorem alignFault_setFlags {s : State} {fl : Word32} (mx : Word32) (hac : fl.getLsbD 18 = s.eflags.getLsbD 18)
    (la : Word64) (n : Nat) : alignFault (setFlags fl mx s) la n = alignFault s la n := by
  have hcheck : (setFlags fl mx s).alignCheck = s.alignCheck :=
    congrArg (fun b => s.cr0AM && b && decide (s.cpl = 3)) hac
  rw [alignFault, hcheck, alignFault]

section
variable {s : State} {fl : Word32} (mx : Word32) (hac : fl.getLsbD 18 = s.eflags.getLsbD 18)
include hac

theorem translate_setFlags (seg : Seg) (off : Word64) (n : Nat) (k : Access) :
    translate (setFlags fl mx s) seg off n k = translate s seg off n k := by
  unfold translate
  rw [alignFault_setFlags mx hac]
  rfl

theorem memRead_setFlags (w : Width) (seg : Seg) (off : Word64) :
    memRead w (setFlags fl mx s) seg off = memRead w s seg off := by
  rw [memRead, translate_setFlags mx hac]
  rfl

theorem memWrite_setFlags (w : Width) (seg : Seg) (off : Word64) (v : BitVec w.bits) :
    memWrite w (setFlags fl mx s) seg off v = mapNext (setFlags fl mx) (memWrite w s seg off v) := by
  rw [memWrite, memWrite, translate_setFlags mx hac, mapNext_bind]
  congr 1
  funext la
  rw [apply_ite (mapNext (setFlags fl mx)), apply_ite (mapNext (setFlags fl mx))]
  rfl

theorem readRM_setFlags (w : Width) (a : RmArgs) : readRM w (setFlags fl mx s) a = readRM w s a := by
  cases hr : rmIsReg a.rm with
  | true =>
    obtain ⟨r, hd⟩ := exists_direct_of_rmIsReg hr
    rw [readRM_direct hd, readRM_direct hd]
    rfl
  | false =>
    rw [readRM_mem hr, readRM_mem hr, memRead_setFlags mx hac]
    rfl

theorem writeRM_setFlags (w : Width) (a : RmArgs) (v : BitVec w.bits) :
    writeRM w (setFlags fl mx s) a v = mapNext (setFlags fl mx) (writeRM w s a v) := by
  cases hr : rmIsReg a.rm with
  | true =>
    obtain ⟨r, hd⟩ := exists_direct_of_rmIsReg hr
    rw [writeRM_direct hd, writeRM_direct hd]
    rfl
  | false =>
    rw [writeRM_mem hr, writeRM_mem hr, memWrite_setFlags mx hac]
    rfl

end

/-! ## The gate and the move -/

theorem gateOf_setFlags (fl mx : Word32) (s : State) (i : Instr) : gateOf (setFlags fl mx s) i = gateOf s i := by
  cases i <;> rfl

theorem loadInto_setFlags (fl mx : Word32) (s : State) (i : Instr) (v : BitVec (widthOf s i).bits) :
    loadInto (setFlags fl mx s) i v = setFlags fl mx (loadInto s i v) := by
  cases i <;> rfl

theorem afterStore_setFlags (fl mx : Word32) (i : Instr) (t : State) :
    afterStore i (setFlags fl mx t) = setFlags fl mx (afterStore i t) := by
  cases i <;> rfl

theorem moveOf_setFlags {s : State} {fl : Word32} (mx : Word32) (hac : fl.getLsbD 18 = s.eflags.getLsbD 18)
    (i : Instr) : moveOf (setFlags fl mx s) i = mapNext (setFlags fl mx) (moveOf s i) := by
  unfold moveOf
  cases dirOf i with
  | toReg =>
    rw [readRM_setFlags mx hac, mapNext_bind]
    exact congrArg (Res.bind _) <| funext fun v =>
      congrArg (fun t => Host.Outcome.next (advance t i.ilen)) (loadInto_setFlags fl mx s i v)
  | toRm =>
    rw [writeRM_setFlags mx hac, bind_mapNext, mapNext_bind]
    exact congrArg (Res.bind _) <| funext fun u =>
      congrArg (fun t => Host.Outcome.next (advance t i.ilen)) (afterStore_setFlags fl mx i u)

/-- An instruction commutes with a change of the flags register outside AC and of MXCSR. -/
theorem exec_setFlags {s : State} {fl : Word32} (mx : Word32) (hac : fl.getLsbD 18 = s.eflags.getLsbD 18)
    (i : Instr) : exec i (setFlags fl mx s) = mapNext (setFlags fl mx) (exec i s) := by
  rw [exec_eq, exec_eq, gateOf_setFlags, mapNext_bind, moveOf_setFlags mx hac]

/-- Settles O60: an instruction keeps the two registers, and commutes with a change of them. -/
theorem resultsDoNotDependOnFlags : Obligations.ResultsDoNotDependOnFlags := by
  refine fun i s fl mx hac => ⟨fun t ht => ?_, exec_setFlags mx hac i⟩
  obtain ⟨hmxcsr, heflags, -⟩ := exec_sameControl ht
  exact ⟨heflags, hmxcsr⟩

end Sys2Proof.Machine
end

section
/-! SUPPORT. The exceptions of Translate, and the accesses that answer them (20_memory.md R56 to R61). -/

namespace Sys2Proof.Machine

/-! ## The faults of Translate -/

/-- Translate faults in four ways, each where no earlier one applies: the segment level, the platform's table, its
faulting regions, the alignment check (60_exceptions.md R184). -/
theorem translate_eq_fault {s : State} {seg : Seg} {off : Word64} {n : Nat} {k : Access} {f : Fault} :
    translate s seg off n k = .fault f ↔
      (segAdmits s seg off n k = false ∧ segFault s seg s.rip = f) ∨
      (segAdmits s seg off n k = true ∧
        ((∃ x, accessException s seg off n k = some x ∧ ruleFault x s.rip = f) ∨
        (accessException s seg off n k = none ∧
          ((∃ p, pageFault s (linear s seg off) n k = some p ∧ .pf s.rip p.1 p.2 = f) ∨
          (pageFault s (linear s seg off) n k = none ∧ alignFault s (linear s seg off) n = true ∧
            .ac s.rip = f))))) := by
  unfold translate raise
  cases segAdmits s seg off n k with
  | false => simp
  | true =>
  cases accessException s seg off n k with
  | some x => simp
  | none =>
  cases pageFault s (linear s seg off) n k with
  | some p => simp
  | none => cases alignFault s (linear s seg off) n <;> simp

/-! ## The alignment check (20_memory.md R54, R56) -/

theorem segFault_ne_ac (s : State) (seg : Seg) (ip : Word64) : segFault s seg ip ≠ .ac ip := by
  unfold segFault
  split <;> exact Fault.noConfusion

theorem ruleFault_ne_ac (x : AccessException) (ip : Word64) : ruleFault x ip ≠ .ac ip := by
  cases x <;> exact Fault.noConfusion

/-- Only the alignment check raises #AC. -/
theorem alignFault_of_translate_ac {s : State} {seg : Seg} {off : Word64} {n : Nat} {k : Access}
    (h : translate s seg off n k = .fault (.ac s.rip)) : alignFault s (linear s seg off) n = true := by
  rcases translate_eq_fault.mp h with ⟨-, hf⟩ | ⟨-, ⟨x, -, hf⟩ | ⟨-, ⟨p, -, hf⟩ | ⟨-, halign, -⟩⟩⟩
  · exact absurd hf (segFault_ne_ac s seg s.rip)
  · exact absurd hf (ruleFault_ne_ac x s.rip)
  · cases hf
  · exact halign

theorem alignFault_eq_true {s : State} {la : Word64} {n : Nat} :
    alignFault s la n = true ↔ s.alignCheck = true ∧ la.toNat % n ≠ 0 := by
  simp [alignFault]

/-- Settles O31: the alignment check is the last of Translate's checks, and the only one that answers #AC. -/
theorem alignmentCheckRaisesAC : Obligations.AlignmentCheckRaisesAC := by
  refine fun s seg off w k => ⟨rfl, fun hcheck hseg hrule hpage hmis => ?_, fun hcheck h => ?_, fun hal h => ?_⟩
  · have halign := alignFault_eq_true.mpr ⟨hcheck, hmis⟩
    exact translate_eq_fault.mpr (.inr ⟨hseg, .inr ⟨hrule, .inr ⟨hpage, halign, rfl⟩⟩⟩)
  · have hon := (alignFault_eq_true.mp (alignFault_of_translate_ac h)).1
    exact Bool.false_ne_true (hcheck.symm.trans hon)
  · exact (alignFault_eq_true.mp (alignFault_of_translate_ac h)).2 hal

/-! ## The segment level (20_memory.md R59) -/

/-- What the segment level keeps out gets its fault, before anything else. -/
theorem translate_of_not_segAdmits {s : State} {seg : Seg} {off : Word64} {n : Nat} {k : Access}
    (h : segAdmits s seg off n k = false) : translate s seg off n k = .fault (segFault s seg s.rip) :=
  translate_eq_fault.mpr (.inl ⟨h, rfl⟩)

/-- Outside real-address and virtual-8086 mode the segment level raises #SS(0) through SS, otherwise #GP(0). -/
theorem segFault_protected {s : State} (h : s.inRealOrV86 = false) (seg : Seg) (ip : Word64) :
    segFault s seg ip = if seg = .ss then .ss ip else .gp ip := by
  simp only [segFault, h, and_true]
  split <;> rfl

/-- In real-address and virtual-8086 mode the segment level raises #GP(0) through every segment. -/
theorem segFault_real {s : State} (h : s.inRealOrV86 = true) (seg : Seg) (ip : Word64) :
    segFault s seg ip = .gp ip := by
  simp [segFault, h]

theorem inRealOrV86_m64 {s : State} (h : s.mode = .m64) : s.inRealOrV86 = false := by
  simp [State.inRealOrV86, h]

theorem inRealOrV86_m32 {s : State} (h : s.mode = .m32) : s.inRealOrV86 = s.realOrV86 := by
  simp [State.inRealOrV86, h]

/-- In M64 one non-canonical byte is enough. -/
theorem segAdmits_m64_of_not_canonical {s : State} {seg : Seg} {off : Word64} {n j : Nat} {k : Access}
    (hm : s.mode = .m64) (hj : j < n)
    (hc : canonical s.plat.vaBits (linear s seg off + BitVec.ofNat 64 j) = false) :
    segAdmits s seg off n k = false := by
  simp only [segAdmits, hm, canonicalSpan, List.all_eq_false, List.mem_range, Bool.not_eq_true]
  exact ⟨j, hj, hc⟩

/-- In real-address and virtual-8086 mode no byte may pass FFFFH. -/
theorem segAdmits_real_of_past_end {s : State} {seg : Seg} {off : Word64} {n : Nat} {k : Access}
    (hm : s.mode = .m32) (hr : s.realOrV86 = true) (h : 0xFFFF < off.toNat + (n - 1)) (hn : 0 < n) :
    segAdmits s seg off n k = false := by
  simp only [segAdmits, hm, hr, decide_eq_false_iff_not]
  omega

/-- In the rest of M32 no byte may pass the limit. -/
theorem segAdmits_m32_of_past_limit {s : State} {seg : Seg} {off : Word64} {n : Nat} {k : Access}
    (hm : s.mode = .m32) (hr : s.realOrV86 = false)
    (h : (s.segs.get seg).limit.toNat < off.toNat + (n - 1)) (hn : 0 < n) : segAdmits s seg off n k = false := by
  have hlimit : ¬off.toNat + n ≤ (s.segs.get seg).limit.toNat + 1 := by omega
  simp only [segAdmits, hm, hr, hlimit, decide_false, Bool.false_and]

/-- In the rest of M32 the segment must have the right the access needs. -/
theorem segAdmits_m32_of_no_right {s : State} {seg : Seg} {off : Word64} {n : Nat} {k : Access}
    (hm : s.mode = .m32) (hr : s.realOrV86 = false)
    (h : (k = .read ∧ (s.segs.get seg).readable = false) ∨ (k = .write ∧ (s.segs.get seg).writable = false)) :
    segAdmits s seg off n k = false := by
  obtain ⟨rfl, hright⟩ | ⟨rfl, hright⟩ := h <;> simp only [segAdmits, hm, hr, hright, Bool.and_false]

theorem bytes_pos (w : Width) : 0 < w.bytes := by cases w <;> decide

/-- Settles O32: in each mode the access is one that the segment level keeps out, and the mode says which fault
that is. -/
theorem illegalAddressesRaiseSSOrGP : Obligations.IllegalAddressesRaiseSSOrGP := by
  refine fun s seg off w k => ⟨fun hm ⟨j, hj, hc⟩ => ?_, fun hm hr h => ?_, fun hm hr h => ?_, fun hm hr h => ?_⟩
  · rw [translate_of_not_segAdmits (segAdmits_m64_of_not_canonical hm hj hc), segFault_protected (inRealOrV86_m64 hm)]
  · rw [translate_of_not_segAdmits (segAdmits_real_of_past_end hm hr h (bytes_pos w)),
      segFault_real ((inRealOrV86_m32 hm).trans hr)]
  · rw [translate_of_not_segAdmits (segAdmits_m32_of_past_limit hm hr h (bytes_pos w)),
      segFault_protected ((inRealOrV86_m32 hm).trans hr)]
  · rw [translate_of_not_segAdmits (segAdmits_m32_of_no_right hm hr h),
      segFault_protected ((inRealOrV86_m32 hm).trans hr)]

end Sys2Proof.Machine
end

section
/-! SUPPORT. When the gate of each family passes, and how an instruction past its gate answers what stops its memory
operand (20_memory.md R60, R61, R63, R70). -/

namespace Sys2Proof.Machine

/-! ## Past the gate -/

/-- Nothing the instruction's gate checks applies: `exec_move`'s premises in one. -/
structure GatePasses (s : State) (i : Instr) : Prop where
  fits : IpFits s i.ilen
  ud : udOf s i = false
  ts : s.cr0TS = false
  mf : mfOf s i = false
  no : noOf s i = none

theorem GatePasses.exec_eq_moveOf {s : State} {i : Instr} (h : GatePasses s i) : exec i s = moveOf s i :=
  exec_move h.fits h.ud h.ts h.mf h.no

/-! ## The gate of each family (60_exceptions.md R177 to R180) -/

theorem MmxReady.udMmx_eq_false {s : State} {pre : List PrefixItem} (h : MmxReady s pre) : udMmx s pre = false := by
  obtain ⟨hlock, hfeature, hem, -⟩ := h
  simp [udMmx, hlock, hfeature, hem]

theorem Sse2Ready.udSse2_eq_false {s : State} {pre : List PrefixItem} (h : Sse2Ready s pre) :
    udSse2 s pre = false := by
  obtain ⟨hlock, hfeature, hem, hfx, -⟩ := h
  simp [udSse2, hlock, hfeature, hem, hfx]

theorem VexReady.udVex_eq_false {s : State} {pre : List PrefixItem} {l : Bool} {vvvv : BitVec 4}
    (h : VexReady s pre l vvvv) : udVex s pre l vvvv = false := by
  obtain ⟨hbad, hfeature, hreal, hxsave, hxcr, -, hl, hv, -⟩ := h
  simp [udVex, hbad, hfeature, hreal, hxsave, hxcr, hl, hv]

theorem EvexReady.udEvex_eq_false {s : State} {pre : List PrefixItem} {e : Evex} {m : ModRM}
    (h : EvexReady s pre e m) : udEvex s pre e = false := by
  obtain ⟨hbad, hfeature, hreal, hxsave, hxcr, hxcr512, -, ⟨hv, hll, haaa, hz, hbc, hvBar⟩, -⟩ := h
  simp [udEvex, evexFieldsOk, hbad, hfeature, hreal, hxsave, hxcr, hxcr512, hv, hll, haaa, hz, hbc, hvBar]

theorem VexReady.ts {s : State} {pre : List PrefixItem} {l : Bool} {vvvv : BitVec 4} (h : VexReady s pre l vvvv) :
    s.cr0TS = false := by
  obtain ⟨-, -, -, -, -, hts, -⟩ := h
  exact hts

theorem EvexReady.ts {s : State} {pre : List PrefixItem} {e : Evex} {m : ModRM} (h : EvexReady s pre e m) :
    s.cr0TS = false := by
  obtain ⟨-, -, -, -, -, -, hts, -⟩ := h
  exact hts

theorem VexReady.refuseVex2_eq_none {s : State} {pre : List PrefixItem} {l : Bool} {vvvv : BitVec 4}
    (h : VexReady s pre l vvvv) : refuseVex2 s pre = none := by
  obtain ⟨-, -, -, -, -, -, -, -, ha16⟩ := h
  simp [refuseVex2, addr16, ha16]

theorem Vex3Ready.refuseVex3_eq_none {s : State} {pre : List PrefixItem} {v : Vex3} (h : Vex3Ready s pre v) :
    refuseVex3 s pre v = none := by
  obtain ⟨⟨-, -, -, -, -, -, -, -, ha16⟩, hb⟩ := h
  have hb32 : ¬(s.mode = .m32 ∧ v.b = true) := fun ⟨hm, ht⟩ => Bool.false_ne_true ((hb hm).symm.trans ht)
  simp [refuseVex3, addr16, ha16, hb32]

theorem EvexReady.refuseEvex_eq_none {s : State} {pre : List PrefixItem} {e : Evex} {m : ModRM}
    (h : EvexReady s pre e m) : refuseEvex s pre e m = none := by
  obtain ⟨-, -, -, -, -, -, -, -, ha16, hext, hx, hdisp⟩ := h
  have hext32 : ¬(s.mode = .m32 ∧ (e.b = true ∨ e.r' = true)) := fun ⟨hm, ht⟩ => by simp [hext hm] at ht
  have hregX : ¬(rmIsReg m.rm = true ∧ e.x = true) := fun ⟨hr, ht⟩ => by simp [hx hr] at ht
  have hdisp8 : ¬(s.mode = .m32 ∧ e.w = true ∧ rmIsDisp8 m.rm = true) := fun ⟨hm, hw, ht⟩ => by
    simp [hdisp hm hw] at ht
  simp only [refuseEvex, if_neg hext32, if_neg hregX, if_neg hdisp8, addr16, ha16, decide_false, Bool.false_eq_true,
    if_false]

theorem refuseQuadInM32_dword (s : State) : refuseQuadInM32 .dword s = none := rfl

theorem refuseQuadInM32_m64 {s : State} (w : Width) (hm : s.mode = .m64) : refuseQuadInM32 w s = none := by
  simp [refuseQuadInM32, hm]

/-- Rows 1 to 4 pass their gate when the state is ready and the encoding is not refused. -/
theorem MmxReady.gatePasses {s : State} {i : Instr} {pre : List PrefixItem} (h : MmxReady s pre)
    (hfit : IpFits s i.ilen) (hud : udOf s i = udMmx s pre) (hno : noOf s i = none) : GatePasses s i := by
  have hud' := hud.trans h.udMmx_eq_false
  obtain ⟨-, -, -, hts, hpending⟩ := h
  exact ⟨hfit, hud', hts, by rw [mfOf, hpending, Bool.and_false], hno⟩

/-- Rows 5 to 8 pass their gate when the state is ready and the encoding is not refused. -/
theorem Sse2Ready.gatePasses {s : State} {i : Instr} {pre : List PrefixItem} (h : Sse2Ready s pre)
    (hfit : IpFits s i.ilen) (hud : udOf s i = udSse2 s pre) (hmf : isMmxRow i = false) (hno : noOf s i = none) :
    GatePasses s i := by
  have hud' := hud.trans h.udSse2_eq_false
  obtain ⟨-, -, -, -, hts⟩ := h
  exact ⟨hfit, hud', hts, by rw [mfOf, hmf, Bool.false_and], hno⟩

theorem Vex3Ready.gatePasses {s : State} {i : Instr} {pre : List PrefixItem} {v : Vex3} {m : ModRM}
    (h : Vex3Ready s pre v) (hfit : IpFits s (vex3Len pre m)) (hi : i ∈ vex3Rows pre v m) : GatePasses s i := by
  have hud := h.1.udVex_eq_false
  have hno := h.refuseVex3_eq_none
  simp only [vex3Rows, List.mem_cons, List.not_mem_nil, or_false] at hi
  obtain rfl | rfl | rfl | rfl := hi <;> exact ⟨hfit, hud, h.1.ts, rfl, hno⟩

theorem VexReady.gatePasses {s : State} {i : Instr} {pre : List PrefixItem} {v : Vex2} {m : ModRM}
    (h : VexReady s pre v.l v.vvvv) (hfit : IpFits s (vex2Len pre m)) (hi : i ∈ vex2Rows pre v m) :
    GatePasses s i := by
  have hud := h.udVex_eq_false
  have hno := h.refuseVex2_eq_none
  simp only [vex2Rows, List.mem_cons, List.not_mem_nil, or_false] at hi
  obtain rfl | rfl := hi <;> exact ⟨hfit, hud, h.ts, rfl, hno⟩

theorem EvexReady.gatePasses {s : State} {i : Instr} {pre : List PrefixItem} {e : Evex} {m : ModRM}
    (h : EvexReady s pre e m) (hfit : IpFits s (evexLen pre m)) (hi : i ∈ evexRows pre e m) : GatePasses s i := by
  have hud := h.udEvex_eq_false
  have hno := h.refuseEvex_eq_none
  simp only [evexRows, List.mem_cons, List.not_mem_nil, or_false] at hi
  obtain rfl | rfl | rfl | rfl := hi <;> exact ⟨hfit, hud, h.ts, rfl, hno⟩

/-! ## Every family at once -/

/-- The access an instruction makes to a memory operand: a loading row reads, a storing row writes. -/
def accessOf (i : Instr) : Access :=
  match dirOf i with
  | .toReg => .read
  | .toRm => .write

theorem w1Width_m64 {mode : Mode} (h : mode = .m64) : w1Width mode = .qword := by rw [h]; rfl

/-- In M64 a W1 row moves a quadword, so what holds of a quadword holds of the row's width. -/
theorem w1Width_of_m64 {mode : Mode} {P : Width → Prop} (hm : mode = .m64) (h : P .qword) : P (w1Width mode) := by
  rwa [w1Width_m64 hm]

/-- What holds of every instruction past its gate holds of the rows of every family. -/
theorem rowsAnswer_of_gatePasses {Stop : Width → RmArgs → Access → Prop} {s : State} {out : Res State}
    (h : ∀ i, GatePasses s i → Stop (widthOf s i) (argsOf s i) (accessOf i) → exec i s = out) :
    RowsAnswer Stop s out := by
  have hdword := refuseQuadInM32_dword s
  have hqword := refuseQuadInM32_m64 (s := s) .qword
  refine ⟨fun pre m hfit hr => ?_, fun pre m hfit hr => ?_, fun pre v m hfit hr => ?_, fun pre v m hfit hr => ?_,
    fun pre e m hfit hr => ?_⟩
  · exact ⟨h (.movdMmRm32 pre m) (hr.gatePasses hfit rfl hdword),
      h (.movdRm32Mm pre m) (hr.gatePasses hfit rfl hdword),
      fun hm => h (.movqMmRm64 pre m) (hr.gatePasses hfit rfl (hqword hm)),
      fun hm => h (.movqRm64Mm pre m) (hr.gatePasses hfit rfl (hqword hm))⟩
  · exact ⟨h (.movdXmmRm32 pre m) (hr.gatePasses hfit rfl rfl hdword),
      h (.movdRm32Xmm pre m) (hr.gatePasses hfit rfl rfl hdword),
      fun hm => h (.movqXmmRm64 pre m) (hr.gatePasses hfit rfl rfl (hqword hm)),
      fun hm => h (.movqRm64Xmm pre m) (hr.gatePasses hfit rfl rfl (hqword hm))⟩
  · have hgate (i : Instr) (hi : i ∈ vex3Rows pre v m) := h i (hr.gatePasses hfit hi)
    exact ⟨hgate (.vmovdXmmRm32C4 pre v m) (by simp [vex3Rows]), hgate (.vmovdRm32XmmC4 pre v m) (by simp [vex3Rows]),
      fun hm hs => hgate (.vmovqXmmRm64Vex pre v m) (by simp [vex3Rows])
        (w1Width_of_m64 (P := fun w => Stop w (vex3Args pre v m) .read) hm hs),
      fun hm hs => hgate (.vmovqRm64XmmVex pre v m) (by simp [vex3Rows])
        (w1Width_of_m64 (P := fun w => Stop w (vex3Args pre v m) .write) hm hs)⟩
  · exact ⟨h (.vmovdXmmRm32C5 pre v m) (hr.gatePasses hfit (by simp [vex2Rows])),
      h (.vmovdRm32XmmC5 pre v m) (hr.gatePasses hfit (by simp [vex2Rows]))⟩
  · have hgate (i : Instr) (hi : i ∈ evexRows pre e m) := h i (hr.gatePasses hfit hi)
    exact ⟨hgate (.vmovdXmmRm32Evex pre e m) (by simp [evexRows]),
      hgate (.vmovdRm32XmmEvex pre e m) (by simp [evexRows]),
      fun hm hs => hgate (.vmovqXmmRm64Evex pre e m) (by simp [evexRows])
        (w1Width_of_m64 (P := fun w => Stop w (evexArgs pre e m w) .read) hm hs),
      fun hm hs => hgate (.vmovqRm64XmmEvex pre e m) (by simp [evexRows])
        (w1Width_of_m64 (P := fun w => Stop w (evexArgs pre e m w) .write) hm hs)⟩

/-! ## What Translate raises -/

theorem readRM_of_translate_fault {w : Width} {s : State} {a : RmArgs} {f : Fault} (hr : rmIsReg a.rm = false)
    (h : translate s (operandSeg s.mode a) (effAddr s a) w.bytes .read = .fault f) : readRM w s a = .fault f := by
  rw [readRM_mem hr, memRead, h, bind_fault]

theorem writeRM_of_translate_fault {w : Width} {s : State} {a : RmArgs} {f : Fault} (hr : rmIsReg a.rm = false)
    (h : translate s (operandSeg s.mode a) (effAddr s a) w.bytes .write = .fault f) (v : BitVec w.bits) :
    writeRM w s a v = .fault f := by
  rw [writeRM_mem hr, memWrite, h, bind_fault]

/-- Past its gate an instruction answers the fault of its memory operand. -/
theorem GatePasses.exec_of_operandFaults {s : State} {i : Instr} {f : Fault} (h : GatePasses s i)
    (hf : OperandFaults (widthOf s i) s (argsOf s i) (accessOf i) f) : exec i s = .fault f := by
  obtain ⟨hr, ht⟩ := hf
  rw [h.exec_eq_moveOf, moveOf]
  cases hd : dirOf i with
  | toReg =>
    rw [accessOf, hd] at ht
    simp only [readRM_of_translate_fault hr ht, bind_fault]
  | toRm =>
    rw [accessOf, hd] at ht
    simp only [writeRM_of_translate_fault hr ht, bind_fault]

/-- The platform's table comes right after the segment level. -/
theorem translate_of_accessException {s : State} {seg : Seg} {off : Word64} {n : Nat} {k : Access}
    {x : AccessException} (hseg : segAdmits s seg off n k = true) (h : accessException s seg off n k = some x) :
    translate s seg off n k = .fault (ruleFault x s.rip) :=
  translate_eq_fault.mpr (.inr ⟨hseg, .inl ⟨x, h, rfl⟩⟩)

/-- The platform's faulting regions come after its table and before the alignment check. -/
theorem translate_of_pageFault {s : State} {seg : Seg} {off addr : Word64} {n : Nat} {k : Access} {code : Word32}
    (hseg : segAdmits s seg off n k = true) (hrule : accessException s seg off n k = none)
    (h : pageFault s (linear s seg off) n k = some (code, addr)) :
    translate s seg off n k = .fault (.pf s.rip code addr) :=
  translate_eq_fault.mpr (.inr ⟨hseg, .inr ⟨hrule, .inl ⟨(code, addr), h, rfl⟩⟩⟩)

/-- Settles O33: an access starts with Translate, and past the gate an instruction with its access. -/
theorem accessesRaiseWhatTranslateRaises : Obligations.AccessesRaiseWhatTranslateRaises := by
  refine ⟨fun w s a f hr => ⟨readRM_of_translate_fault hr, writeRM_of_translate_fault hr⟩, fun w s seg off k hseg => ?_,
    fun s f => rowsAnswer_of_gatePasses fun i hg => hg.exec_of_operandFaults⟩
  exact ⟨translate_of_accessException hseg, translate_of_accessException hseg,
    fun _ _ => translate_of_accessException hseg, fun _ _ => translate_of_pageFault hseg⟩

/-! ## What is refused -/

theorem readRM_of_device {w : Width} {s : State} {a : RmArgs} {la : Word64} (hr : rmIsReg a.rm = false)
    (ht : translate s (operandSeg s.mode a) (effAddr s a) w.bytes .read = .next la)
    (hd : touchesDevice s la w.bytes = true) : readRM w s a = .refused .notWriteBack := by
  rw [readRM_mem hr, memRead, ht, bind_next, if_pos hd]

theorem writeRM_of_device {w : Width} {s : State} {a : RmArgs} {la : Word64} (hr : rmIsReg a.rm = false)
    (ht : translate s (operandSeg s.mode a) (effAddr s a) w.bytes .write = .next la)
    (hd : touchesDevice s la w.bytes = true) (v : BitVec w.bits) : writeRM w s a v = .refused .notWriteBack := by
  rw [writeRM_mem hr, memWrite, ht, bind_next, if_pos hd]

theorem writeRM_of_program {w : Width} {s : State} {a : RmArgs} {la : Word64} (hr : rmIsReg a.rm = false)
    (ht : translate s (operandSeg s.mode a) (effAddr s a) w.bytes .write = .next la)
    (hd : touchesDevice s la w.bytes = false) (hp : touchesProgram s la w.bytes = true) (v : BitVec w.bits) :
    writeRM w s a v = .refused .storeToProgram := by
  rw [writeRM_mem hr, memWrite, ht, bind_next, hd, if_neg Bool.false_ne_true, if_pos hp]

theorem readRM_of_operandRefused {w : Width} {s : State} {a : RmArgs} {r : Refusal}
    (h : OperandRefused w s a .read r) : readRM w s a = .refused r := by
  obtain ⟨hr, la, ht, ⟨hd, rfl⟩ | ⟨-, hk, -⟩⟩ := h
  · exact readRM_of_device hr ht hd
  · cases hk

theorem writeRM_of_operandRefused {w : Width} {s : State} {a : RmArgs} {r : Refusal}
    (h : OperandRefused w s a .write r) (v : BitVec w.bits) : writeRM w s a v = .refused r := by
  obtain ⟨hr, la, ht, ⟨hd, rfl⟩ | ⟨hd, -, hp, rfl⟩⟩ := h
  · exact writeRM_of_device hr ht hd v
  · exact writeRM_of_program hr ht hd hp v

/-- Past its gate an instruction answers the refusal of its memory operand. -/
theorem GatePasses.exec_of_operandRefused {s : State} {i : Instr} {r : Refusal} (h : GatePasses s i)
    (ho : OperandRefused (widthOf s i) s (argsOf s i) (accessOf i) r) : exec i s = .refused r := by
  rw [h.exec_eq_moveOf, moveOf]
  cases hd : dirOf i with
  | toReg =>
    rw [accessOf, hd] at ho
    simp only [readRM_of_operandRefused ho, bind_refused]
  | toRm =>
    rw [accessOf, hd] at ho
    simp only [writeRM_of_operandRefused ho, bind_refused]

/-- Settles O35: an admitted access answers its refusal, and past the gate an instruction answers its access's. -/
theorem storesToProgramAndDevicesAreRefused : Obligations.StoresToProgramAndDevicesAreRefused := by
  refine ⟨fun w s a la hr => ⟨fun ht => ⟨?_, ?_⟩, ?_⟩, fun s r => ?_⟩
  · exact writeRM_of_device hr ht
  · exact writeRM_of_program hr ht
  · exact readRM_of_device hr
  · exact rowsAnswer_of_gatePasses fun i hg => hg.exec_of_operandRefused

end Sys2Proof.Machine
end

section
/-! SUPPORT. What an instruction does to memory: a loading row nothing, a storing row with a memory destination its
operand's bytes and no other, none of them of the program (20_memory.md R50, R53, R57, R70). -/

namespace Sys2Proof.Machine

/-! ## A quadword and its halves -/

/-- The four bytes from `la + 4` on are the fifth to eighth from `la` on, also where the address wraps. -/
theorem byteAddr_add_four (mode : Mode) (la : Word64) (k : Nat) :
    byteAddr mode (la + 4) k = byteAddr mode la (4 + k) := by
  have hadd : (la + 4).toNat = (la.toNat + 4) % 2 ^ 64 := BitVec.toNat_add la 4
  cases mode <;> simp only [byteAddr, hadd] <;> omega

/-- Byte `k` of the doubleword that starts at byte `j` of a quadword is byte `j + k` of the quadword. -/
theorem extractLsb'_byte_of_half (v : BitVec 64) {j k : Nat} (hk : k < 4) :
    (v.extractLsb' (8 * j) 32).extractLsb' (8 * k) 8 = v.extractLsb' (8 * (j + k)) 8 := by
  apply BitVec.eq_of_getLsbD_eq
  intro i hi
  have hlt : 8 * k + i < 32 := by omega
  simp only [BitVec.getLsbD_extractLsb', hi, hlt, decide_true, Bool.true_and, Nat.mul_add, Nat.add_assoc]

/-- A doubleword read at four of a stored quadword's bytes gives those bytes of it. -/
theorem loadLE_of_storedAt {s : State} {la la' : Word64} {v : BitVec 64} {m : Memory} {j : Nat}
    (hst : StoredAt .qword s la v m) (hj : j ≤ 4) (haddr : ∀ k, byteAddr s.mode la' k = byteAddr s.mode la (j + k)) :
    loadLE (setMem s m) la' .dword = v.extractLsb' (8 * j) 32 := by
  refine eq_of_bytes (w := .dword) fun k hk => ?_
  have hk4 : k < 4 := hk
  have hjk : j + k < Width.bytes .qword := by rw [qword_bytes]; omega
  rw [loadLE_byte _ _ _ _ hk, setMem_mem, setMem_mode, haddr]
  exact (hst.1 (j + k) hjk).trans (extractLsb'_byte_of_half v hk4).symm

/-- Settles O34: the store leaves the quadword's eight bytes, four from `la` on and four from `la + 4` on. -/
theorem quadwordStoreReadAsDoublewords : Obligations.QuadwordStoreReadAsDoublewords := by
  intro s la v
  have hst := storedAt_writeAll .qword s la v
  exact ⟨loadLE_of_storedAt (j := 0) hst (by decide) fun k => by rw [Nat.zero_add],
    loadLE_of_storedAt (j := 4) hst (by decide) (byteAddr_add_four s.mode la)⟩

/-! ## What the move does outside memory -/

theorem loadInto_mem (s : State) (i : Instr) (v : BitVec (widthOf s i).bits) : (loadInto s i v).mem = s.mem := by
  unfold loadInto
  split
  · rfl
  · split <;> rfl

@[simp] theorem afterStore_mem (i : Instr) (t : State) : (afterStore i t).mem = t.mem := by
  unfold afterStore; split <;> rfl

@[simp] theorem afterStore_gpr (i : Instr) (t : State) : (afterStore i t).gpr = t.gpr := by
  unfold afterStore; split <;> rfl

@[simp] theorem afterStore_vec (i : Instr) (t : State) : (afterStore i t).vec = t.vec := by
  unfold afterStore; split <;> rfl

@[simp] theorem afterStore_x87 (i : Instr) (t : State) : (afterStore i t).x87 = t.x87 := by
  unfold afterStore; split <;> rfl

theorem afterStore_of_not_mmxRow {i : Instr} (hi : isMmxRow i = false) (t : State) : afterStore i t = t := by
  simp [afterStore, hi]

/-! ## The program's bytes -/

theorem not_isProgramByte_of_inOperand {s : State} {la : Word64} {w : Width} {x : Nat}
    (h : touchesProgram s la w.bytes = false) (hx : InOperand s la w x) : isProgramByte s x = false := by
  obtain ⟨k, hk, rfl⟩ := hx
  simp only [touchesProgram, List.any_eq_false, List.mem_range, Bool.not_eq_true] at h
  exact h k hk

/-- A write of the r/m operand that completes leaves the program's bytes. -/
theorem writeRM_keeps_program_bytes {w : Width} {s t : State} {a : RmArgs} {v : BitVec w.bits}
    (ht : writeRM w s a v = .next t) {x : Nat} (hx : isProgramByte s x = true) : t.mem.read x = s.mem.read x := by
  obtain ⟨r, -, rfl⟩ | ⟨-, hadm, rfl⟩ := writeRM_eq_next ht
  · rfl
  · refine (storedAt_writeAll w s (operandAddr s a) v).2 x fun hin => ?_
    have hno := not_isProgramByte_of_inOperand (hadm.notProgram rfl) hin
    exact Bool.false_ne_true (hno.symm.trans hx)

theorem exec_keeps_program_bytes {i : Instr} {s t : State} (h : exec i s = .next t) {x : Nat}
    (hx : isProgramByte s x = true) : t.mem.read x = s.mem.read x := by
  obtain ⟨-, hmove⟩ := exec_eq_next.mp h
  obtain ⟨-, v, -, rfl⟩ | ⟨-, u, hu, rfl⟩ := moveOf_eq_next hmove
  · rw [advance_mem, loadInto_mem]
  · rw [advance_mem, afterStore_mem, writeRM_keeps_program_bytes hu hx]

/-- Settles O15: a completed step is a completed instruction, and no store of one touches the program. -/
theorem stepKeepsProgramBytes : Obligations.StepKeepsProgramBytes := by
  intro s t hs a ha
  obtain ⟨i, _, -, ht⟩ := step_eq_next.mp hs
  exact exec_keeps_program_bytes ht ha

/-! ## Stores to memory -/

theorem argsOf_rm (s : State) (i : Instr) : (argsOf s i).rm = i.modrm.rm := by cases i <;> rfl

/-- A completed store to memory has stored the instruction's value at its operand's address, and done what the row does
besides. -/
theorem exec_memStore_eq {i : Instr} {s t : State} (h : exec i s = .next t) (hr : rmIsReg i.modrm.rm = false)
    (hd : dirOf i = .toRm) :
    ∃ m, StoredAt (widthOf s i) s (operandAddr s (argsOf s i)) (storedValue s i) m ∧
      t = advance (afterStore i (setMem s m)) i.ilen := by
  obtain ⟨-, hmove⟩ := exec_eq_next.mp h
  obtain ⟨hload, -⟩ | ⟨-, u, hu, rfl⟩ := moveOf_eq_next hmove
  · cases hd.symm.trans hload
  obtain ⟨r, hreg, -⟩ | ⟨-, -, rfl⟩ := writeRM_eq_next hu
  · rw [← argsOf_rm s i, hreg] at hr
    cases hr
  · exact ⟨_, storedAt_writeAll _ s _ _, rfl⟩

section
variable {i : Instr} {s t : State} {w : Width} {a : RmArgs} (h : exec i s = .next t) (hr : rmIsReg i.modrm.rm = false)
  (hd : dirOf i = .toRm) (hw : widthOf s i = w) (ha : argsOf s i = a)
include h hr hd hw ha

/-- A completed store to memory leaves the registers, and the bytes outside the operand. -/
theorem exec_memStore_frame : t.gpr = s.gpr ∧ t.vec = s.vec ∧ t.x87 = s.x87 ∧
    ∀ x, ¬ InOperand s (operandAddr s a) w x → t.mem.read x = s.mem.read x := by
  obtain ⟨m, hst, rfl⟩ := exec_memStore_eq h hr hd
  subst hw ha
  refine ⟨by simp, by simp, by simp, fun x hx => ?_⟩
  rw [advance_mem, afterStore_mem, setMem_mem, hst.2 x hx]

/-- The frame of rows 3 and 4. -/
theorem exec_mmxMemStore_frame (hi : isMmxRow i = true) : SameControl s t ∧ t.gpr = s.gpr ∧ t.vec = s.vec ∧
    t.x87 = s.x87 ∧ t.x87Top = 0 ∧ t.x87Tags = 0 ∧
    ∀ x, ¬ InOperand s (operandAddr s a) w x → t.mem.read x = s.mem.read x := by
  obtain ⟨hgpr, hvec, hx87, hmem⟩ := exec_memStore_frame h hr hd hw ha
  obtain ⟨htop, htags⟩ := exec_touches_x87 hi h
  exact ⟨exec_sameControl h, hgpr, hvec, hx87, htop, htags, hmem⟩

/-- The frame of the storing rows outside the MMX rows, which leave the x87 state too. -/
theorem exec_vecMemStore_frame (hi : isMmxRow i = false) : SameControl s t ∧ t.gpr = s.gpr ∧ t.vec = s.vec ∧
    SameX87 s t ∧ ∀ x, ¬ InOperand s (operandAddr s a) w x → t.mem.read x = s.mem.read x := by
  obtain ⟨hgpr, hvec, -, hmem⟩ := exec_memStore_frame h hr hd hw ha
  obtain ⟨m, -, rfl⟩ := exec_memStore_eq h hr hd
  refine ⟨exec_sameControl h, hgpr, hvec, ?_, hmem⟩
  rw [afterStore_of_not_mmxRow hi]
  exact ⟨rfl, rfl, rfl⟩

end

/-- Settles O57: each row is a doubleword store, by the frame of its family. -/
theorem doublewordMemoryStoresFrame : Obligations.DoublewordMemoryStoresFrame := by
  refine ⟨fun pre m s t hr h => ?_, fun pre m s t hr h => ?_, fun pre v m s t hr h => ?_, fun pre v m s t hr h => ?_,
    fun pre e m s t hr h => ?_⟩
  · exact exec_mmxMemStore_frame h hr rfl rfl rfl rfl
  all_goals exact exec_vecMemStore_frame h hr rfl rfl rfl rfl

/-- Settles O58: each row is a quadword store, by the frame of its family; rows 12 and 16 are so in M64. -/
theorem quadwordMemoryStoresFrame : Obligations.QuadwordMemoryStoresFrame := by
  refine ⟨fun pre m s t hr h => ?_, fun pre m s t hr h => ?_, fun pre v m s t hm hr h => ?_,
    fun pre e m s t hm hr h => ?_⟩
  · exact exec_mmxMemStore_frame h hr rfl rfl rfl rfl
  · exact exec_vecMemStore_frame h hr rfl rfl rfl rfl
  · exact exec_vecMemStore_frame h hr rfl (w1Width_m64 hm) rfl rfl
  · exact exec_vecMemStore_frame h hr rfl (w1Width_m64 hm) (congrArg (evexArgs pre e m) (w1Width_m64 hm)) rfl

end Sys2Proof.Machine
end

section
/-! SUPPORT. The encoder on the decoder's answers: in each format, bytes that decode to an instruction are the bytes of
that instruction, which is well formed; and from these the two directions of the round trip. -/

namespace Sys2Proof

/-! ## The opcode byte -/

/-- The opcode byte of a direction (30_encoding.md R83). -/
def Dir.opcode : Dir → Byte
  | .toReg => 0x6E
  | .toRm => 0x7E

theorem opcodeDir_eq_some {op : Byte} {dir : Dir} : opcodeDir op = some dir ↔ op = dir.opcode := by
  constructor
  · intro h
    unfold opcodeDir at h
    split at h
    · next hop => cases h; exact hop
    · split at h
      · next hop => cases h; exact hop
      · cases h
  · rintro rfl
    cases dir <;> rfl

/-! ## The bytes and the well-formedness of the row that is selected -/

theorem encode_legacyRow (pre : List PrefixItem) (dir : Dir) (m : ModRM) :
    encode (legacyRow pre dir m) = encodeLegacy pre dir.opcode m := by
  unfold legacyRow
  cases dir <;> cases hasOpSize pre <;> cases (effectiveRex pre).w <;> rfl

theorem wf_legacyRow (cm : CodeMode) (pre : List PrefixItem) (dir : Dir) (m : ModRM) :
    (legacyRow pre dir m).wf cm = legWf cm (hasOpSize pre) (effectiveRex pre).w pre m := by
  unfold legacyRow
  cases dir <;> cases hasOpSize pre <;> cases (effectiveRex pre).w <;> rfl

theorem encode_vex2Row (pre : List PrefixItem) (v : Vex2) (dir : Dir) (m : ModRM) :
    encode (vex2Row pre v dir m) = encodeVex2 pre v dir.opcode m := by
  cases dir <;> rfl

theorem wf_vex2Row (cm : CodeMode) (pre : List PrefixItem) (v : Vex2) (dir : Dir) (m : ModRM) :
    (vex2Row pre v dir m).wf cm = vex2Wf cm pre v m := by
  cases dir <;> rfl

theorem encode_vex3Row (mode : Mode) (pre : List PrefixItem) (v : Vex3) (dir : Dir) (m : ModRM) :
    encode (vex3Row mode pre v dir m) = encodeVex3 pre v dir.opcode m := by
  rw [vex3Row_eq]
  split <;> rfl

theorem wf_vex3Row (cm : CodeMode) (pre : List PrefixItem) (v : Vex3) (dir : Dir) (m : ModRM) :
    (vex3Row cm.mode pre v dir m).wf cm = vex3Wf cm (decide (cm.mode = .m64) && v.w) pre v m := by
  rw [vex3Row_eq]
  split <;> simp only [Instr.wf, *]

theorem encode_evexRow (mode : Mode) (pre : List PrefixItem) (e : Evex) (dir : Dir) (m : ModRM) :
    encode (evexRow mode pre e dir m) = encodeEvex pre e dir.opcode m := by
  rw [evexRow_eq]
  split <;> rfl

theorem wf_evexRow (cm : CodeMode) (pre : List PrefixItem) (e : Evex) (dir : Dir) (m : ModRM) :
    (evexRow cm.mode pre e dir m).wf cm = evexWf cm (decide (cm.mode = .m64) && e.w) pre e m := by
  rw [evexRow_eq]
  split <;> simp only [Instr.wf, *]

/-! ## What each format answers -/

theorem finish_eq_ok {cm : CodeMode} {pre : List PrefixItem} {bs rest : List Byte} {k : ModRM → Instr} {i : Instr}
    (h : finish cm pre bs k = .ok i rest) : ∃ m, i = k m ∧ m.wf cm pre = true ∧ bs = m.bytes ++ rest := by
  unfold finish at h
  split at h
  · next m r hparse =>
    cases h
    exact ⟨m, rfl, parseModRM_some hparse⟩
  · cases h

section
variable {cm : CodeMode} {pre : List PrefixItem} {bs rest : List Byte} {i : Instr}
  (hp : prefixesWf cm.mode pre = true)
include hp

/-- Format LEG (30_encoding.md R84, R86). -/
theorem encode_of_decodeLegacy (h : decodeLegacy cm pre bs = .ok i rest) :
    i.wf cm = true ∧ prefixBytes pre ++ 0x0F :: bs = encode i ++ rest := by
  unfold decodeLegacy at h
  split at h
  · cases h
  split at h
  · cases h
  next dir hop =>
  split at h
  · cases h
  next hrep =>
  obtain ⟨m, rfl, hm, rfl⟩ := finish_eq_ok h
  obtain rfl := opcodeDir_eq_some.mp hop
  rw [wf_legacyRow, encode_legacyRow]
  exact ⟨legWf_iff.mpr ⟨hp, Bool.eq_false_of_not_eq_true hrep, rfl, rfl, hm⟩, by simp [encodeLegacy]⟩

/-- Format VEX, opened by C5 (30_encoding.md R84, R94). -/
theorem encode_of_decodeVex2 (h : decodeVex2 cm pre bs = .ok i rest) :
    i.wf cm = true ∧ prefixBytes pre ++ 0xC5 :: bs = encode i ++ rest := by
  unfold decodeVex2 at h
  split at h
  · cases h
  next b1 bs =>
  split at h
  · cases h
  next hopens =>
  split at h
  · cases h
  split at h
  · cases h
  next hpp =>
  split at h
  · cases h
  next dir hop =>
  obtain ⟨m, rfl, hm, rfl⟩ := finish_eq_ok h
  obtain rfl := opcodeDir_eq_some.mp hop
  have hb1 : (Vex2.ofByte b1).b1 = b1 := Vex2.b1_ofByte b1 (not_not.mp hpp)
  rw [wf_vex2Row, encode_vex2Row]
  exact ⟨vex2Wf_iff.mpr ⟨hp, by simpa [hb1] using hopens, hm⟩, by simp [encodeVex2, hb1]⟩

/-- Format VEX, opened by C4 (30_encoding.md R84, R95). -/
theorem encode_of_decodeVex3 (h : decodeVex3 cm pre bs = .ok i rest) :
    i.wf cm = true ∧ prefixBytes pre ++ 0xC4 :: bs = encode i ++ rest := by
  unfold decodeVex3 at h
  split at h
  · cases h
  next b1 bs =>
  split at h
  · cases h
  next hopens =>
  split at h
  case h_2 => cases h
  next b2 op bs =>
  split at h
  · cases h
  next hfix =>
  obtain ⟨hmap, hpp⟩ := not_or.mp hfix
  split at h
  · cases h
  next dir hop =>
  obtain ⟨m, rfl, hm, rfl⟩ := finish_eq_ok h
  obtain rfl := opcodeDir_eq_some.mp hop
  have hb1 : (Vex3.ofBytes b1 b2).b1 = b1 := Vex3.b1_ofBytes b1 b2 (not_not.mp hmap)
  have hb2 : (Vex3.ofBytes b1 b2).b2 = b2 := Vex3.b2_ofBytes b1 b2 (not_not.mp hpp)
  rw [wf_vex3Row, encode_vex3Row]
  exact ⟨vex3Wf_iff.mpr ⟨hp, by simpa [hb1] using hopens, rfl, hm⟩, by simp [encodeVex3, hb1, hb2]⟩

/-- Format EVEX (30_encoding.md R84, R97). -/
theorem encode_of_decodeEvex (h : decodeEvex cm pre bs = .ok i rest) :
    i.wf cm = true ∧ prefixBytes pre ++ 0x62 :: bs = encode i ++ rest := by
  unfold decodeEvex at h
  split at h
  · cases h
  next p0 bs =>
  split at h
  · cases h
  next hopens =>
  split at h
  case h_2 => cases h
  next p1 p2 op bs =>
  split at h
  · cases h
  next hfix =>
  obtain ⟨hlow, hone⟩ := not_or.mp hfix
  split at h
  · cases h
  next hpp =>
  split at h
  · cases h
  next dir hop =>
  obtain ⟨m, rfl, hm, rfl⟩ := finish_eq_ok h
  obtain rfl := opcodeDir_eq_some.mp hop
  have hp0 : (Evex.ofBytes p0 p1 p2).p0 = p0 := Evex.p0_ofBytes p0 p1 p2 (not_not.mp hlow)
  have hp1 : (Evex.ofBytes p0 p1 p2).p1 = p1 :=
    Evex.p1_ofBytes p0 p1 p2 (Bool.eq_true_of_not_eq_false hone) (not_not.mp hpp)
  have hp2 : (Evex.ofBytes p0 p1 p2).p2 = p2 := Evex.p2_ofBytes p0 p1 p2
  rw [wf_evexRow, encode_evexRow]
  exact ⟨evexWf_iff.mpr ⟨hp, by simpa [hp0] using hopens, rfl, hm⟩, by simp [encodeEvex, hp0, hp1, hp2]⟩

/-- The first byte after the prefixes selects the format. -/
theorem encode_of_decodeBody (h : decodeBody cm pre bs = .ok i rest) :
    i.wf cm = true ∧ prefixBytes pre ++ bs = encode i ++ rest := by
  unfold decodeBody at h
  split at h
  · cases h
  split at h
  · next hb => exact hb ▸ encode_of_decodeLegacy hp h
  split at h
  · next hb => exact hb ▸ encode_of_decodeVex2 hp h
  split at h
  · next hb => exact hb ▸ encode_of_decodeVex3 hp h
  split at h
  · next hb => exact hb ▸ encode_of_decodeEvex hp h
  · cases h

end

/-! ## The statements about the decoder -/

/-- Settles O6. -/
theorem decodeOfEncode : Obligations.DecodeOfEncode := fun _ _ rest hwf => decode_encode rest hwf

/-- Settles O7: the bytes are the prefixes split off and a body in one of the formats. -/
theorem encodeOfDecode : Obligations.EncodeOfDecode := by
  intro cm bytes rest i h
  obtain ⟨hbytes, hp⟩ := splitPrefixes_spec cm.mode bytes
  rw [hbytes]
  exact encode_of_decodeBody hp h

/-- Settles O8. -/
theorem sampleWordsDecode : Obligations.SampleWordsDecode := ⟨rfl, rfl, rfl, rfl, rfl⟩

/-- After the byte 0F an F2 or F3 among the prefixes makes both opcodes of the group another instruction's
(30_encoding.md R86). -/
theorem decodeLegacy_of_hasRep {cm : CodeMode} {pre : List PrefixItem} {op : Byte} {dir : Dir} {rest : List Byte}
    (hrep : hasRep pre = true) (hop : opcodeDir op = some dir) :
    decodeLegacy cm pre (op :: rest) = .reject .repPrefix := by
  simp only [decodeLegacy, hop, hrep, if_true]

/-- Settles O9: both opcode bytes are read after the prefixes, and then the prefixes are asked for F2 and F3. -/
theorem repPrefixIsNotOfTheGroup : Obligations.RepPrefixIsNotOfTheGroup := by
  intro cm pre op rest hp hrep hop
  obtain ⟨h0F, -⟩ := prefixOf_openers cm.mode
  obtain ⟨dir, hdir⟩ : ∃ dir, opcodeDir op = some dir := by
    rcases hop with rfl | rfl
    · exact ⟨.toReg, rfl⟩
    · exact ⟨.toRm, rfl⟩
  rw [decode_prefixBytes hp h0F, decodeBody, if_pos rfl, decodeLegacy_of_hasRep hrep hdir]

/-- In M32 three-byte VEX selects the W0 row, whatever W is (30_encoding.md R118). -/
theorem vex3Row_m32 (pre : List PrefixItem) (v : Vex3) (dir : Dir) :
    vex3Row .m32 pre v dir = match dir with
      | .toReg => .vmovdXmmRm32C4 pre v
      | .toRm => .vmovdRm32XmmC4 pre v := by
  rw [vex3Row_eq]
  cases dir <;> rfl

/-- In M32 EVEX selects the W0 row, whatever W is (30_encoding.md R118). -/
theorem evexRow_m32 (pre : List PrefixItem) (e : Evex) (dir : Dir) :
    evexRow .m32 pre e dir = match dir with
      | .toReg => .vmovdXmmRm32Evex pre e
      | .toRm => .vmovdRm32XmmEvex pre e := by
  rw [evexRow_eq]
  cases dir <;> rfl

/-- Settles O10: with R = X = 0 the bytes begin VEX and EVEX in M32, and the row that M32 selects is the W0 row. -/
theorem w1BytesDecodeToW0RowsInM32 : Obligations.W1BytesDecodeToW0RowsInM32 := by
  intro d pre v e m rest hp hm hvr hvx her hex
  have hv : opensVex .m32 v.b1 = true := by rw [opensVex_vex3, hvr, hvx]; rfl
  have he : opensVex .m32 e.p0 = true := by rw [opensVex_evex, her, hex]; rfl
  refine ⟨?_, ?_, ?_, ?_⟩
  · rw [encode, decode_encodeVex3 rest hp hv rfl hm, vex3Row_m32]
  · rw [encode, decode_encodeVex3 rest hp hv rfl hm, vex3Row_m32]
  · rw [encode, decode_encodeEvex rest hp he rfl hm, evexRow_m32]
  · rw [encode, decode_encodeEvex rest hp he rfl hm, evexRow_m32]

end Sys2Proof
end

section
/-! SUPPORT. The forbidden bytes before an opcode and before VEX and EVEX, the encodings that are refused once no
exception applies, and the W1 rows in M32 (30_encoding.md R88 to R107, R118, R122; 60_exceptions.md R175). -/

namespace Sys2Proof

/-! ## Forbidden bytes -/

theorem badVexPrefix_of_mem {pre : List PrefixItem} {p : PrefixItem} (hp : p ∈ pre)
    (hf : p.forbiddenBeforeVex = true) : badVexPrefix pre = true :=
  List.any_eq_true.mpr ⟨p, hp, hf⟩

/-- F0 is one of the bytes that may not stand before VEX and EVEX (30_encoding.md R122). -/
theorem badVexPrefix_of_hasLock {pre : List PrefixItem} (h : hasLock pre = true) : badVexPrefix pre = true :=
  badVexPrefix_of_mem (List.contains_iff_mem.mp h) rfl

/-- The bytes that R122 lists are the forbidden ones. -/
theorem forbiddenBeforeVex_of_listed {p : PrefixItem}
    (h : p = .opSize ∨ p = .repne ∨ p = .rep ∨ p = .lock ∨ p.isRex = true) : p.forbiddenBeforeVex = true := by
  cases p with
  | seg | addrSize => simp [PrefixItem.isRex] at h
  | lock | repne | rep | opSize | rex => rfl

/-- In M64 no address size is of 16 bits (30_encoding.md R88). -/
theorem addrSize_m64_ne_a16 {cm : CodeMode} (hm : cm.mode = .m64) (pre : List PrefixItem) :
    addrSize cm pre ≠ .a16 := by
  unfold addrSize
  rw [hm]
  cases hasAddrSize pre <;> exact AddrSize.noConfusion

end Sys2Proof

namespace Sys2Proof.Machine

/-! ## #UD -/

theorem udMmx_of_hasLock {pre : List PrefixItem} (s : State) (h : hasLock pre = true) : udMmx s pre = true := by
  simp [udMmx, h]

theorem udSse2_of_hasLock {pre : List PrefixItem} (s : State) (h : hasLock pre = true) : udSse2 s pre = true := by
  simp [udSse2, h]

theorem udVex_of_badVexPrefix {pre : List PrefixItem} (s : State) (l : Bool) (vvvv : BitVec 4)
    (h : badVexPrefix pre = true) : udVex s pre l vvvv = true := by
  simp [udVex, h]

theorem udEvex_of_badVexPrefix {pre : List PrefixItem} (s : State) (e : Evex) (h : badVexPrefix pre = true) :
    udEvex s pre e = true := by
  simp [udEvex, h]

/-- Rows 9 to 16 have a #UD condition when a forbidden byte stands before VEX or EVEX. -/
theorem udOf_of_badVexPrefix {s : State} {i : Instr} (hi : isVexRow i = true ∨ isEvexRow i = true)
    (h : badVexPrefix i.prefixes = true) : udOf s i = true := by
  cases i with
  | movdMmRm32 | movqMmRm64 | movdRm32Mm | movqRm64Mm
  | movdXmmRm32 | movqXmmRm64 | movdRm32Xmm | movqRm64Xmm => exact hi.elim nofun nofun
  | vmovdXmmRm32C4 pre v | vmovdXmmRm32C5 pre v | vmovqXmmRm64Vex pre v
  | vmovdRm32XmmC4 pre v | vmovdRm32XmmC5 pre v | vmovqRm64XmmVex pre v =>
    exact udVex_of_badVexPrefix s v.l v.vvvv h
  | vmovdXmmRm32Evex pre e | vmovqXmmRm64Evex pre e | vmovdRm32XmmEvex pre e | vmovqRm64XmmEvex pre e =>
    exact udEvex_of_badVexPrefix s e h

/-- In every format an F0 byte is a #UD condition. -/
theorem udOf_of_hasLock {s : State} {i : Instr} (h : hasLock i.prefixes = true) : udOf s i = true := by
  cases i with
  | movdMmRm32 | movqMmRm64 | movdRm32Mm | movqRm64Mm => exact udMmx_of_hasLock s h
  | movdXmmRm32 | movqXmmRm64 | movdRm32Xmm | movqRm64Xmm => exact udSse2_of_hasLock s h
  | vmovdXmmRm32C4 | vmovdXmmRm32C5 | vmovqXmmRm64Vex | vmovdRm32XmmC4 | vmovdRm32XmmC5 | vmovqRm64XmmVex =>
    exact udOf_of_badVexPrefix (.inl rfl) (badVexPrefix_of_hasLock h)
  | vmovdXmmRm32Evex | vmovqXmmRm64Evex | vmovdRm32XmmEvex | vmovqRm64XmmEvex =>
    exact udOf_of_badVexPrefix (.inr rfl) (badVexPrefix_of_hasLock h)

/-- Settles O21. -/
theorem lockPrefixRaisesUD : Obligations.LockPrefixRaisesUD := fun _ _ hfit hlock =>
  exec_ud hfit (udOf_of_hasLock hlock)

/-- Settles O29. -/
theorem forbiddenByteBeforeVexRaisesUD : Obligations.ForbiddenByteBeforeVexRaisesUD := fun _ _ _ hi hfit hmem hp =>
  exec_ud hfit (udOf_of_badVexPrefix hi (badVexPrefix_of_mem hmem (forbiddenBeforeVex_of_listed hp)))

/-! ## The refused encodings -/

theorem addr16_eq_true {s : State} {pre : List PrefixItem} : addr16 s pre = true ↔ addrSize s.codeMode pre = .a16 :=
  decide_eq_true_iff

theorem addr16_eq_false {s : State} {pre : List PrefixItem} (h : addrSize s.codeMode pre ≠ .a16) :
    addr16 s pre = false :=
  decide_eq_false h

theorem refuseVex2_of_addr16 {s : State} {pre : List PrefixItem} (h : addrSize s.codeMode pre = .a16) :
    refuseVex2 s pre = some .vexAddr16 := by
  rw [refuseVex2, if_pos (addr16_eq_true.mpr h)]

theorem refuseVex3_of_b {s : State} {pre : List PrefixItem} {v : Vex3} (hm : s.mode = .m32) (hb : v.b = true) :
    refuseVex3 s pre v = some .vexB32 := by
  rw [refuseVex3, if_pos ⟨hm, hb⟩]

theorem refuseVex3_of_addr16 {s : State} {pre : List PrefixItem} {v : Vex3} (hb : v.b = false)
    (h : addrSize s.codeMode pre = .a16) : refuseVex3 s pre v = some .vexAddr16 := by
  simp [refuseVex3, hb, addr16_eq_true.mpr h]

theorem refuseEvex_of_ext {s : State} {pre : List PrefixItem} {e : Evex} {m : ModRM} (hm : s.mode = .m32)
    (h : e.b = true ∨ e.r' = true) : refuseEvex s pre e m = some .evexExt32 := by
  rw [refuseEvex, if_pos ⟨hm, h⟩]

theorem refuseEvex_of_addr16 {s : State} {pre : List PrefixItem} {e : Evex} {m : ModRM} (hb : e.b = false)
    (hr' : e.r' = false) (h : addrSize s.codeMode pre = .a16) : refuseEvex s pre e m = some .vexAddr16 := by
  simp [refuseEvex, hb, hr', addr16_eq_true.mpr h]

theorem refuseEvex_of_regX {s : State} {pre : List PrefixItem} {e : Evex} {m : ModRM} (hm : s.mode = .m64)
    (hr : rmIsReg m.rm = true) (hx : e.x = true) : refuseEvex s pre e m = some .evexRegX := by
  simp [refuseEvex, hm, addr16_eq_false (addrSize_m64_ne_a16 (cm := s.codeMode) hm pre), hr, hx]

/-- A form with an 8-bit displacement is no register. -/
theorem rmIsReg_of_rmIsDisp8 {f : RmForm} (h : rmIsDisp8 f = true) : rmIsReg f = false := by
  cases f with
  | direct => cases h
  | plain | disp32 | sib | sibNoBase | mem16 | abs16 => rfl

theorem refuseEvex_of_disp8W {s : State} {pre : List PrefixItem} {e : Evex} {m : ModRM} (hm : s.mode = .m32)
    (hb : e.b = false) (hr' : e.r' = false) (ha : addrSize s.codeMode pre ≠ .a16) (hw : e.w = true)
    (hd : rmIsDisp8 m.rm = true) : refuseEvex s pre e m = some .evexDisp8W := by
  simp [refuseEvex, hm, hb, hr', addr16_eq_false ha, rmIsReg_of_rmIsDisp8 hd, hw, hd]

section
variable {s : State} {pre : List PrefixItem} {m : ModRM} {i : Instr} {r : Refusal} (hts : s.cr0TS = false)
include hts

theorem exec_vex3Rows_refused {v : Vex3} (hfit : IpFits s (vex3Len pre m)) (hud : udVex s pre v.l v.vvvv = false)
    (hno : refuseVex3 s pre v = some r) (hi : i ∈ vex3Rows pre v m) : exec i s = .refused r := by
  simp only [vex3Rows, List.mem_cons, List.not_mem_nil, or_false] at hi
  obtain rfl | rfl | rfl | rfl := hi <;> exact exec_no hfit hud hts rfl hno

theorem exec_vex2Rows_refused {v : Vex2} (hfit : IpFits s (vex2Len pre m)) (hud : udVex s pre v.l v.vvvv = false)
    (hno : refuseVex2 s pre = some r) (hi : i ∈ vex2Rows pre v m) : exec i s = .refused r := by
  simp only [vex2Rows, List.mem_cons, List.not_mem_nil, or_false] at hi
  obtain rfl | rfl := hi <;> exact exec_no hfit hud hts rfl hno

theorem exec_evexRows_refused {e : Evex} (hfit : IpFits s (evexLen pre m)) (hud : udEvex s pre e = false)
    (hno : refuseEvex s pre e m = some r) (hi : i ∈ evexRows pre e m) : exec i s = .refused r := by
  simp only [evexRows, List.mem_cons, List.not_mem_nil, or_false] at hi
  obtain rfl | rfl | rfl | rfl := hi <;> exact exec_no hfit hud hts rfl hno

end

/-- Settles O30: each form is the first refusal of its format that applies. -/
theorem unvouchedVexFormsAreRefused : Obligations.UnvouchedVexFormsAreRefused := by
  refine ⟨fun pre v m s hfit hud hts => ⟨fun hm hb i hi => ?_, fun hb ha i hi => ?_⟩,
    fun pre v m s hfit hud hts ha i hi => ?_, fun pre e m s hfit hud hts => ⟨fun hm hext i hi => ?_,
      fun hb hr' ha i hi => ?_, fun hm hr hx i hi => ?_, fun hm hb hr' ha hw hd i hi => ?_⟩⟩
  · exact exec_vex3Rows_refused hts hfit hud (refuseVex3_of_b hm hb) hi
  · exact exec_vex3Rows_refused hts hfit hud (refuseVex3_of_addr16 hb ha) hi
  · exact exec_vex2Rows_refused hts hfit hud (refuseVex2_of_addr16 ha) hi
  · exact exec_evexRows_refused hts hfit hud (refuseEvex_of_ext hm hext) hi
  · exact exec_evexRows_refused hts hfit hud (refuseEvex_of_addr16 hb hr' ha) hi
  · exact exec_evexRows_refused hts hfit hud (refuseEvex_of_regX hm hr hx) hi
  · have ha16 : addrSize s.codeMode pre ≠ .a16 := ha ▸ AddrSize.noConfusion
    exact exec_evexRows_refused hts hfit hud (refuseEvex_of_disp8W hm hb hr' ha16 hw hd) hi

/-! ## The quadword rows in M32 -/

/-- In M32 a W1 row moves a doubleword (30_encoding.md R81, R118). -/
theorem w1Width_m32 {mode : Mode} (h : mode = .m32) : w1Width mode = .dword := by rw [h]; rfl

theorem refuseQuadInM32_m32 {s : State} (hm : s.mode = .m32) :
    refuseQuadInM32 .qword s = some .notEncodable :=
  if_pos ⟨rfl, hm⟩

/-- Rows 2 and 4 in M32, with no exception left. -/
theorem MmxReady.exec_refused {s : State} {i : Instr} {r : Refusal} {pre : List PrefixItem} (h : MmxReady s pre)
    (hfit : IpFits s i.ilen) (hud : udOf s i = udMmx s pre) (hno : noOf s i = some r) : exec i s = .refused r := by
  have hud' := hud.trans h.udMmx_eq_false
  obtain ⟨-, -, -, hts, hpending⟩ := h
  exact exec_no hfit hud' hts (by rw [mfOf, hpending, Bool.and_false]) hno

/-- Rows 6 and 8 in M32, with no exception left. -/
theorem Sse2Ready.exec_refused {s : State} {i : Instr} {r : Refusal} {pre : List PrefixItem} (h : Sse2Ready s pre)
    (hfit : IpFits s i.ilen) (hud : udOf s i = udSse2 s pre) (hmf : isMmxRow i = false) (hno : noOf s i = some r) :
    exec i s = .refused r := by
  have hud' := hud.trans h.udSse2_eq_false
  obtain ⟨-, -, -, -, hts⟩ := h
  exact exec_no hfit hud' hts (by rw [mfOf, hmf, Bool.false_and]) hno

/-- Settles O52: a W1 row differs from its W0 row in the width alone, which in M32 is the same. -/
theorem quadwordRowsInM32 : Obligations.QuadwordRowsInM32 := by
  intro pre v e m s hm
  have hw : w1Width s.mode = .dword := w1Width_m32 hm
  have hno := refuseQuadInM32_m32 hm
  refine ⟨?_, ?_, ?_, ?_, fun hfit hr => ⟨?_, ?_⟩, fun hfit hr => ⟨?_, ?_⟩⟩
  · simp only [exec, execVmovqXmmRm64Vex, execVmovdXmmRm32C4, hw]
  · simp only [exec, execVmovqRm64XmmVex, execVmovdRm32XmmC4, hw]
  · simp only [exec, execVmovqXmmRm64Evex, execVmovdXmmRm32Evex, hw]
  · simp only [exec, execVmovqRm64XmmEvex, execVmovdRm32XmmEvex, hw]
  · exact hr.exec_refused hfit rfl hno
  · exact hr.exec_refused hfit rfl hno
  · exact hr.exec_refused hfit rfl rfl hno
  · exact hr.exec_refused hfit rfl rfl hno

end Sys2Proof.Machine
end

section
/-! SUPPORT. Effective addresses in exact arithmetic: each summand of an address is its integer value modulo 2^64, and
the address size keeps the low bits of the sum (30_encoding.md R100 to R107). -/

namespace Sys2Proof.Machine

/-! ## Register numbers -/

theorem toNat_regNum (mode : Mode) (e : Bool) (r : BitVec 3) : (regNum mode e r).toNat = fullNum mode e r := by
  cases mode <;> revert e r <;> decide

theorem ofNat_fullNum (mode : Mode) (e : Bool) (r : BitVec 3) : BitVec.ofNat 4 (fullNum mode e r) = regNum mode e r := by
  rw [← toNat_regNum, BitVec.ofNat_toNat, BitVec.setWidth_eq]

theorem regNum_eq_iff {mode : Mode} {e : Bool} {r : BitVec 3} {n : BitVec 4} :
    regNum mode e r = n ↔ fullNum mode e r = n.toNat := by
  rw [BitVec.toNat_eq, toNat_regNum]

/-! ## The address size -/

theorem toNat_truncAddr (a : AddrSize) (v : Word64) : (truncAddr a v).toNat = v.toNat % 2 ^ addrBits a := by
  have hv : v.toNat < 2 ^ 64 := v.isLt
  cases a <;> simp only [truncAddr, addrBits, BitVec.toNat_setWidth] <;> omega

theorem addrBits_le (a : AddrSize) : addrBits a ≤ 64 := by cases a <;> decide

/-- An integer modulo 2^64, kept to the address size, is the integer modulo 2^A. -/
theorem toNat_truncAddr_ofInt (a : AddrSize) (z : Int) :
    ((truncAddr a (BitVec.ofInt 64 z)).toNat : Int) = z % 2 ^ addrBits a := by
  have hdvd : (2 ^ addrBits a : Int) ∣ (2 ^ 64 : Nat) := by
    exact_mod_cast pow_dvd_pow 2 (addrBits_le a)
  rw [toNat_truncAddr, BitVec.toNat_ofInt, Int.natCast_mod, Int.toNat_of_nonneg (Int.emod_nonneg z (by decide))]
  push_cast at hdvd ⊢
  exact Int.emod_emod_of_dvd z hdvd

/-! ## The summands -/

/-- A word is its own value. -/
theorem ofInt_toNat (v : Word64) : BitVec.ofInt 64 (v.toNat : Int) = v := by
  rw [BitVec.ofInt_natCast, BitVec.ofNat_toNat, BitVec.setWidth_eq]

theorem dispValue_eq_ofInt (n : Nat) (d : Disp) : dispValue n d = BitVec.ofInt 64 (dispInt n d) := by
  cases d with
  | none => rfl
  | d8 d => rw [dispInt, BitVec.ofInt_mul, BitVec.ofInt_natCast]; rfl
  | d32 d => rfl

theorem indexTerm_eq_ofInt (s : State) (a : RmArgs) (ss : BitVec 2) (index : BitVec 3) :
    indexTerm s a ss index = BitVec.ofInt 64 (scaledIndex s a.x ss index) := by
  have hnone : regNum s.mode a.x index = 4 ↔ fullNum s.mode a.x index = 4 := regNum_eq_iff
  simp only [indexTerm, scaledIndex, hnone, ofNat_fullNum, BitVec.ofInt_natCast]
  split
  · rfl
  · apply BitVec.eq_of_toNat_eq
    rw [BitVec.toNat_shiftLeft, BitVec.toNat_ofNat, Nat.shiftLeft_eq]

/-- A 16-bit displacement is kept zero-extended: as a signed number it is that only modulo 2^16. -/
theorem dispValue16_eq_ofInt (d : Disp16) :
    ∃ z, dispValue16 d = BitVec.ofInt 64 z ∧ z ≡ dispInt16 d [ZMOD 2 ^ 16] := by
  cases d with
  | none => exact ⟨0, rfl, rfl⟩
  | d8 d => exact ⟨d.toInt, rfl, rfl⟩
  | d16 d =>
    refine ⟨d.toNat, by rw [BitVec.ofInt_natCast, BitVec.ofNat_toNat]; rfl, ?_⟩
    rw [dispInt16, BitVec.toInt_eq_toNat_bmod]
    exact (Int.bmod_emod ..).symm

theorem base16_eq_sum (s : State) (rm : BitVec 3) : base16 s rm = ((regs16 rm).map (readGpr s)).sum := by
  obtain ⟨k, hk⟩ := rm
  interval_cases k <;> simp [base16, regs16]

theorem sum_readGpr_eq_ofInt (s : State) (l : List (BitVec 4)) :
    (l.map (readGpr s)).sum = BitVec.ofInt 64 (l.map fun n => ((readGpr s n).toNat : Int)).sum := by
  induction l with
  | nil => rfl
  | cons n l ih => simp only [List.map_cons, List.sum_cons, BitVec.ofInt_add, ofInt_toNat, ih]

/-! ## Each form -/

theorem effAddr_plain {s : State} {a : RmArgs} {rm : BitVec 3} {d : Disp} (h : a.rm = .plain rm d) :
    ((effAddr s a).toNat : Int) =
      ((readGpr s (BitVec.ofNat 4 (fullNum s.mode a.b rm))).toNat + dispInt a.scale d) %
        2 ^ addrBits (addrSize s.codeMode a.pre) := by
  rw [← toNat_truncAddr_ofInt, BitVec.ofInt_add, ofInt_toNat, ofNat_fullNum, ← dispValue_eq_ofInt, effAddr, h]

theorem effAddr_mem16 {s : State} {a : RmArgs} {rm : BitVec 3} {d : Disp16} (h : a.rm = .mem16 rm d) :
    ((effAddr s a).toNat : Int) =
      (((regs16 rm).map fun n => ((readGpr s n).toNat : Int)).sum + dispInt16 d) % 2 ^ 16 := by
  obtain ⟨z, hd, hz⟩ := dispValue16_eq_ofInt d
  calc ((effAddr s a).toNat : Int)
    _ = ((truncAddr .a16 (base16 s rm + dispValue16 d)).toNat : Int) := by rw [effAddr, h]
    _ = (((regs16 rm).map fun n => ((readGpr s n).toNat : Int)).sum + z) % 2 ^ 16 := by
      rw [base16_eq_sum, sum_readGpr_eq_ofInt, hd, ← BitVec.ofInt_add, toNat_truncAddr_ofInt]; rfl
    _ = _ := hz.add_left _

theorem effAddr_disp32_m64 {s : State} {a : RmArgs} {d : BitVec 32} (h : a.rm = .disp32 d) (hm : s.mode = .m64) :
    ((effAddr s a).toNat : Int) =
      (s.rip.toNat + a.ilen + d.toInt) % 2 ^ addrBits (addrSize s.codeMode a.pre) := by
  rw [← toNat_truncAddr_ofInt, BitVec.ofInt_add, BitVec.ofInt_add, ofInt_toNat, BitVec.ofInt_natCast, effAddr, h]
  simp only [hm, BitVec.signExtend]

theorem effAddr_disp32_m32 {s : State} {a : RmArgs} {d : BitVec 32} (h : a.rm = .disp32 d) (hm : s.mode = .m32) :
    ((effAddr s a).toNat : Int) = d.toInt % 2 ^ addrBits (addrSize s.codeMode a.pre) := by
  rw [← toNat_truncAddr_ofInt, effAddr, h]
  simp only [hm, BitVec.signExtend]

theorem effAddr_abs16 {s : State} {a : RmArgs} {d : BitVec 16} (h : a.rm = .abs16 d) :
    (effAddr s a).toNat = d.toNat := by
  rw [effAddr, h]
  exact BitVec.toNat_setWidth_of_le (by decide)

theorem effAddr_sib {s : State} {a : RmArgs} {ss : BitVec 2} {index base : BitVec 3} {d : Disp}
    (h : a.rm = .sib ss index base d) :
    ((effAddr s a).toNat : Int) =
      ((readGpr s (BitVec.ofNat 4 (fullNum s.mode a.b base))).toNat + scaledIndex s a.x ss index +
        dispInt a.scale d) % 2 ^ addrBits (addrSize s.codeMode a.pre) := by
  rw [← toNat_truncAddr_ofInt, BitVec.ofInt_add, BitVec.ofInt_add, ofInt_toNat, ofNat_fullNum,
    ← indexTerm_eq_ofInt, ← dispValue_eq_ofInt, effAddr, h]

theorem effAddr_sibNoBase {s : State} {a : RmArgs} {ss : BitVec 2} {index : BitVec 3} {d : BitVec 32}
    (h : a.rm = .sibNoBase ss index d) :
    ((effAddr s a).toNat : Int) =
      (scaledIndex s a.x ss index + d.toInt) % 2 ^ addrBits (addrSize s.codeMode a.pre) := by
  rw [← toNat_truncAddr_ofInt, BitVec.ofInt_add, ← indexTerm_eq_ofInt, effAddr, h]
  rfl

/-! ## The statements about addresses -/

/-- Settles O36. -/
theorem baseRegisterAddress : Obligations.BaseRegisterAddress :=
  ⟨fun _ _ _ _ => effAddr_plain, fun _ _ _ _ => effAddr_mem16, fun _ _ _ _ _ =>
    ⟨⟨rfl, rfl, rfl⟩, ⟨rfl, rfl, rfl⟩, ⟨rfl, rfl, rfl⟩, rfl, rfl, rfl⟩⟩

/-- Settles O37. -/
theorem displacementOnlyAddress : Obligations.DisplacementOnlyAddress :=
  ⟨fun _ _ _ h => ⟨effAddr_disp32_m64 h, effAddr_disp32_m32 h⟩, fun _ _ _ => effAddr_abs16,
    fun _ _ _ _ _ _ => ⟨rfl, rfl, rfl, rfl⟩⟩

/-- Settles O38. -/
theorem sibAddress : Obligations.SibAddress :=
  ⟨fun _ _ _ _ _ _ => effAddr_sib, fun _ _ _ _ _ => effAddr_sibNoBase⟩

end Sys2Proof.Machine
end

section
/-! SUPPORT. The segment of a memory operand: the last override, and the default of each form (30_encoding.md R87,
R105). -/

namespace Sys2Proof

/-! ## The last override -/

theorem lastOverride_eq_none {pre : List PrefixItem} (h : pre.any Machine.isSegOverride = false) :
    lastOverride pre = none := by
  induction pre with
  | nil => rfl
  | cons p ps ih =>
    obtain ⟨hp, hps⟩ := Bool.or_eq_false_iff.mp h
    unfold lastOverride
    rw [ih hps]
    cases p with
    | seg => cases hp
    | lock | repne | rep | opSize | addrSize | rex => rfl

/-- An override that a later byte gives stands. -/
theorem lastOverride_cons_of_some {p : PrefixItem} {ps : List PrefixItem} {g : Seg} (h : lastOverride ps = some g) :
    lastOverride (p :: ps) = some g := by
  unfold lastOverride
  rw [h]

theorem lastOverride_seg_cons_of_none {g : Seg} {ps : List PrefixItem} (h : lastOverride ps = none) :
    lastOverride (.seg g :: ps) = some g := by
  unfold lastOverride
  rw [h]

/-- An override with none after it is the last, whatever stands before it. -/
theorem lastOverride_append_seg (before : List PrefixItem) {after : List PrefixItem} (g : Seg)
    (h : after.any Machine.isSegOverride = false) : lastOverride (before ++ .seg g :: after) = some g := by
  induction before with
  | nil => exact lastOverride_seg_cons_of_none (lastOverride_eq_none h)
  | cons p ps ih => exact lastOverride_cons_of_some ih

end Sys2Proof

namespace Sys2Proof.Machine

/-! ## The segment -/

/-- An override in force names the segment: any in M32, FS and GS in M64. -/
theorem operandSeg_of_override {mode : Mode} {a : RmArgs} {g : Seg} (h : lastOverride a.pre = some g)
    (hg : mode = .m32 ∨ g = .fs ∨ g = .gs) : operandSeg mode a = g := by
  unfold operandSeg
  rw [h]
  cases mode with
  | m32 => rfl
  | m64 =>
    obtain hm | rfl | rfl := hg
    · cases hm
    · rfl
    · rfl

/-- With no override in force the segment is the form's default. -/
theorem operandSeg_of_no_override {mode : Mode} {a : RmArgs}
    (h : lastOverride a.pre = none ∨ (mode = .m64 ∧ ∃ g, lastOverride a.pre = some g ∧ g ≠ .fs ∧ g ≠ .gs)) :
    operandSeg mode a = defaultSeg mode a := by
  unfold operandSeg
  obtain hnone | ⟨rfl, g, hg, hfs, hgs⟩ := h
  · rw [hnone]
  · rw [hg]
    cases g with
    | fs => exact absurd rfl hfs
    | gs => exact absurd rfl hgs
    | es | cs | ss | ds => rfl

theorem segOfBase_regNum (mode : Mode) (b : Bool) (rm : BitVec 3) :
    segOfBase (regNum mode b rm) = if fullNum mode b rm = 4 ∨ fullNum mode b rm = 5 then .ss else .ds := by
  simp only [segOfBase, regNum_eq_iff]
  rfl

/-- The 16-bit expressions that default to SS are those with BP, register number 5. -/
theorem bp_mem_regs16 (rm : BitVec 3) : (rm = 2 ∨ rm = 3 ∨ rm = 6) ↔ (5 : BitVec 4) ∈ regs16 rm := by
  revert rm; decide

/-- Settles O39: an override in force names the segment; otherwise the form decides. -/
theorem operandSegment : Obligations.OperandSegment := by
  refine ⟨fun _ => lastOverride_eq_none, fun before _ g => lastOverride_append_seg before g, fun mode a =>
    ⟨fun _ => operandSeg_of_override, fun h => ?_⟩⟩
  rw [operandSeg_of_no_override h]
  refine ⟨fun rm d ha => ?_, fun ss index base d ha => ?_, fun rm d ha => ?_, fun d ha => ?_, fun ss index d ha => ?_,
    fun d ha => ?_⟩ <;> rw [defaultSeg, ha]
  · exact segOfBase_regNum mode a.b rm
  · exact segOfBase_regNum mode a.b base
  · simp only [bp_mem_regs16]

end Sys2Proof.Machine
end

section
/-! SUPPORT. The moves of rows 1 to 4: what a completed load into and store from an MMX register leaves, field by field,
and when they complete (40_movd_movq_mmx.md R130 to R134); and the frame of every row's store to a general register. -/

namespace Sys2Proof.Machine

/-! ## An admitted store -/

/-- An admitted memory operand is written: the operand's bytes and no other. -/
theorem writeRM_of_admits {w : Width} {s : State} {a : RmArgs} (hr : rmIsReg a.rm = false)
    (ha : Admits s (operandSeg s.mode a) (effAddr s a) w .write) (v : BitVec w.bits) :
    ∃ m, StoredAt w s (operandAddr s a) v m ∧ writeRM w s a v = .next (setMem s m) := by
  rw [writeRM_mem hr]
  exact ⟨_, storedAt_writeAll w s (operandAddr s a) v, memWrite_eq_next.mpr ⟨ha, rfl⟩⟩

/-! ## The MMX gate -/

/-- Rows 1 to 4 pass their gate when the state is ready, a quadword row in M64 only (30_encoding.md R118). -/
theorem MmxReady.gateMmx_eq_next {w : Width} {s : State} {pre : List PrefixItem} {m : ModRM} (h : MmxReady s pre)
    (hfit : IpFits s (legLen pre m)) (hno : refuseQuadInM32 w s = none) : gateMmx w s pre m = .next () := by
  have hud := h.udMmx_eq_false
  obtain ⟨-, -, -, hts, hpending⟩ := h
  exact gate_eq_next.mpr ⟨hfit, hud, hts, hpending, hno⟩

/-! ## The MMX loads -/

/-- The write of an MMX register with its x87 side effects, in one: the whole 80-bit register, top of stack and tags
(10_state.md R31). -/
theorem mmxWrite_mmxTouch_writeMm (s : State) (n : BitVec 3) (v : Word64) :
    mmxWrite (mmxTouch (writeMm s n v)) n =
      { s with x87 := s.x87.set n.toNat (BitVec.allOnes 16 ++ v) n.isLt, x87Top := 0, x87Tags := 0 } := by
  have hread : readMm (mmxTouch (writeMm s n v)) n = v := (readMm_writeMm s n n v).trans (if_pos rfl)
  have hx87 : (mmxTouch (writeMm s n v)).x87.set n.toNat (BitVec.allOnes 16 ++ v) n.isLt =
      s.x87.set n.toNat (BitVec.allOnes 16 ++ v) n.isLt := by
    rw [mmxTouch_x87, writeMm_x87, Vector.set_set]
  rw [mmxWrite, hread, hx87]
  rfl

/-- A completed move into an MMX register, field by field: the operand's value under ones in bits 79:64, top of stack 0,
all tags valid, the pointer advanced. -/
theorem mmxLoad_eq_next_fields {w : Width} {pre : List PrefixItem} {m : ModRM} {s t : State} :
    mmxLoad w pre m s = .next t ↔
      gateMmx w s pre m = .next () ∧ ∃ v, RmReads w s (legArgs pre m) v ∧ t = { s with
        x87 := s.x87.set m.reg.toNat (BitVec.allOnes 16 ++ v.setWidth 64) m.reg.isLt
        x87Top := 0, x87Tags := 0, rip := s.rip + BitVec.ofNat 64 (legLen pre m) } := by
  simp only [mmxLoad_eq_next, mmxWrite_mmxTouch_writeMm]
  rfl

/-- Settles O40: past the gate each row is the load of its width. -/
theorem mmxLoadsComplete : Obligations.MmxLoadsComplete := by
  refine fun pre m s hfit hready => ⟨fun v hv => ?_, fun hm v hv => ?_⟩
  · have hgate := hready.gateMmx_eq_next hfit (refuseQuadInM32_dword s)
    exact mmxLoad_eq_next_fields.mpr ⟨hgate, v, hv, rfl⟩
  · have hgate := hready.gateMmx_eq_next hfit (refuseQuadInM32_m64 .qword hm)
    have hload := mmxLoad_eq_next_fields.mpr ⟨hgate, v, hv, rfl⟩
    rwa [BitVec.setWidth_eq] at hload

theorem mmxLoad_frame {w : Width} {pre : List PrefixItem} {m : ModRM} {s t : State}
    (h : mmxLoad w pre m s = .next t) :
    SameControl s t ∧ t.gpr = s.gpr ∧ t.vec = s.vec ∧ SameMem s t ∧
      (∀ n : BitVec 3, n ≠ m.reg → t.x87[n.toNat]'n.isLt = s.x87[n.toNat]'n.isLt) ∧ t.x87Top = 0 ∧ t.x87Tags = 0 := by
  obtain ⟨-, v, -, rfl⟩ := mmxLoad_eq_next_fields.mp h
  refine ⟨SameControl.refl s, rfl, rfl, fun _ => rfl, fun n hn => ?_, rfl, rfl⟩
  exact Vector.getElem_set_ne m.reg.isLt n.isLt fun he => hn (BitVec.eq_of_toNat_eq he.symm)

/-- Settles O53: rows 1 and 2 are one load at two widths. -/
theorem mmxLoadsFrame : Obligations.MmxLoadsFrame := by
  intro pre m s t h
  rcases h with hd | hq
  · exact mmxLoad_frame (w := .dword) hd
  · exact mmxLoad_frame (w := .qword) hq

/-! ## The MMX stores -/

/-- The doubleword an MMX store moves is the register's low 32 bits. -/
theorem setWidth_dword_eq_extractLsb' (v : Word64) : v.setWidth (Width.bits .dword) = v.extractLsb' 0 32 :=
  BitVec.setWidth_eq_extractLsb' (by decide)

section
variable {w : Width} {s : State} {pre : List PrefixItem} {m : ModRM} (hgate : gateMmx w s pre m = .next ())
include hgate

/-- Past the gate a store to a general register leaves the moved bits there, zero-extended. -/
theorem mmxStore_of_direct {r : BitVec 3} (hr : m.rm = .direct r) :
    mmxStore w pre m s = .next { s with
      gpr := s.gpr.set (regNum s.mode (effectiveRex pre).b r).toNat (((readMm s m.reg).setWidth w.bits).setWidth 64)
        (BitVec.isLt _)
      x87Top := 0, x87Tags := 0, rip := s.rip + BitVec.ofNat 64 (legLen pre m) } :=
  mmxStore_eq_next.mpr ⟨hgate, _, writeRM_direct (a := legArgs pre m) hr, rfl⟩

/-- Past the gate an admitted store to memory leaves the moved bits in the operand's bytes. -/
theorem mmxStore_of_admits (hr : rmIsReg m.rm = false)
    (ha : Admits s (operandSeg s.mode (legArgs pre m)) (effAddr s (legArgs pre m)) w .write) :
    ∃ mem', StoredAt w s (operandAddr s (legArgs pre m)) ((readMm s m.reg).setWidth w.bits) mem' ∧
      mmxStore w pre m s = .next { s with
        mem := mem', x87Top := 0, x87Tags := 0, rip := s.rip + BitVec.ofNat 64 (legLen pre m) } := by
  obtain ⟨mem', hst, hwrite⟩ := writeRM_of_admits hr ha ((readMm s m.reg).setWidth w.bits)
  exact ⟨mem', hst, mmxStore_eq_next.mpr ⟨hgate, _, hwrite, rfl⟩⟩

end

/-- Settles O41: past the gate each row is the store of its width. -/
theorem mmxStoresToRegisterComplete : Obligations.MmxStoresToRegisterComplete := by
  refine fun pre m s r hfit hready hr => ⟨?_, fun hm => ?_⟩
  · have hstore := mmxStore_of_direct (hready.gateMmx_eq_next hfit (refuseQuadInM32_dword s)) hr
    rwa [setWidth_dword_eq_extractLsb'] at hstore
  · have hstore := mmxStore_of_direct (hready.gateMmx_eq_next hfit (refuseQuadInM32_m64 .qword hm)) hr
    rwa [BitVec.setWidth_eq, BitVec.setWidth_eq] at hstore

/-- Settles O42: past the gate each row is the store of its width. -/
theorem mmxStoresToMemoryComplete : Obligations.MmxStoresToMemoryComplete := by
  refine fun pre m s hfit hready hr => ⟨fun ha => ?_, fun hm ha => ?_⟩
  · have hstore := mmxStore_of_admits (hready.gateMmx_eq_next hfit (refuseQuadInM32_dword s)) hr ha
    rwa [setWidth_dword_eq_extractLsb'] at hstore
  · have hstore := mmxStore_of_admits (hready.gateMmx_eq_next hfit (refuseQuadInM32_m64 .qword hm)) hr ha
    rwa [BitVec.setWidth_eq] at hstore

/-! ## The frames of the stores to a register -/

/-- A completed store to a register has written the general register and done what the row does besides. -/
theorem exec_regStore_eq {i : Instr} {s t : State} {r : BitVec 3} (h : exec i s = .next t)
    (hr : i.modrm.rm = .direct r) (hd : dirOf i = .toRm) :
    ∃ v, t = advance (afterStore i (writeGpr s (regNum s.mode (argsOf s i).b r) v)) i.ilen := by
  obtain ⟨-, hmove⟩ := exec_eq_next.mp h
  obtain ⟨hload, -⟩ | ⟨-, u, hu, rfl⟩ := moveOf_eq_next hmove
  · cases hd.symm.trans hload
  rw [writeRM_direct ((argsOf_rm s i).trans hr)] at hu
  cases hu
  exact ⟨_, rfl⟩

section
variable {i : Instr} {s t : State} {r : BitVec 3} {b : Bool} (h : exec i s = .next t) (hr : i.modrm.rm = .direct r)
  (hd : dirOf i = .toRm) (hb : (argsOf s i).b = b)
include h hr hd hb

/-- A completed store to a register leaves memory, the vector and x87 data registers, and every other general one. -/
theorem exec_regStore_frame :
    SameMem s t ∧ t.vec = s.vec ∧ t.x87 = s.x87 ∧ SameGprExcept (regNum s.mode b r) s t := by
  obtain ⟨v, rfl⟩ := exec_regStore_eq h hr hd
  subst hb
  refine ⟨fun x => by simp, by simp, by simp, fun k hk => ?_⟩
  calc readGpr (advance (afterStore i (writeGpr s (regNum s.mode (argsOf s i).b r) v)) i.ilen) k
      = readGpr (writeGpr s (regNum s.mode (argsOf s i).b r) v) k := by simp only [readGpr, advance_gpr, afterStore_gpr]
    _ = readGpr s k := by rw [readGpr_writeGpr, if_neg hk]

/-- The frame of rows 3 and 4. -/
theorem exec_mmxRegStore_frame (hi : isMmxRow i = true) : SameControl s t ∧ SameMem s t ∧ t.vec = s.vec ∧
    t.x87 = s.x87 ∧ t.x87Top = 0 ∧ t.x87Tags = 0 ∧ SameGprExcept (regNum s.mode b r) s t := by
  obtain ⟨hmem, hvec, hx87, hgpr⟩ := exec_regStore_frame h hr hd hb
  obtain ⟨htop, htags⟩ := exec_touches_x87 hi h
  exact ⟨exec_sameControl h, hmem, hvec, hx87, htop, htags, hgpr⟩

/-- The frame of the storing rows outside the MMX rows, which leave the x87 state too. -/
theorem exec_vecRegStore_frame (hi : isMmxRow i = false) : SameControl s t ∧ SameMem s t ∧ t.vec = s.vec ∧
    SameX87 s t ∧ SameGprExcept (regNum s.mode b r) s t := by
  obtain ⟨hmem, hvec, -, hgpr⟩ := exec_regStore_frame h hr hd hb
  obtain ⟨v, rfl⟩ := exec_regStore_eq h hr hd
  refine ⟨exec_sameControl h, hmem, hvec, ?_, hgpr⟩
  rw [afterStore_of_not_mmxRow hi]
  exact ⟨rfl, rfl, rfl⟩

end

/-- Settles O56: each row is a store to a register, by the frame of its family. -/
theorem registerStoresFrame : Obligations.RegisterStoresFrame := by
  refine ⟨fun pre m s t r hr h => ?_, fun pre m s t r hr h => ?_, fun pre v m s t r hr h => ?_,
    fun pre v m s t r hr h => ?_, fun pre e m s t r hr h => ?_⟩
  · obtain h | h := h <;> exact exec_mmxRegStore_frame h hr rfl rfl rfl
  · obtain h | h := h <;> exact exec_vecRegStore_frame h hr rfl rfl rfl
  · obtain h | h := h <;> exact exec_vecRegStore_frame h hr rfl rfl rfl
  · exact exec_vecRegStore_frame h hr rfl rfl rfl
  · obtain h | h := h <;> exact exec_vecRegStore_frame h hr rfl rfl rfl

end Sys2Proof.Machine
end

section
/-! SUPPORT. What an instruction past its gate answers, for every row whose register is a vector register: a store to a
general register, a store to memory, and the frame of a load; and the legacy SSE load of rows 5 and 6, bit by bit
(41_movd_movq_sse2.md R140 to R144). -/

namespace Sys2Proof.Machine

/-! ## Past the gate -/

/-- Past the gate a load whose operand reads as `v` completes. -/
theorem GatePasses.exec_load {s : State} {i : Instr} {v : BitVec (widthOf s i).bits} (h : GatePasses s i)
    (hd : dirOf i = .toReg) (hv : RmReads (widthOf s i) s (argsOf s i) v) :
    exec i s = .next (advance (loadInto s i v) i.ilen) := by
  rw [h.exec_eq_moveOf, moveOf, hd]
  exact bind_eq_next.mpr ⟨v, readRM_eq_next.mpr hv, rfl⟩

/-- Past the gate a store completes as the write of its operand does. -/
theorem GatePasses.exec_store {s u : State} {i : Instr} (h : GatePasses s i) (hd : dirOf i = .toRm)
    (hu : writeRM (widthOf s i) s (argsOf s i) (storedValue s i) = .next u) :
    exec i s = .next (advance (afterStore i u) i.ilen) := by
  rw [h.exec_eq_moveOf, moveOf, hd]
  exact bind_eq_next.mpr ⟨u, hu, rfl⟩

/-! ## The stores of a vector register -/

/-- The value a row outside the MMX rows stores is the low bits of its vector register. -/
theorem storedValue_of_not_mmxRow {s : State} {i : Instr} (hi : isMmxRow i = false) :
    storedValue s i = (readVec s (vecOf s i)).extractLsb' 0 (widthOf s i).bits := by
  have hle (w : Width) : w.bits ≤ 512 := by cases w <;> decide
  rw [storedValue, hi, if_neg Bool.false_ne_true]
  exact BitVec.setWidth_eq_extractLsb' (hle _)

section
variable {s : State} {i : Instr} {w : Width} {a : RmArgs} {n : BitVec 5} (h : GatePasses s i)
  (hi : isMmxRow i = false) (hd : dirOf i = .toRm) (hw : widthOf s i = w) (ha : argsOf s i = a) (hn : vecOf s i = n)
include h hi hd hw ha hn

/-- Past the gate a store to a general register leaves the vector register's low bits there, zero-extended. -/
theorem GatePasses.exec_vecRegStore {r : BitVec 3} (hr : a.rm = .direct r) :
    exec i s = .next { s with
      gpr := s.gpr.set (regNum s.mode a.b r).toNat (((readVec s n).extractLsb' 0 w.bits).setWidth 64) (BitVec.isLt _)
      rip := s.rip + BitVec.ofNat 64 i.ilen } := by
  subst hw ha hn
  rw [h.exec_store hd (writeRM_direct hr), storedValue_of_not_mmxRow hi, afterStore_of_not_mmxRow hi]
  rfl

/-- Past the gate an admitted store to memory leaves the vector register's low bits in the operand's bytes. -/
theorem GatePasses.exec_vecMemStore (hr : rmIsReg a.rm = false)
    (hadm : Admits s (operandSeg s.mode a) (effAddr s a) w .write) :
    ∃ mem', StoredAt w s (operandAddr s a) ((readVec s n).extractLsb' 0 w.bits) mem' ∧
      exec i s = .next { s with mem := mem', rip := s.rip + BitVec.ofNat 64 i.ilen } := by
  subst hw ha hn
  obtain ⟨mem', hst, hwrite⟩ := writeRM_of_admits hr hadm (storedValue s i)
  refine ⟨mem', storedValue_of_not_mmxRow hi ▸ hst, ?_⟩
  rw [h.exec_store hd hwrite, afterStore_of_not_mmxRow hi]
  rfl

end

/-- Settles O44: each row is a store of a vector register, past the gate of its family. -/
theorem sseStoresToRegisterComplete : Obligations.SseStoresToRegisterComplete := by
  refine fun pre m s r hfit hready hr => ⟨?_, fun hm => ?_⟩
  · have hgate : GatePasses s (.movdRm32Xmm pre m) := hready.gatePasses hfit rfl rfl (refuseQuadInM32_dword s)
    exact hgate.exec_vecRegStore rfl rfl rfl rfl rfl hr
  · have hgate : GatePasses s (.movqRm64Xmm pre m) := hready.gatePasses hfit rfl rfl (refuseQuadInM32_m64 .qword hm)
    have hstore := hgate.exec_vecRegStore (w := .qword) rfl rfl rfl rfl rfl hr
    rwa [BitVec.setWidth_eq] at hstore

/-- Settles O45: each row is a store of a vector register, past the gate of its family. -/
theorem sseStoresToMemoryComplete : Obligations.SseStoresToMemoryComplete := by
  refine fun pre m s hfit hready hr => ⟨fun hadm => ?_, fun hm hadm => ?_⟩
  · have hgate : GatePasses s (.movdRm32Xmm pre m) := hready.gatePasses hfit rfl rfl (refuseQuadInM32_dword s)
    exact hgate.exec_vecMemStore rfl rfl rfl rfl rfl hr hadm
  · have hgate : GatePasses s (.movqRm64Xmm pre m) := hready.gatePasses hfit rfl rfl (refuseQuadInM32_m64 .qword hm)
    exact hgate.exec_vecMemStore rfl rfl rfl rfl rfl hr hadm

/-! ## The frame of a load into a vector register -/

/-- A load outside the MMX rows is one write of its vector register. -/
theorem loadInto_of_not_mmxRow {s : State} {i : Instr} (hi : isMmxRow i = false) (v : BitVec (widthOf s i).bits) :
    ∃ x, loadInto s i v = writeVec s (vecOf s i) x := by
  rw [loadInto, hi, if_neg Bool.false_ne_true]
  split <;> exact ⟨_, rfl⟩

/-- A completed load into a vector register leaves all but that register and the instruction pointer. -/
theorem exec_vecLoad_frame {i : Instr} {s t : State} {n : BitVec 5} (h : exec i s = .next t)
    (hi : isMmxRow i = false) (hd : dirOf i = .toReg) (hn : vecOf s i = n) :
    SameControl s t ∧ t.gpr = s.gpr ∧ SameX87 s t ∧ SameMem s t ∧ SameVecExcept n s t := by
  have hcontrol := exec_sameControl h
  obtain ⟨-, hmove⟩ := exec_eq_next.mp h
  obtain ⟨-, v, -, rfl⟩ | ⟨hstore, -⟩ := moveOf_eq_next hmove
  · obtain ⟨x, hx⟩ := loadInto_of_not_mmxRow hi v
    rw [hx, hn] at hcontrol ⊢
    refine ⟨hcontrol, rfl, ⟨rfl, rfl, rfl⟩, fun _ => rfl, fun k hk => ?_⟩
    exact (readVec_writeVec s n k x).trans (if_neg hk)
  · cases hd.symm.trans hstore

/-- Settles O54: rows 5 and 6 are loads into the vector register `R:reg`. -/
theorem sseLoadsFrame : Obligations.SseLoadsFrame := by
  intro pre m s t h
  obtain h | h := h <;> exact exec_vecLoad_frame h rfl rfl rfl

/-! ## The legacy SSE loads -/

/-- The register after a legacy SSE write of an XMM destination, bit by bit: the value in bits 127:0, the old bits up to
MAXVL, none above (10_state.md R27). -/
theorem getLsbD_maskVec_keep (l : VecLen) (old : VecWord) (v : BitVec 128) (j : Nat) :
    (maskVec l (old.extractLsb' 128 384 ++ v)).getLsbD j =
      if j < 128 then v.getLsbD j else decide (j < l.bits) && old.getLsbD j := by
  have hl : 128 ≤ l.bits := by cases l <;> decide
  rw [getLsbD_maskVec, BitVec.getLsbD_append]
  split
  · next hj => simp [show j < l.bits by omega]
  · next hj =>
    have hsub : 128 + (j - 128) = j := by omega
    by_cases h512 : j < 512
    · simp [hsub, show j - 128 < 384 by omega]
    · simp [hsub, BitVec.getLsbD_of_ge old j (by omega)]

/-- A legacy SSE write of an XMM destination writes bits 127:0, keeps the bits from 128 to MAXVL, and changes nothing
but that register (10_state.md R27). -/
theorem writeXmmKeep_eq (s : State) (n : BitVec 5) (v : BitVec 128) :
    ∃ x : VecWord, x.extractLsb' 0 128 = v ∧
      (∀ j, 128 ≤ j → j < s.plat.maxvl.bits → x.getLsbD j = (readVec s n).getLsbD j) ∧
      (∀ j, s.plat.maxvl.bits ≤ j → x.getLsbD j = false) ∧
      writeXmmKeep s n v = { s with vec := s.vec.set n.toNat x n.isLt } := by
  have hl : 128 ≤ s.plat.maxvl.bits := by cases s.plat.maxvl <;> decide
  have hbit := getLsbD_maskVec_keep s.plat.maxvl (readVec s n) v
  refine ⟨_, BitVec.eq_of_getLsbD_eq fun j hj => ?_, fun j hj hmax => ?_, fun j hmax => ?_, rfl⟩
  · rw [BitVec.getLsbD_extractLsb', Nat.zero_add, decide_eq_true hj, Bool.true_and, hbit, if_pos hj]
  · rw [hbit, if_neg (Nat.not_lt.mpr hj), decide_eq_true hmax, Bool.true_and]
  · rw [hbit, if_neg (Nat.not_lt.mpr (hl.trans hmax)), decide_eq_false (Nat.not_lt.mpr hmax), Bool.false_and]

theorem isMmxRow_of_isSse2Row {i : Instr} (hi : isSse2Row i = true) : isMmxRow i = false := by
  cases i with
  | movdXmmRm32 | movqXmmRm64 | movdRm32Xmm | movqRm64Xmm => rfl
  | _ => cases hi

/-- A load of rows 5 and 6 is one legacy SSE write of its vector register. -/
theorem loadInto_of_sse2Row {s : State} {i : Instr} (hi : isSse2Row i = true) (v : BitVec (widthOf s i).bits) :
    loadInto s i v = writeXmmKeep s (vecOf s i) (v.setWidth 128) := by
  rw [loadInto, isMmxRow_of_isSse2Row hi, if_neg Bool.false_ne_true, if_pos hi]

/-- Past the gate a legacy SSE load leaves the operand's value zero-extended in bits 127:0 of its register, whose bits
from 128 to MAXVL stay. -/
theorem GatePasses.exec_sseLoad {s : State} {i : Instr} {v : BitVec (widthOf s i).bits} (h : GatePasses s i)
    (hi : isSse2Row i = true) (hd : dirOf i = .toReg) (hv : RmReads (widthOf s i) s (argsOf s i) v) :
    ∃ x : VecWord, x.extractLsb' 0 128 = v.setWidth 128 ∧
      (∀ j, 128 ≤ j → j < s.plat.maxvl.bits → x.getLsbD j = (readVec s (vecOf s i)).getLsbD j) ∧
      (∀ j, s.plat.maxvl.bits ≤ j → x.getLsbD j = false) ∧
      exec i s = .next { s with
        vec := s.vec.set (vecOf s i).toNat x (BitVec.isLt _)
        rip := s.rip + BitVec.ofNat 64 i.ilen } := by
  obtain ⟨x, hlow, hkeep, hnone, hwrite⟩ := writeXmmKeep_eq s (vecOf s i) (v.setWidth 128)
  refine ⟨x, hlow, hkeep, hnone, ?_⟩
  rw [h.exec_load hd hv, loadInto_of_sse2Row hi, hwrite]
  rfl

/-- Settles O43: each row is a legacy SSE load, past the gate of its family. -/
theorem sseLoadsComplete : Obligations.SseLoadsComplete := by
  refine fun pre m s hfit hready => ⟨fun v hv => ?_, fun hm v hv => ?_⟩
  · have hgate : GatePasses s (.movdXmmRm32 pre m) := hready.gatePasses hfit rfl rfl (refuseQuadInM32_dword s)
    exact hgate.exec_sseLoad rfl rfl hv
  · have hgate : GatePasses s (.movqXmmRm64 pre m) := hready.gatePasses hfit rfl rfl (refuseQuadInM32_m64 .qword hm)
    exact hgate.exec_sseLoad rfl rfl hv

end Sys2Proof.Machine
end

section
/-! SUPPORT. Rows 9 to 12: the reserved VEX fields, when the loads and stores complete, and the frame of the loads,
which is that of rows 13 and 14 too (42_vmovd_vmovq_vex.md R150 to R155, 43_vmovd_vmovq_evex.md R160 to R162). -/

namespace Sys2Proof.Machine

/-! ## The reserved fields -/

/-- VEX.L = 1 or a stored VEX.vvvv other than 1111b is a #UD condition of rows 9 to 12. -/
theorem udVex_of_reserved {l : Bool} {vvvv : BitVec 4} (s : State) (pre : List PrefixItem)
    (h : l = true ∨ vvvv ≠ 15) : udVex s pre l vvvv = true := by
  unfold udVex
  obtain hl | hv := h
  · rw [hl, Bool.or_true, Bool.true_or]
  · rw [decide_eq_true hv, Bool.or_true]

section
variable {s : State} {pre : List PrefixItem} {m : ModRM} {i : Instr}

theorem exec_vex3Rows_ud {v : Vex3} (hfit : IpFits s (vex3Len pre m)) (hud : udVex s pre v.l v.vvvv = true)
    (hi : i ∈ vex3Rows pre v m) : exec i s = .fault (.ud s.rip) := by
  simp only [vex3Rows, List.mem_cons, List.not_mem_nil, or_false] at hi
  obtain rfl | rfl | rfl | rfl := hi <;> exact exec_ud hfit hud

theorem exec_vex2Rows_ud {v : Vex2} (hfit : IpFits s (vex2Len pre m)) (hud : udVex s pre v.l v.vvvv = true)
    (hi : i ∈ vex2Rows pre v m) : exec i s = .fault (.ud s.rip) := by
  simp only [vex2Rows, List.mem_cons, List.not_mem_nil, or_false] at hi
  obtain rfl | rfl := hi <;> exact exec_ud hfit hud

end

/-- Settles O27: each reserved field is a #UD condition, in the three-byte form and in the two-byte form. -/
theorem vexReservedFieldsRaiseUD : Obligations.VexReservedFieldsRaiseUD :=
  ⟨fun pre _ _ s hfit hres _ => exec_vex3Rows_ud hfit (udVex_of_reserved s pre hres),
    fun pre _ _ s hfit hres _ => exec_vex2Rows_ud hfit (udVex_of_reserved s pre hres)⟩

/-! ## The loads -/

/-- The VEX write of an XMM destination fills the whole register with the moved value, zero-extended, whatever MAXVL is
(10_state.md R27). -/
theorem writeXmmZero_setWidth {w : Width} (s : State) (n : BitVec 5) (v : BitVec w.bits) :
    writeXmmZero s n (v.setWidth 128) = { s with vec := s.vec.set n.toNat (v.setWidth 512) n.isLt } := by
  have hw : w.bits ≤ 128 := by cases w <;> decide
  have hext : (v.setWidth 128).setWidth 512 = v.setWidth 512 := BitVec.setWidth_setWidth (by omega)
  rw [writeXmmZero, writeVec, maskVec_setWidth, hext]

/-- A load outside the MMX and the legacy SSE rows is one zeroing write of its vector register. -/
theorem loadInto_of_vexOrEvexRow {s : State} {i : Instr} (hmmx : isMmxRow i = false) (hsse : isSse2Row i = false)
    (v : BitVec (widthOf s i).bits) : loadInto s i v = writeXmmZero s (vecOf s i) (v.setWidth 128) := by
  rw [loadInto, hmmx, hsse, if_neg Bool.false_ne_true, if_neg Bool.false_ne_true]

/-- Past the gate a load of a VEX or EVEX row leaves the operand's value, zero-extended, in the whole vector
register. -/
theorem GatePasses.exec_zeroingLoad {s : State} {i : Instr} {w : Width} {a : RmArgs} {n : BitVec 5}
    {x : BitVec w.bits} (h : GatePasses s i) (hmmx : isMmxRow i = false) (hsse : isSse2Row i = false)
    (hd : dirOf i = .toReg) (hw : widthOf s i = w) (ha : argsOf s i = a) (hn : vecOf s i = n)
    (hx : RmReads w s a x) :
    exec i s = .next { s with
      vec := s.vec.set n.toNat (x.setWidth 512) (BitVec.isLt _)
      rip := s.rip + BitVec.ofNat 64 i.ilen } := by
  subst hw ha hn
  rw [h.exec_load hd hx, loadInto_of_vexOrEvexRow hmmx hsse, writeXmmZero_setWidth]
  rfl

/-- Settles O46: each row is a zeroing load, past the gate of its VEX form; row 10 moves a quadword in M64. -/
theorem vexLoadsComplete : Obligations.VexLoadsComplete := by
  refine ⟨fun pre v m s hfit hready => ⟨fun x hx => ?_, fun hm x hx => ?_⟩, fun pre v m s hfit hready x hx => ?_⟩
  · have hgate : GatePasses s (.vmovdXmmRm32C4 pre v m) := hready.gatePasses hfit (by simp [vex3Rows])
    exact hgate.exec_zeroingLoad rfl rfl rfl rfl rfl rfl hx
  · have hgate : GatePasses s (.vmovqXmmRm64Vex pre v m) := hready.gatePasses hfit (by simp [vex3Rows])
    exact hgate.exec_zeroingLoad rfl rfl rfl (w1Width_m64 hm) rfl rfl hx
  · have hgate : GatePasses s (.vmovdXmmRm32C5 pre v m) := hready.gatePasses hfit (by simp [vex2Rows])
    exact hgate.exec_zeroingLoad rfl rfl rfl rfl rfl rfl hx

/-- Settles O55: each row is a load into the vector register that its extension bits and ModRM:reg name. -/
theorem vexLoadsFrame : Obligations.VexLoadsFrame := by
  refine ⟨fun pre v m s t h => ?_, fun pre v m s t h => ?_, fun pre e m s t h => ?_⟩
  · obtain h | h := h <;> exact exec_vecLoad_frame h rfl rfl rfl
  · exact exec_vecLoad_frame h rfl rfl rfl
  · obtain h | h := h <;> exact exec_vecLoad_frame h rfl rfl rfl

/-! ## The stores -/

/-- Settles O47: each row is a store of a vector register, past the gate of its VEX form; row 12 moves a quadword in
M64. -/
theorem vexStoresToRegisterComplete : Obligations.VexStoresToRegisterComplete := by
  refine ⟨fun pre v m s r hfit hready hr => ⟨?_, fun hm => ?_⟩, fun pre v m s r hfit hready hr => ?_⟩
  · have hgate : GatePasses s (.vmovdRm32XmmC4 pre v m) := hready.gatePasses hfit (by simp [vex3Rows])
    exact hgate.exec_vecRegStore rfl rfl rfl rfl rfl hr
  · have hgate : GatePasses s (.vmovqRm64XmmVex pre v m) := hready.gatePasses hfit (by simp [vex3Rows])
    have hstore := hgate.exec_vecRegStore rfl rfl (w1Width_m64 hm) rfl rfl hr
    rwa [BitVec.setWidth_eq] at hstore
  · have hgate : GatePasses s (.vmovdRm32XmmC5 pre v m) := hready.gatePasses hfit (by simp [vex2Rows])
    exact hgate.exec_vecRegStore rfl rfl rfl rfl rfl hr

/-- Settles O48: each row is a store of a vector register, past the gate of its VEX form; row 12 moves a quadword in
M64. -/
theorem vexStoresToMemoryComplete : Obligations.VexStoresToMemoryComplete := by
  refine ⟨fun pre v m s hfit hready hr => ⟨fun hadm => ?_, fun hm hadm => ?_⟩,
    fun pre v m s hfit hready hr hadm => ?_⟩
  · have hgate : GatePasses s (.vmovdRm32XmmC4 pre v m) := hready.gatePasses hfit (by simp [vex3Rows])
    exact hgate.exec_vecMemStore rfl rfl rfl rfl rfl hr hadm
  · have hgate : GatePasses s (.vmovqRm64XmmVex pre v m) := hready.gatePasses hfit (by simp [vex3Rows])
    exact hgate.exec_vecMemStore rfl rfl (w1Width_m64 hm) rfl rfl hr hadm
  · have hgate : GatePasses s (.vmovdRm32XmmC5 pre v m) := hready.gatePasses hfit (by simp [vex2Rows])
    exact hgate.exec_vecMemStore rfl rfl rfl rfl rfl hr hadm

end Sys2Proof.Machine
end

section
/-! SUPPORT. Rows 13 to 16: the reserved EVEX fields, and when the loads and stores complete
(43_vmovd_vmovq_evex.md R160 to R165). -/

namespace Sys2Proof.Machine

/-! ## The reserved fields -/

/-- The field check passes when every unused field is inactive, as `EvexReady` asks. -/
theorem evexFieldsOk_iff {e : Evex} : evexFieldsOk e = true ↔
    e.vvvv = 15 ∧ e.ll = 0 ∧ e.aaa = 0 ∧ e.z = false ∧ e.bc = false ∧ e.vBar' = true := by
  simp [evexFieldsOk, and_assoc]

/-- A field at a reserved value fails the field check. -/
theorem evexFieldsOk_of_reserved {e : Evex}
    (h : e.vvvv ≠ 15 ∨ e.ll ≠ 0 ∨ e.aaa ≠ 0 ∨ e.z = true ∨ e.bc = true ∨ e.vBar' = false) :
    evexFieldsOk e = false := by
  refine Bool.eq_false_iff.mpr fun hok => ?_
  obtain ⟨hvvvv, hll, haaa, hz, hbc, hvBar⟩ := evexFieldsOk_iff.mp hok
  obtain h | h | h | h | h | h := h
  · exact h hvvvv
  · exact h hll
  · exact h haaa
  · cases hz.symm.trans h
  · cases hbc.symm.trans h
  · cases hvBar.symm.trans h

/-- A failed field check is a #UD condition of rows 13 to 16. -/
theorem udEvex_of_not_evexFieldsOk {e : Evex} (s : State) (pre : List PrefixItem) (h : evexFieldsOk e = false) :
    udEvex s pre e = true := by
  rw [udEvex, h, Bool.not_false, Bool.or_true]

theorem exec_evexRows_ud {s : State} {pre : List PrefixItem} {e : Evex} {m : ModRM} {i : Instr}
    (hfit : IpFits s (evexLen pre m)) (hud : udEvex s pre e = true) (hi : i ∈ evexRows pre e m) :
    exec i s = .fault (.ud s.rip) := by
  simp only [evexRows, List.mem_cons, List.not_mem_nil, or_false] at hi
  obtain rfl | rfl | rfl | rfl := hi <;> exact exec_ud hfit hud

/-- Settles O28: a reserved field fails the field check, which is a #UD condition of every row. -/
theorem evexReservedFieldsRaiseUD : Obligations.EvexReservedFieldsRaiseUD := fun pre _ _ s hfit hres _ =>
  exec_evexRows_ud hfit (udEvex_of_not_evexFieldsOk s pre (evexFieldsOk_of_reserved hres))

/-! ## The loads -/

/-- In M64 the operand of a W1 row is that of a quadword access, its 8-bit displacement counted in quadwords
(30_encoding.md R104). -/
theorem evexArgs_w1Width_m64 {mode : Mode} (hm : mode = .m64) (pre : List PrefixItem) (e : Evex) (m : ModRM) :
    evexArgs pre e m (w1Width mode) = evexArgs pre e m .qword :=
  congrArg (evexArgs pre e m) (w1Width_m64 hm)

/-- Settles O49: each row is a zeroing load, past the EVEX gate; row 14 moves a quadword in M64. -/
theorem evexLoadsComplete : Obligations.EvexLoadsComplete := by
  refine fun pre e m s hfit hready => ⟨fun x hx => ?_, fun hm x hx => ?_⟩
  · have hgate : GatePasses s (.vmovdXmmRm32Evex pre e m) := hready.gatePasses hfit (by simp [evexRows])
    exact hgate.exec_zeroingLoad rfl rfl rfl rfl rfl rfl hx
  · have hgate : GatePasses s (.vmovqXmmRm64Evex pre e m) := hready.gatePasses hfit (by simp [evexRows])
    exact hgate.exec_zeroingLoad rfl rfl rfl (w1Width_m64 hm) (evexArgs_w1Width_m64 hm pre e m) rfl hx

/-! ## The stores -/

/-- Settles O50: each row is a store of a vector register, past the EVEX gate; row 16 moves a quadword in M64. -/
theorem evexStoresToRegisterComplete : Obligations.EvexStoresToRegisterComplete := by
  refine fun pre e m s r hfit hready hr => ⟨?_, fun hm => ?_⟩
  · have hgate : GatePasses s (.vmovdRm32XmmEvex pre e m) := hready.gatePasses hfit (by simp [evexRows])
    exact hgate.exec_vecRegStore rfl rfl rfl rfl rfl hr
  · have hgate : GatePasses s (.vmovqRm64XmmEvex pre e m) := hready.gatePasses hfit (by simp [evexRows])
    have hstore := hgate.exec_vecRegStore rfl rfl (w1Width_m64 hm) (evexArgs_w1Width_m64 hm pre e m) rfl hr
    rwa [BitVec.setWidth_eq] at hstore

/-- Settles O51: each row is a store of a vector register, past the EVEX gate; row 16 moves a quadword in M64. -/
theorem evexStoresToMemoryComplete : Obligations.EvexStoresToMemoryComplete := by
  refine fun pre e m s hfit hready hr => ⟨fun hadm => ?_, fun hm hadm => ?_⟩
  · have hgate : GatePasses s (.vmovdRm32XmmEvex pre e m) := hready.gatePasses hfit (by simp [evexRows])
    exact hgate.exec_vecMemStore rfl rfl rfl rfl rfl hr hadm
  · have hgate : GatePasses s (.vmovqRm64XmmEvex pre e m) := hready.gatePasses hfit (by simp [evexRows])
    exact hgate.exec_vecMemStore rfl rfl (w1Width_m64 hm) (evexArgs_w1Width_m64 hm pre e m) rfl hr hadm

end Sys2Proof.Machine
end

section
/-! SUPPORT. The exceptions of an instruction: the length check, the feature flags and the gate of each family, and that
an instruction commutes with a change of the control bits its family does not consult (60_exceptions.md R174 to
R186). -/

namespace Sys2Proof.Machine

/-- Settles O17: each row of the table is one value of `Fault.vector` or `Fault.errorCode`. -/
theorem exceptionTable : Obligations.ExceptionTable := fun _ _ _ =>
  ⟨rfl, rfl, rfl, rfl, rfl, rfl, rfl, rfl, rfl, rfl, rfl, rfl, rfl, rfl⟩

/-! ## Which faults there are -/

/-- A step faults exactly when the fetched bytes decode to an instruction that faults. -/
theorem step_eq_fault {s : State} {f : Fault} :
    step s = .fault f ↔ ∃ i rest, decode s.codeMode (fetch s) = .ok i rest ∧ exec i s = .fault f := by
  unfold step
  cases decode s.codeMode (fetch s) <;> simp

theorem exec_fault_savedIp {i : Instr} {s : State} {f : Fault} (h : exec i s = .fault f) : f.savedIp = s.rip := by
  obtain (⟨-, rfl⟩ | rfl | rfl | rfl) | ⟨-, _, htranslate⟩ := exec_eq_fault h
  · rfl
  · rfl
  · rfl
  · rfl
  · exact translate_fault_savedIp htranslate

/-- Settles O18: the fault comes from the gate or from Translate, and both save the instruction's address. -/
theorem faultsSaveInstructionAddress : Obligations.FaultsSaveInstructionAddress := by
  intro s f h
  obtain ⟨i, _, -, hexec⟩ := step_eq_fault.mp h
  exact exec_fault_savedIp hexec

/-- Settles O19: a register form never reaches Translate, and the gate raises #GP for the length alone. -/
theorem registerFormsRaiseNoMemoryFault : Obligations.RegisterFormsRaiseNoMemoryFault := by
  intro i s r hrm hlen f h
  obtain (⟨hlong, -⟩ | hgate) | ⟨hmem, -⟩ := exec_eq_fault h
  · exact absurd hlen (Nat.not_le.mpr hlong)
  · exact hgate
  · rw [hrm] at hmem
    cases hmem

/-- Settles O20: the length is checked first, and a step executes the instruction that stands in the program. -/
theorem longInstructionsRaiseGP : Obligations.LongInstructionsRaiseGP :=
  ⟨fun _ _ hip hlong => exec_long hip hlong,
    fun _ _ hwf hip hlong hbytes => (step_eq_exec_of_inProgram hwf hip hbytes).trans (exec_long hip hlong)⟩

/-! ## The #UD conditions of each family -/

theorem udOf_of_mmxRow {i : Instr} (hi : isMmxRow i = true) (s : State) : udOf s i = udMmx s i.prefixes := by
  cases i with
  | movdMmRm32 | movqMmRm64 | movdRm32Mm | movqRm64Mm => rfl
  | _ => cases hi

theorem udOf_of_sse2Row {i : Instr} (hi : isSse2Row i = true) (s : State) : udOf s i = udSse2 s i.prefixes := by
  cases i with
  | movdXmmRm32 | movqXmmRm64 | movdRm32Xmm | movqRm64Xmm => rfl
  | _ => cases hi

/-- Which VEX.L and VEX.vvvv an instruction of rows 9 to 12 has does not depend on the state. -/
theorem exists_udOf_of_vexRow {i : Instr} (hi : isVexRow i = true) :
    ∃ l vvvv, ∀ s, udOf s i = udVex s i.prefixes l vvvv := by
  cases i with
  | vmovdXmmRm32C4 _ v | vmovqXmmRm64Vex _ v | vmovdRm32XmmC4 _ v | vmovqRm64XmmVex _ v
  | vmovdXmmRm32C5 _ v | vmovdRm32XmmC5 _ v => exact ⟨v.l, v.vvvv, fun _ => rfl⟩
  | _ => cases hi

theorem exists_udOf_of_evexRow {i : Instr} (hi : isEvexRow i = true) : ∃ e, ∀ s, udOf s i = udEvex s i.prefixes e := by
  cases i with
  | vmovdXmmRm32Evex _ e | vmovqXmmRm64Evex _ e | vmovdRm32XmmEvex _ e | vmovqRm64XmmEvex _ e =>
    exact ⟨e, fun _ => rfl⟩
  | _ => cases hi

/-- Each row's #UD conditions include the absence of its CPUID feature. -/
theorem udOf_of_not_hasFeature {s : State} {i : Instr} (h : hasFeature s.plat i = false) : udOf s i = true := by
  cases i with
  | movdMmRm32 pre | movqMmRm64 pre | movdRm32Mm pre | movqRm64Mm pre =>
    have hflag : s.plat.hasMMX = false := h
    simp [udOf, udMmx, hflag]
  | movdXmmRm32 pre | movqXmmRm64 pre | movdRm32Xmm pre | movqRm64Xmm pre =>
    have hflag : s.plat.hasSSE2 = false := h
    simp [udOf, udSse2, hflag]
  | vmovdXmmRm32C4 | vmovdXmmRm32C5 | vmovqXmmRm64Vex | vmovdRm32XmmC4 | vmovdRm32XmmC5 | vmovqRm64XmmVex =>
    have hflag : s.plat.hasAVX = false := h
    simp [udOf, udVex, hflag]
  | vmovdXmmRm32Evex | vmovqXmmRm64Evex | vmovdRm32XmmEvex | vmovqRm64XmmEvex =>
    have hflag : s.plat.hasAVX512F = false := h
    simp [udOf, udEvex, hflag]

/-- Settles O22: the feature flag is a #UD condition of every row. -/
theorem missingFeatureRaisesUD : Obligations.MissingFeatureRaisesUD := fun _ _ hfit hfeature =>
  exec_ud hfit (udOf_of_not_hasFeature hfeature)

theorem udMmx_eq_false_iff {s : State} {pre : List PrefixItem} :
    udMmx s pre = false ↔ hasLock pre = false ∧ s.plat.hasMMX = true ∧ s.cr0EM = false := by
  simp [udMmx, and_assoc]

theorem udSse2_eq_false_iff {s : State} {pre : List PrefixItem} :
    udSse2 s pre = false ↔
      hasLock pre = false ∧ s.plat.hasSSE2 = true ∧ s.cr0EM = false ∧ s.cr4OSFXSR = true := by
  simp [udSse2, and_assoc]

theorem udVex_eq_false_iff {s : State} {pre : List PrefixItem} {l : Bool} {vvvv : BitVec 4} :
    udVex s pre l vvvv = false ↔
      badVexPrefix pre = false ∧ s.plat.hasAVX = true ∧ s.inRealOrV86 = false ∧ s.cr4OSXSAVE = true ∧
        s.xcr0Avx = true ∧ l = false ∧ vvvv = 15 := by
  simp [udVex, and_assoc]

theorem udEvex_eq_false_iff {s : State} {pre : List PrefixItem} {e : Evex} :
    udEvex s pre e = false ↔
      badVexPrefix pre = false ∧ s.plat.hasAVX512F = true ∧ s.inRealOrV86 = false ∧ s.cr4OSXSAVE = true ∧
        s.xcr0Avx = true ∧ s.xcr0Avx512 = true ∧ evexFieldsOk e = true := by
  simp [udEvex, and_assoc]

theorem udMmx_of_em {s : State} (pre : List PrefixItem) (h : s.cr0EM = true) : udMmx s pre = true := by
  simp [udMmx, h]

/-- CR0.EM set or CR4.OSFXSR clear is a #UD condition of rows 5 to 8 (60_exceptions.md R178). -/
theorem udSse2_of_disabled {s : State} (pre : List PrefixItem) (h : s.cr0EM = true ∨ s.cr4OSFXSR = false) :
    udSse2 s pre = true := by
  obtain hem | hfx := h
  · simp [udSse2, hem]
  · exact udSse2_of_osfxsr pre hfx

/-- The mode, CR4.OSXSAVE and XCR0[2:1] are #UD conditions of rows 9 to 12 (60_exceptions.md R179). -/
theorem udVex_of_disabled {s : State} (pre : List PrefixItem) (l : Bool) (vvvv : BitVec 4)
    (h : s.inRealOrV86 = true ∨ s.cr4OSXSAVE = false ∨ s.xcr0Avx = false) : udVex s pre l vvvv = true := by
  obtain hreal | hxsave | hxcr := h
  · exact udVex_of_real pre l vvvv hreal
  · simp [udVex, hxsave]
  · simp [udVex, hxcr]

/-- The mode, CR4.OSXSAVE, XCR0[2:1] and XCR0[7:5] are #UD conditions of rows 13 to 16 (60_exceptions.md R180). -/
theorem udEvex_of_disabled {s : State} (pre : List PrefixItem) (e : Evex)
    (h : s.inRealOrV86 = true ∨ s.cr4OSXSAVE = false ∨ s.xcr0Avx = false ∨ s.xcr0Avx512 = false) :
    udEvex s pre e = true := by
  obtain hreal | hxsave | hxcr | hxcr512 := h
  · exact udEvex_of_real pre e hreal
  · simp [udEvex, hxsave]
  · simp [udEvex, hxcr]
  · simp [udEvex, hxcr512]

/-! ## #NM of the rows with the same VEX or EVEX fields and operand -/

section
variable {s : State} {pre : List PrefixItem} {m : ModRM} {i : Instr} (hts : s.cr0TS = true)
include hts

theorem exec_vex3Rows_nm {v : Vex3} (hfit : IpFits s (vex3Len pre m)) (hud : udVex s pre v.l v.vvvv = false)
    (hi : i ∈ vex3Rows pre v m) : exec i s = .fault (.nm s.rip) := by
  simp only [vex3Rows, List.mem_cons, List.not_mem_nil, or_false] at hi
  obtain rfl | rfl | rfl | rfl := hi <;> exact exec_nm hfit hud hts

theorem exec_vex2Rows_nm {v : Vex2} (hfit : IpFits s (vex2Len pre m)) (hud : udVex s pre v.l v.vvvv = false)
    (hi : i ∈ vex2Rows pre v m) : exec i s = .fault (.nm s.rip) := by
  simp only [vex2Rows, List.mem_cons, List.not_mem_nil, or_false] at hi
  obtain rfl | rfl := hi <;> exact exec_nm hfit hud hts

theorem exec_evexRows_nm {e : Evex} (hfit : IpFits s (evexLen pre m)) (hud : udEvex s pre e = false)
    (hi : i ∈ evexRows pre e m) : exec i s = .fault (.nm s.rip) := by
  simp only [evexRows, List.mem_cons, List.not_mem_nil, or_false] at hi
  obtain rfl | rfl | rfl | rfl := hi <;> exact exec_nm hfit hud hts

end

/-! ## Other control registers -/

/-- The state with CR0 and CR4 changed. -/
def mapCr (g0 g4 : Word32 → Word32) (s : State) : State := { s with cr0 := g0 s.cr0, cr4 := g4 s.cr4 }

section
variable {s : State} {g0 g4 : Word32 → Word32} (ham : (mapCr g0 g4 s).cr0AM = s.cr0AM)
include ham

/-- Of CR0 and CR4 Translate reads AM alone, in the alignment check. -/
theorem translate_mapCr (seg : Seg) (off : Word64) (n : Nat) (k : Access) :
    translate (mapCr g0 g4 s) seg off n k = translate s seg off n k := by
  have halign : ∀ la, alignFault (mapCr g0 g4 s) la n = alignFault s la n := fun la =>
    congrArg (fun am => am && s.eflagsAC && decide (s.cpl = 3) && decide (la.toNat % n ≠ 0)) ham
  unfold translate
  rw [halign]
  rfl

theorem readRM_mapCr (w : Width) (a : RmArgs) : readRM w (mapCr g0 g4 s) a = readRM w s a := by
  cases hr : rmIsReg a.rm with
  | true =>
    obtain ⟨r, hd⟩ := exists_direct_of_rmIsReg hr
    rw [readRM_direct hd, readRM_direct hd]
    rfl
  | false =>
    rw [readRM_mem hr, readRM_mem hr, memRead, translate_mapCr ham]
    rfl

theorem writeRM_mapCr (w : Width) (a : RmArgs) (v : BitVec w.bits) :
    writeRM w (mapCr g0 g4 s) a v = mapNext (mapCr g0 g4) (writeRM w s a v) := by
  cases hr : rmIsReg a.rm with
  | true =>
    obtain ⟨r, hd⟩ := exists_direct_of_rmIsReg hr
    rw [writeRM_direct hd, writeRM_direct hd]
    rfl
  | false =>
    rw [writeRM_mem hr, writeRM_mem hr, memWrite, memWrite, translate_mapCr ham, mapNext_bind]
    simp only [apply_ite (mapNext (mapCr g0 g4))]
    rfl

theorem moveOf_mapCr (i : Instr) : moveOf (mapCr g0 g4 s) i = mapNext (mapCr g0 g4) (moveOf s i) := by
  have hload : ∀ v, loadInto (mapCr g0 g4 s) i v = mapCr g0 g4 (loadInto s i v) := by cases i <;> exact fun _ => rfl
  have hstore : ∀ u, afterStore i (mapCr g0 g4 u) = mapCr g0 g4 (afterStore i u) := by cases i <;> exact fun _ => rfl
  unfold moveOf
  cases dirOf i with
  | toReg =>
    rw [readRM_mapCr ham, mapNext_bind]
    exact congrArg (Res.bind _) <| funext fun v => congrArg (fun t => Host.Outcome.next (advance t i.ilen)) (hload v)
  | toRm =>
    rw [writeRM_mapCr ham, bind_mapNext, mapNext_bind]
    exact congrArg (Res.bind _) <| funext fun u => congrArg (fun t => Host.Outcome.next (advance t i.ilen)) (hstore u)

/-- An instruction commutes with a change of CR0 and CR4 that keeps AM, TS and the row's #UD conditions. -/
theorem exec_mapCr {i : Instr} (hts : (mapCr g0 g4 s).cr0TS = s.cr0TS) (hud : udOf (mapCr g0 g4 s) i = udOf s i) :
    exec i (mapCr g0 g4 s) = mapNext (mapCr g0 g4) (exec i s) := by
  have hno : noOf (mapCr g0 g4 s) i = noOf s i := by cases i <;> rfl
  have hgate : gateOf (mapCr g0 g4 s) i = gateOf s i := by
    rw [gateOf, hts, hud, hno]
    rfl
  rw [exec_eq, exec_eq, hgate, mapNext_bind, moveOf_mapCr ham]

end

/-- Rows 1 to 4 do not consult CR4 (60_exceptions.md R177). -/
theorem exec_mmxRow_cr4 {i : Instr} (hi : isMmxRow i = true) (s : State) (c : Word32) :
    exec i { s with cr4 := c } = mapNext (fun t => { t with cr4 := c }) (exec i s) := by
  have hud : udOf (mapCr id (fun _ => c) s) i = udOf s i := by
    rw [udOf_of_mmxRow hi, udOf_of_mmxRow hi]
    rfl
  exact exec_mapCr (g0 := id) (g4 := fun _ => c) rfl rfl hud

/-- Of CR0 and CR4 rows 9 to 12 consult TS, AM and OSXSAVE alone (60_exceptions.md R179). -/
theorem exec_vexRow_cr {i : Instr} (hi : isVexRow i = true) {s : State} {c0 c4 : Word32}
    (hts : c0.getLsbD 3 = s.cr0.getLsbD 3) (ham : c0.getLsbD 18 = s.cr0.getLsbD 18)
    (hxsave : c4.getLsbD 18 = s.cr4.getLsbD 18) :
    exec i { s with cr0 := c0, cr4 := c4 } = mapNext (fun t => { t with cr0 := c0, cr4 := c4 }) (exec i s) := by
  obtain ⟨l, vvvv, hudOf⟩ := exists_udOf_of_vexRow hi
  have hx : (mapCr (fun _ => c0) (fun _ => c4) s).cr4OSXSAVE = s.cr4OSXSAVE := hxsave
  have hud : udOf (mapCr (fun _ => c0) (fun _ => c4) s) i = udOf s i := by
    rw [hudOf, hudOf, udVex, hx]
    rfl
  exact exec_mapCr (g0 := fun _ => c0) (g4 := fun _ => c4) ham hts hud

/-! ## The gates -/

/-- Settles O23: past the rows' #UD conditions the gate asks TS, then the pending exception; none of these reads CR4. -/
theorem mmxRowsGate : Obligations.MmxRowsGate := by
  intro i s hi hfit hlock hfeature
  have hud : s.cr0EM = false → udOf s i = false := fun hem =>
    (udOf_of_mmxRow hi s).trans (udMmx_eq_false_iff.mpr ⟨hlock, hfeature, hem⟩)
  refine ⟨fun hem => ?_, fun hem hts => exec_nm hfit (hud hem) hts, fun hem hts hpending => ?_, exec_mmxRow_cr4 hi s⟩
  · exact exec_ud hfit ((udOf_of_mmxRow hi s).trans (udMmx_of_em _ hem))
  · exact exec_mf hfit (hud hem) hts (by rw [mfOf, hi, hpending, Bool.and_true])

/-- Settles O24: EM and OSFXSR are #UD conditions of the rows, and past these TS is #NM. -/
theorem sseRowsGate : Obligations.SseRowsGate := by
  intro i s hi hfit
  refine ⟨fun hoff => exec_ud hfit ?_, fun hem hfx hlock hfeature hts => exec_nm hfit ?_ hts⟩
  · exact (udOf_of_sse2Row hi s).trans (udSse2_of_disabled _ hoff)
  · exact (udOf_of_sse2Row hi s).trans (udSse2_eq_false_iff.mpr ⟨hlock, hfeature, hem, hfx⟩)

/-- Settles O25: the first clauses turn on the rows' #UD conditions; the last is that the rows commute with the change
of CR0 and CR4. -/
theorem vexRowsGate : Obligations.VexRowsGate := by
  refine ⟨fun i s hi hfit hoff => ?_, fun pre v m s hfit hbad hfeature hreal hxsave hxcr hl hv hts i hmem => ?_,
    fun pre v m s hfit hbad hfeature hreal hxsave hxcr hl hv hts i hmem => ?_,
    fun i s c0 c4 hi hts ham hxsave => exec_vexRow_cr hi hts ham hxsave⟩
  · obtain ⟨l, vvvv, hudOf⟩ := exists_udOf_of_vexRow hi
    exact exec_ud hfit ((hudOf s).trans (udVex_of_disabled _ l vvvv hoff))
  · exact exec_vex3Rows_nm hts hfit (udVex_eq_false_iff.mpr ⟨hbad, hfeature, hreal, hxsave, hxcr, hl, hv⟩) hmem
  · exact exec_vex2Rows_nm hts hfit (udVex_eq_false_iff.mpr ⟨hbad, hfeature, hreal, hxsave, hxcr, hl, hv⟩) hmem

/-- Settles O26: the mode and the enabling bits are #UD conditions of the rows, and past these TS is #NM. -/
theorem evexRowsGate : Obligations.EvexRowsGate := by
  refine ⟨fun i s hi hfit hoff => ?_,
    fun pre e m s hfit hbad hfeature hreal hxsave hxcr hxcr512 hfields hts i hmem => ?_⟩
  · obtain ⟨e, hudOf⟩ := exists_udOf_of_evexRow hi
    exact exec_ud hfit ((hudOf s).trans (udEvex_of_disabled _ e hoff))
  · have hud : udEvex s pre e = false :=
      udEvex_eq_false_iff.mpr ⟨hbad, hfeature, hreal, hxsave, hxcr, hxcr512, hfields⟩
    exact exec_evexRows_nm hts hfit hud hmem

end Sys2Proof.Machine
end

section
/-! SUPPORT. Where the first instruction after reset is fetched, and in what mode (70_reset_and_hazards.md R211). -/

namespace Sys2Proof.Machine

/-- In M32 code is fetched from CS base + EIP, which wraps at 2^32 (20_memory.md R59, log 67). -/
theorem codeAddr_of_m32 {s : State} (h : s.mode = .m32) (k : Nat) :
    codeAddr s k = (s.segs.cs.base.toNat + s.rip.toNat + k) % 2 ^ 32 := by
  rw [codeAddr, h]

/-- The CS base FFFF0000H and the instruction pointer 0000FFF0H add up to FFFFFFF0H, so that the address of the first
byte does not wrap. -/
theorem codeAddr_reset : codeAddr State.reset 0 = 0xFFFFFFF0 :=
  calc codeAddr State.reset 0
    _ = (0xFFFF0000 + 0xFFF0 + 0) % 2 ^ 32 := codeAddr_of_m32 rfl 0
    _ = 0xFFFFFFF0 := by norm_num

/-- Settles O1: the address of the first byte by `codeAddr_reset`, and every other value by the definition of the reset
state. -/
theorem resetFetchesAtResetVector : Obligations.ResetFetchesAtResetVector :=
  ⟨codeAddr_reset, rfl, rfl, rfl, rfl, rfl⟩

end Sys2Proof.Machine
end
